-- ==== Sys2Proof/Word.lean ====
section
/-! DEFINITION. The word types of SSJ-CORE (spec/00_scope.md R10 to R12, spec/10_state.md R33, R41). -/

namespace Sys2Proof

/-- A word: 32 bits, bit 0 the least significant (R10). -/
abbrev Word := BitVec 32

/-- A nonlinear index or offset register: 16 bits (R41). -/
abbrev Idx := BitVec 16

/-- A component length register: 17 bits, legal values 1 to 65536 (R20, R33). -/
abbrev Len := BitVec 17

/-- A vector of words; bit `32*k + b` of the vector is bit `b` of word `k` (R11). -/
abbrev Vec := List Word

/-- A matrix over GF(2) as the list of its rows, each row packed into words as in the jump ROM
(spec/20_memory.md R71): word `k` of row `i` holds in bit `b` the matrix bit `M[i][32*k + b]`. -/
abbrev Matrix := List Vec

end Sys2Proof
end

