-- ==== Sys2Proof/Config.lean ====
section
/-! DEFINITION. The configuration record CFG of spec/00_scope.md R7: every OPEN or derived field a model of SSJ-CORE
takes as an argument. Its legality (R8) is `ConfigWf` in Machine/Legal.lean; configuration T64 is in Machine/T64.lean. -/

namespace Sys2Proof

/-- `CFG` (R7). `WORD` is fixed at 32 by `Word`, `NORMC` by the algorithm of NORMALISE (spec/43_mixer.md R182);
`S` and `SB_DEPTH` are derived below. `jsubM` and `jstrM` stand for the jump ROM (spec/20_memory.md R71): R104 says
what they contain and `ConfigWf` demands it. -/
structure Config where
  /-- `R`: words of the backbone state. -/
  r : Nat
  /-- `B`: words of the output buffer. -/
  b : Nat
  /-- `STEP_M`, S x S. -/
  stepM : Matrix
  /-- `OUT_M`, 32*B x S. -/
  outM : Matrix
  /-- `W_EXP`. -/
  wExp : Nat
  /-- `V_EXP`. -/
  vExp : Nat
  /-- `JSUB_M`, the operator SUB of the jump ROM. -/
  jsubM : Matrix
  /-- `JSTR_M`, the operator STR of the jump ROM. -/
  jstrM : Matrix
  /-- `RESERVED_LAST`; `none` disables the check. -/
  reservedLast : Option Word
  /-- `NC_MAX`. -/
  ncMax : Nat
  /-- `L_MAX`. -/
  lMax : Nat
  /-- `DEF_NC`. -/
  defNc : Nat
  /-- `DEF_LEN[j]`. -/
  defLen : List Nat
  /-- `DEF_TAB[j][k]`. -/
  defTab : List (List Word)
  /-- `DEF_PKG_LIN[k]`. -/
  defPkgLin : Vec
  /-- `DEF_PKG_NL[j]`. -/
  defPkgNl : List Nat
  /-- `N_INST`. -/
  nInst : Nat
  deriving DecidableEq, Repr

/-- `S = 32 * R`, the number of state bits (R7). -/
def Config.s (c : Config) : Nat := 32 * c.r

/-- `SB_DEPTH = max(R, NC_MAX)` (R7). -/
def Config.sbDepth (c : Config) : Nat := max c.r c.ncMax

end Sys2Proof
end

