-- ==== Sys2Proof/Machine/Gf2.lean ====
section
/-! DEFINITION. Vectors and matrices over GF(2) and the pure part of the linear backbone: MATVEC, the matrix product and
POWSQ of design time, VERIFYSEED (spec/00_scope.md R11, R12; spec/40_backbone.md R100, R105, R106). -/

namespace Sys2Proof.Machine

/-! ## Bits and words -/

/-- The number whose bit `b` is `f b`, for `b < n`. -/
def natOfBits (f : Nat → Bool) : Nat → Nat
  | 0 => 0
  | n + 1 => natOfBits f n + (if f n then 2 ^ n else 0)

/-- The word whose bit `b` is `f b` (R10). -/
def wordOfBits (f : Nat → Bool) : Word := BitVec.ofNat 32 (natOfBits f 32)

/-- Bit `c` of `bits(v)`: bit `c mod 32` of word `c div 32` (R11). -/
def vecBit (v : Vec) (c : Nat) : Bool := (v.getD (c / 32) 0).getLsbD (c % 32)

/-- XOR of `f 0, …, f (n-1)`. -/
def xorBits (f : Nat → Bool) : Nat → Bool
  | 0 => false
  | n + 1 => f n ^^ xorBits f n

/-- The XOR of all bits of a vector (R12). -/
def parity : Vec → Bool
  | [] => false
  | w :: v => xorBits (fun b => w.getLsbD b) 32 ^^ parity v

/-- Bitwise AND of two vectors (R13). -/
def vecAnd (x y : Vec) : Vec := List.zipWith (fun a b => a &&& b) x y

/-- Bitwise XOR of two vectors (R13). -/
def vecXor (x y : Vec) : Vec := List.zipWith (fun a b => a ^^^ b) x y

/-- The zero vector of `n` words. -/
def zeroVec (n : Nat) : Vec := List.replicate n 0

/-! ## Matrices -/

/-- MATVEC (R100): bit `32*k + b` of the result is `parity(M[32*k + b] AND x)`; as many words as `rows(M)/32`. -/
def matvec (m : Matrix) (x : Vec) : Vec :=
  (List.range (m.length / 32)).map fun k =>
    wordOfBits fun b => parity (vecAnd (m.getD (32 * k + b) []) x)

/-- The XOR of the rows `c[t]`, `c[t+1]`, … that the bits `t`, `t+1`, … of `a` select; `n` words a row. -/
def selectRows (n : Nat) (a : Vec) : Nat → Matrix → Vec
  | _, [] => zeroVec n
  | t, row :: rest =>
    if vecBit a t then vecXor row (selectRows n a (t + 1) rest) else selectRows n a (t + 1) rest

/-- The matrix product (R12): row `i` of `A*C` is the XOR of the rows `t` of `C` with `A[i][t] = 1`.
`n` is the number of words of a row of `C`. -/
def matMul (n : Nat) (a c : Matrix) : Matrix := a.map fun row => selectRows n row 0 c

/-- POWSQ (R105): `M ^ (2 ^ e)` by `e` squarings. -/
def powSq (n : Nat) (m : Matrix) : Nat → Matrix
  | 0 => m
  | e + 1 => matMul n (powSq n m e) (powSq n m e)

/-- The matrix has `rows` rows of `n` words each (R12). -/
abbrev matrixShape (rows n : Nat) (m : Matrix) : Prop := m.length = rows ∧ ∀ row ∈ m, row.length = n

/-! ## Seed verification -/

/-- VERIFYSEED (R106): fail on the all-zero vector and on a final word equal to `RESERVED_LAST`. -/
def verifySeed (c : Config) (x : Vec) : Bool :=
  if x.all (fun w => w == 0) then false
  else if c.reservedLast == some (x.getD (c.r - 1) 0) then false
  else true

end Sys2Proof.Machine
end

