-- ==== Sys2Proof/Syntax.lean ====
section
/-! DEFINITION. The commands of SSJC-1 as syntax: one constructor of `Instr` per row of spec/opcode_table.json
(spec/30_encoding.md R83). -/

namespace Sys2Proof

/-- A command as the host presents it: the command word `CW` and the data word `DW` (R80). -/
structure Command where
  cw : Word
  dw : Word
  deriving DecidableEq, Repr

/-- The cursor levels 0 to 3 (spec/00_scope.md R14); the assembler writes `cur` as `LIVE` (R88). -/
inductive Level where
  | pkg
  | str
  | sub
  | cur
  deriving DecidableEq, Repr

/-- The 22 commands (R83) with the operand fields of R87. -/
inductive Instr where
  /-- NEXTU, R183. -/
  | nextu (i : BitVec 8)
  /-- NEXTW, R184. -/
  | nextw (i : BitVec 8)
  /-- CONSTRUCT, R161. -/
  | construct (i : BitVec 8)
  /-- RSTSTREAM, R162. -/
  | rststream (i : BitVec 8)
  /-- RSTSUB, R163. -/
  | rstsub (i : BitVec 8)
  /-- NEXTSUB, R164. -/
  | nextsub (i : BitVec 8)
  /-- CLONE, R165: destination `d`, source `src`. -/
  | clone (d src : BitVec 8)
  /-- SBCLR, R195. -/
  | sbclr
  /-- SBPUSH, R196. -/
  | sbpush (w : Word)
  /-- SETPKGL, R197. -/
  | setpkgl
  /-- SETPKGN, R198. -/
  | setpkgn
  /-- SETSEEDL, R199. -/
  | setseedl (i : BitVec 8)
  /-- SETSEEDN, R200. -/
  | setseedn (i : BitVec 8)
  /-- TBCNT, R137. -/
  | tbcnt (count : Word)
  /-- TBLEN, R138. -/
  | tblen (j : BitVec 8) (length : Word)
  /-- TBWR, R139. -/
  | tbwr (j : BitVec 8) (k : BitVec 16) (w : Word)
  /-- REPLACE, R140. -/
  | replace
  /-- RDLIN, R201: `i` must be 0 at level PKG. -/
  | rdlin (lvl : Level) (i k : BitVec 8)
  /-- RDNL, R202: `i` must be 0 at level PKG. -/
  | rdnl (lvl : Level) (i j : BitVec 8)
  /-- RDTAB, R203. -/
  | rdtab (j : BitVec 8) (k : BitVec 16)
  /-- RDCFG, R204: group `g`, item `t`. -/
  | rdcfg (g t : BitVec 8)
  /-- RDSTAT, R205. -/
  | rdstat
  deriving DecidableEq, Repr

end Sys2Proof
end

