-- ==== Sys2Proof/WellFormed.lean ====
section
/-! DEFINITION. Which terms of `Instr` are commands. Every operand is a field of the command word, so its width is in
its type; the one check left is the conditional reserved field of RDLIN and RDNL (spec/30_encoding.md R83). -/

namespace Sys2Proof

/-- At level PKG the instance operand of a readout is reserved and must be 0 (R83, R201, R202). -/
def levelOperandOk (lvl : Level) (i : BitVec 8) : Bool := lvl != .pkg || i == 0

/-- A term of `Instr` is well formed when its operands fit an encoding that R84 does not refuse. -/
def Instr.wf : Instr → Bool
  | .nextu _ => true
  | .nextw _ => true
  | .construct _ => true
  | .rststream _ => true
  | .rstsub _ => true
  | .nextsub _ => true
  | .clone _ _ => true
  | .sbclr => true
  | .sbpush _ => true
  | .setpkgl => true
  | .setpkgn => true
  | .setseedl _ => true
  | .setseedn _ => true
  | .tbcnt _ => true
  | .tblen _ _ => true
  | .tbwr _ _ _ => true
  | .replace => true
  | .rdlin lvl i _ => levelOperandOk lvl i
  | .rdnl lvl i _ => levelOperandOk lvl i
  | .rdtab _ _ => true
  | .rdcfg _ _ => true
  | .rdstat => true

end Sys2Proof
end

