-- ==== Sys2Proof/Decode.lean ====
section
/-! DEFINITION. Decoding and encoding of commands (spec/30_encoding.md). The decoder is total on all 2^64 commands
(R85); it rejects by name, and the step turns a rejection into status 4 (spec/60_exceptions.md R225). -/

namespace Sys2Proof

/-! ## Fields of format C (R81) -/

/-- `OP = CW[31:24]`. -/
def opField (c : Command) : BitVec 8 := c.cw.extractLsb' 24 8
/-- `IA = CW[23:16]`. -/
def iaField (c : Command) : BitVec 8 := c.cw.extractLsb' 16 8
/-- `IX = CW[15:0]`. -/
def ixField (c : Command) : BitVec 16 := c.cw.extractLsb' 0 16
/-- `IXH = IX[15:8]`. -/
def ixhField (c : Command) : BitVec 8 := c.cw.extractLsb' 8 8
/-- `IXL = IX[7:0]`. -/
def ixlField (c : Command) : BitVec 8 := c.cw.extractLsb' 0 8
/-- `LVL = IX[9:8]`. -/
def lvlField (c : Command) : BitVec 2 := c.cw.extractLsb' 8 2
/-- `IXR = IX[15:10]`. -/
def ixrField (c : Command) : BitVec 6 := c.cw.extractLsb' 10 6

/-- The level a value of `LVL` names: 0 PKG, 1 STR, 2 SUB, 3 CUR (R87). -/
def levelOfBits (l : BitVec 2) : Level :=
  match l.toNat with
  | 0 => .pkg
  | 1 => .str
  | 2 => .sub
  | _ => .cur

/-- The value of `LVL` that names a level (R87). -/
def bitsOfLevel : Level → BitVec 2
  | .pkg => 0
  | .str => 1
  | .sub => 2
  | .cur => 3

/-! ## Decoding -/

/-- Why a command is illegal; either reason gives status 4 (R86 tests 1 and 2). -/
inductive DecodeError where
  /-- `OP` is not one of the 22 opcodes (R85). -/
  | undefinedOpcode (op : BitVec 8)
  /-- A reserved field of the command is not zero (R84). -/
  | reservedField (op : BitVec 8)
  deriving DecidableEq, Repr

/-- Test 2 of R86: accept the instruction when its reserved fields are zero. -/
def acceptIf (reservedZero : Bool) (c : Command) (i : Instr) : Except DecodeError Instr :=
  if reservedZero then .ok i else .error (.reservedField (opField c))

/-- The decoder: opcode first, then the reserved fields of R83. -/
def decode (c : Command) : Except DecodeError Instr :=
  match (opField c).toNat with
  | 0x10 => acceptIf (ixField c == 0 && c.dw == 0) c (.nextu (iaField c))
  | 0x11 => acceptIf (ixField c == 0 && c.dw == 0) c (.nextw (iaField c))
  | 0x20 => acceptIf (ixField c == 0 && c.dw == 0) c (.construct (iaField c))
  | 0x21 => acceptIf (ixField c == 0 && c.dw == 0) c (.rststream (iaField c))
  | 0x22 => acceptIf (ixField c == 0 && c.dw == 0) c (.rstsub (iaField c))
  | 0x23 => acceptIf (ixField c == 0 && c.dw == 0) c (.nextsub (iaField c))
  | 0x24 => acceptIf (ixhField c == 0 && c.dw == 0) c (.clone (iaField c) (ixlField c))
  | 0x30 => acceptIf (iaField c == 0 && ixField c == 0 && c.dw == 0) c .sbclr
  | 0x31 => acceptIf (iaField c == 0 && ixField c == 0) c (.sbpush c.dw)
  | 0x32 => acceptIf (iaField c == 0 && ixField c == 0 && c.dw == 0) c .setpkgl
  | 0x33 => acceptIf (iaField c == 0 && ixField c == 0 && c.dw == 0) c .setpkgn
  | 0x34 => acceptIf (ixField c == 0 && c.dw == 0) c (.setseedl (iaField c))
  | 0x35 => acceptIf (ixField c == 0 && c.dw == 0) c (.setseedn (iaField c))
  | 0x40 => acceptIf (iaField c == 0 && ixField c == 0) c (.tbcnt c.dw)
  | 0x41 => acceptIf (ixField c == 0) c (.tblen (iaField c) c.dw)
  | 0x42 => .ok (.tbwr (iaField c) (ixField c) c.dw)
  | 0x43 => acceptIf (iaField c == 0 && ixField c == 0 && c.dw == 0) c .replace
  | 0x50 => acceptIf (ixrField c == 0 && c.dw == 0 && levelOperandOk (levelOfBits (lvlField c)) (iaField c)) c
              (.rdlin (levelOfBits (lvlField c)) (iaField c) (ixlField c))
  | 0x51 => acceptIf (ixrField c == 0 && c.dw == 0 && levelOperandOk (levelOfBits (lvlField c)) (iaField c)) c
              (.rdnl (levelOfBits (lvlField c)) (iaField c) (ixlField c))
  | 0x52 => acceptIf (c.dw == 0) c (.rdtab (iaField c) (ixField c))
  | 0x53 => acceptIf (iaField c == 0 && c.dw == 0) c (.rdcfg (ixhField c) (ixlField c))
  | 0x54 => acceptIf (iaField c == 0 && ixField c == 0 && c.dw == 0) c .rdstat
  | _ => .error (.undefinedOpcode (opField c))

/-! ## Encoding -/

/-- A command from its fields (R81). -/
def commandOf (op ia : BitVec 8) (ix : BitVec 16) (dw : Word) : Command := ⟨op ++ ia ++ ix, dw⟩

/-- The opcode of each command (R83). -/
def Instr.opcode : Instr → BitVec 8
  | .nextu _ => 0x10
  | .nextw _ => 0x11
  | .construct _ => 0x20
  | .rststream _ => 0x21
  | .rstsub _ => 0x22
  | .nextsub _ => 0x23
  | .clone _ _ => 0x24
  | .sbclr => 0x30
  | .sbpush _ => 0x31
  | .setpkgl => 0x32
  | .setpkgn => 0x33
  | .setseedl _ => 0x34
  | .setseedn _ => 0x35
  | .tbcnt _ => 0x40
  | .tblen _ _ => 0x41
  | .tbwr _ _ _ => 0x42
  | .replace => 0x43
  | .rdlin _ _ _ => 0x50
  | .rdnl _ _ _ => 0x51
  | .rdtab _ _ => 0x52
  | .rdcfg _ _ => 0x53
  | .rdstat => 0x54

/-- `IX` of a readout of the cursors: `IXR = 0`, `LVL`, `IXL` (R81, R83). -/
def readoutIx (lvl : Level) (k : BitVec 8) : BitVec 16 := 0#6 ++ bitsOfLevel lvl ++ k

/-- The command of an instruction, reserved fields zero (R83). -/
def encode (i : Instr) : Command :=
  match i with
  | .nextu a => commandOf i.opcode a 0 0
  | .nextw a => commandOf i.opcode a 0 0
  | .construct a => commandOf i.opcode a 0 0
  | .rststream a => commandOf i.opcode a 0 0
  | .rstsub a => commandOf i.opcode a 0 0
  | .nextsub a => commandOf i.opcode a 0 0
  | .clone d src => commandOf i.opcode d (0#8 ++ src) 0
  | .sbclr => commandOf i.opcode 0 0 0
  | .sbpush w => commandOf i.opcode 0 0 w
  | .setpkgl => commandOf i.opcode 0 0 0
  | .setpkgn => commandOf i.opcode 0 0 0
  | .setseedl a => commandOf i.opcode a 0 0
  | .setseedn a => commandOf i.opcode a 0 0
  | .tbcnt n => commandOf i.opcode 0 0 n
  | .tblen j n => commandOf i.opcode j 0 n
  | .tbwr j k w => commandOf i.opcode j k w
  | .replace => commandOf i.opcode 0 0 0
  | .rdlin lvl a k => commandOf i.opcode a (readoutIx lvl k) 0
  | .rdnl lvl a j => commandOf i.opcode a (readoutIx lvl j) 0
  | .rdtab j k => commandOf i.opcode j k 0
  | .rdcfg g t => commandOf i.opcode 0 (g ++ t) 0
  | .rdstat => commandOf i.opcode 0 0 0

/-! ## The opcode table's numbering -/

/-- The command whose bits are `w` as spec/opcode_table.json writes them: one 64-bit number, `CW` in bits 63:32 and
`DW` in bits 31:0 (R80; DEDUCED, log 9). Bits from `nbits` on are 0. -/
def commandOfTableWord (nbits w : Nat) : Command :=
  ⟨BitVec.ofNat 32 (w % 2 ^ nbits / 2 ^ 32), BitVec.ofNat 32 (w % 2 ^ nbits)⟩

/-- The instruction the decoder reads from a table word; `none` where it refuses. -/
def decodeTableWord (nbits w : Nat) : Option Instr :=
  match decode (commandOfTableWord nbits w) with
  | .ok i => some i
  | .error _ => none

end Sys2Proof
end

