-- ==== Sys2Proof/Machine/Memory.lean ====
section
/-! DEFINITION. The table memories TAB and SHTAB (spec/20_memory.md R60): word-addressed, one canonical sparse form.
A cell (`j`, `k`) has the address `j * 65536 + k`; a cell that is not listed reads 0 (spec/10_state.md R40; log 7). -/

namespace Sys2Proof.Machine

/-- A table memory: (address, word) pairs, addresses strictly rising, no zero word listed. -/
abbrev Memory := List (Nat × Word)

/-- The address of cell `k` of component `j`; `k < 65536` by R8. -/
def tabAddr (j k : Nat) : Nat := j * 65536 + k

/-- The canonical form: addresses strictly rising, no listed word equal to what an unlisted address reads as. -/
def Memory.wf : Memory → Bool
  | [] => true
  | (a, v) :: m => v != 0 && m.all (fun c => decide (a < c.1)) && Memory.wf m

/-- `MemRead(space, a, 1)` (R63). -/
def memRead : Memory → Nat → Word
  | [], _ => 0
  | (a, v) :: m, x => if a = x then v else memRead m x

/-- `MemWrite(space, a, 1, w)` (R63), keeping the canonical form. -/
def memWrite : Memory → Nat → Word → Memory
  | [], x, w => if w = 0 then [] else [(x, w)]
  | (a, v) :: m, x, w =>
    if x < a then (if w = 0 then (a, v) :: m else (x, w) :: (a, v) :: m)
    else if x = a then (if w = 0 then m else (x, w) :: m)
    else (a, v) :: memWrite m x w

/-- The cell at address `a` belongs to the data set of `nc` components with lengths `len`:
`j < NC`, `k < LEN[j]` (R60). -/
def cellActive (nc : Nat) (len : List Len) (a : Nat) : Bool :=
  decide (a / 65536 < nc) && decide (a % 65536 < (len.getD (a / 65536) 0).toNat)

/-- The bulk copy of REPLACE (spec/41_combiner.md R140): the words of `m` at the cells of the new data set, and no
other cell. -/
def memRestrict (nc : Nat) (len : List Len) (m : Memory) : Memory := m.filter fun c => cellActive nc len c.1

/-- The table words `words[k], words[k+1], …` of component `j`, zero words not listed. -/
def tableCells (j : Nat) : Nat → List Word → Memory
  | _, [] => []
  | k, w :: ws => if w = 0 then tableCells j (k + 1) ws else (tabAddr j k, w) :: tableCells j (k + 1) ws

/-- The memory that holds component tables `j`, `j+1`, … -/
def tablesMemory : Nat → List (List Word) → Memory
  | _, [] => []
  | j, t :: ts => tableCells j 0 t ++ tablesMemory (j + 1) ts

end Sys2Proof.Machine
end

