-- ==== Sys2Proof/Machine/Residue.lean ====
section
/-! DEFINITION. POW2MOD and the jump offsets of the combiner (spec/41_combiner.md R134). -/

namespace Sys2Proof.Machine

/-- POW2MOD (R134): `2^e mod L` by repeated doubling; `1 mod L` when `e = 0`. -/
def pow2Mod : Nat → Nat → Nat
  | 0, l => 1 % l
  | e + 1, l => (pow2Mod e l + pow2Mod e l) % l

/-- POW2MOD as a register value (R35, R41). -/
def offsetOf (e : Nat) (l : Len) : Idx := BitVec.ofNat 16 (pow2Mod e l.toNat)

/-- `OFFSUB` for lengths `len` (R134). -/
def subOffsets (c : Config) (len : List Len) : List Idx := len.map (offsetOf c.wExp)

/-- `OFFSTR` for lengths `len` (R134). -/
def strOffsets (c : Config) (len : List Len) : List Idx := len.map (offsetOf (c.wExp + c.vExp))

end Sys2Proof.Machine
end

