-- ==== Sys2Proof/Machine/T64.lean ====
section
/-! DEFINITION. Configuration T64, the one configuration the spec gives in full (spec/95_test_vectors.md section 2,
matrices in spec/97_t64_matrices.md). It is the configuration of `State.reset` (DESIGN CHOICE, log 2) and of the
tests; no statement about every state rests on it. -/

namespace Sys2Proof.Machine

def t64StepM0 : Matrix :=
  [[0x00000081, 0x00000000], [0x00000102, 0x00000000], [0x00000204, 0x00000000], [0x00000408, 0x00000000],
   [0x00000810, 0x00000000], [0x00001020, 0x00000000], [0x00002041, 0x00000000], [0x00004082, 0x00000000],
   [0x00008104, 0x00000000], [0x00010208, 0x00000000], [0x00020410, 0x00000000], [0x00040820, 0x00000000],
   [0x00081040, 0x00000000], [0x00102081, 0x00000000], [0x00204102, 0x00000000], [0x00408204, 0x00000000]]

def t64StepM1 : Matrix :=
  [[0x00810408, 0x00000000], [0x01020891, 0x00000000], [0x02041122, 0x00000000], [0x04082244, 0x00000000],
   [0x08104488, 0x00000000], [0x10208910, 0x00000000], [0x20411220, 0x00000000], [0x40822441, 0x00000000],
   [0x81044882, 0x00000000], [0x02089104, 0x00000001], [0x04112208, 0x00000002], [0x08224410, 0x00000004],
   [0x10448820, 0x00000008], [0x20891040, 0x00000010], [0x41122081, 0x00000020], [0x82244102, 0x00000040]]

def t64StepM2 : Matrix :=
  [[0x04488204, 0x00000081], [0x08910408, 0x00000102], [0x11220810, 0x00000204], [0x22441020, 0x00000408],
   [0x44882040, 0x00000810], [0x89104080, 0x00001020], [0x12208100, 0x00002041], [0x24410200, 0x00004082],
   [0x48820400, 0x00008104], [0x91040800, 0x00010208], [0x22081000, 0x00020411], [0x44102000, 0x00040822],
   [0x88204000, 0x00081044], [0x10408000, 0x00102089], [0x20810000, 0x00204112], [0x41020000, 0x00408224]]

def t64StepM3 : Matrix :=
  [[0x82040000, 0x00810448], [0x04080000, 0x01020891], [0x08100000, 0x02041122], [0x10200000, 0x04082244],
   [0x20400000, 0x08104488], [0x40800000, 0x10208910], [0x81000000, 0x20411220], [0x02000000, 0x40822441],
   [0x04000000, 0x81044882], [0x08000000, 0x02009104], [0x10000000, 0x04012208], [0x20000000, 0x08024410],
   [0x40000000, 0x10048820], [0x80000000, 0x20091040], [0x00000000, 0x40122081], [0x00000000, 0x80244102]]

/-- `STEP_M` of T64 (97_t64_matrices.md section 2). -/
def t64StepM : Matrix := t64StepM0 ++ t64StepM1 ++ t64StepM2 ++ t64StepM3

def t64JsubM0 : Matrix :=
  [[0x04480105, 0x01000881], [0x08904288, 0x02001102], [0x1100C591, 0x04002204], [0x0004198B, 0x08004000],
   [0x00083396, 0x10008000], [0x10102D3A, 0x20010008], [0x22049876, 0x40000410], [0x440930EC, 0x80000820],
   [0x883221D9, 0x00081040], [0x00448B22, 0x00102081], [0x028DD4C4, 0x00224502], [0x051BE98B, 0x00448A04],
   [0x2812413D, 0x00891000], [0x60059846, 0x01102000], [0xC00B700F, 0x02204000], [0x8036288C, 0x00082041]]

def t64JsubM1 : Matrix :=
  [[0x324989A5, 0x00104483], [0x40FAC0E0, 0x01228187], [0x91D5CBD4, 0x02450306], [0x338B5FB9, 0x048A060D],
   [0x7716B567, 0x09140C12], [0xEE2D2A4C, 0x12281824], [0x1E7C1E3D, 0x00000089], [0x2CD8B4E9, 0x00000112],
   [0x4991E140, 0x00000224], [0x93030004, 0x00000440], [0x14235A31, 0x00000C89], [0x2A4236E0, 0x00021D12],
   [0x54A4E5D1, 0x044C9A64], [0x363373BE, 0x20883087], [0x6C4665FA, 0x41106106], [0xD8AC8BF4, 0x8220C20C]]

def t64JsubM2 : Matrix :=
  [[0xB1595D7D, 0x00012451], [0x50B7A042, 0x00024CAB], [0xA34B8286, 0x00069D56], [0x56B7458E, 0x04459AED],
   [0x0D9BC302, 0x0000029D], [0x391214AE, 0x00000132], [0x7224295D, 0x00000264], [0xE448903D, 0x000004C0],
   [0xDA95E86F, 0x00020D89], [0xB52B184F, 0x044CBB53], [0xC709D23B, 0x208876E0], [0x2E00865B, 0x048B000C],
   [0x4C0146A1, 0x09160010], [0x980245D2, 0x1664A060], [0x6D58791C, 0x2088744E], [0xEA91A807, 0x4112E89C]]

def t64JsubM3 : Matrix :=
  [[0x0725103C, 0xA675E1F1], [0xA3154A4E, 0x60BA63E5], [0xB16876F7, 0x0C9522C7], [0x40F57FC5, 0x192A4187],
   [0x91CA7798, 0x3254830E], [0x23946DB5, 0x64A90615], [0x4728917E, 0xCD1AAC62], [0x9E5162FC, 0x9E75F884],
   [0x6C92B748, 0x5D28280C], [0x26384E75, 0x4A9021E1], [0x5C709CE9, 0x9168E382], [0x159E53E6, 0x0E806703],
   [0x3BFA056E, 0x5010148C], [0x67F4885A, 0xA4688950], [0x1DCF5085, 0x6C892268], [0x598BC397, 0xBC913995]]

/-- `JSUB_M` of T64 (97_t64_matrices.md section 3). -/
def t64JsubM : Matrix := t64JsubM0 ++ t64JsubM1 ++ t64JsubM2 ++ t64JsubM3

def t64JstrM0 : Matrix :=
  [[0x45976C8C, 0x6270BA65], [0x2637A0A4, 0xA8B8D7E1], [0x53BBE145, 0xE97F9091], [0xCF6E56D6, 0x01C0FA9C],
   [0xAAF20446, 0x6BC0E5C9], [0x4B24D0AE, 0x06C86107], [0x8B037308, 0x8E436CEE], [0x215FD35C, 0x38474E1D],
   [0x60B43E6C, 0x5C462D30], [0xAAF7F765, 0xBFF0D79D], [0x4C7BC6F3, 0xE07A3357], [0x5FA2D10B, 0xE06C7C4A],
   [0x7DCC7B7D, 0x64322513], [0x2B7756F6, 0x43E0646C], [0xC275BE0E, 0x8B110BF3], [0x0667CB47, 0xCA7DCD35]]

def t64JstrM1 : Matrix :=
  [[0xEC1B61EC, 0xF986AA21], [0xE96C2A7B, 0x56E7CA01], [0x249B81BB, 0x30C89C50], [0xAA866D56, 0x974B320C],
   [0xAADAC3EC, 0xAA108590], [0x9B91E8EC, 0x7C599F49], [0x0EAE5DD8, 0x685C828F], [0x6E3F70AB, 0x22D01339],
   [0x815628B6, 0xA26AD734], [0x97834785, 0xF24418C0], [0x69A5F0FC, 0x3E91470F], [0xCCDBE254, 0x5A81869D],
   [0xD8CF0A93, 0x31457148], [0xF59B25A9, 0x0AD56D1E], [0xCF9E7AE5, 0x714D24E3], [0x842EB4AE, 0xFE0D9A99]]

def t64JstrM2 : Matrix :=
  [[0x9ABF38AD, 0xAE0B6C40], [0x679C2E95, 0xE6E9EB9A], [0x751B6C79, 0x6AC09940], [0x5311AE26, 0xD6FDBCB9],
   [0x7063F576, 0xCCDBFEA8], [0x1FBD0BC0, 0xE1C2ACA0], [0x81D7524A, 0xC7CF9DA0], [0x05A7B066, 0x58ECD492],
   [0xC74EE869, 0xBEB5E6CC], [0xAED855F3, 0x526B1B7E], [0xA6133562, 0xBC11E71C], [0x76548F20, 0x5A2D464E],
   [0xC7AC2B54, 0xFECE5E6C], [0x8AEE1C65, 0x60963B42], [0x786CAD7D, 0x8AFA147D], [0xCE34EF27, 0x8F9A665A]]

def t64JstrM3 : Matrix :=
  [[0x7575F7C3, 0x5EE15372], [0xFB470627, 0x61E18262], [0x7CD96131, 0xB7B02090], [0xA032310D, 0x99DFB838],
   [0xD813F188, 0xF87AD285], [0x0DF2C407, 0x382B5C2A], [0x8F78BD14, 0x91BB8F2C], [0x6759E8F7, 0xE11D84E9],
   [0x7C78DAC9, 0x3916851D], [0xBDD476CB, 0x6FFF7F17], [0xA3C31734, 0x3D175CA0], [0x25301C59, 0xE7227DD1],
   [0x0C6A8E9A, 0xE1E56034], [0x4C86F19D, 0x920025D5], [0x32218069, 0xA81F8B7E], [0xD489C7FF, 0x6CBA4FE2]]

/-- `JSTR_M` of T64 (97_t64_matrices.md section 4). -/
def t64JstrM : Matrix := t64JstrM0 ++ t64JstrM1 ++ t64JstrM2 ++ t64JstrM3

/-- `OUT_M` of T64: row `i` has the single bit `i` set, so `BUF[0]` is word 0 of the new state. -/
def t64OutM : Matrix := (List.range 32).map fun i => [BitVec.twoPow 32 i, 0]

/-- The default tables of T64. -/
def t64Tables : List (List Word) :=
  [[0x6DB6DB6D, 0x00000000, 0xB6DB6DB6, 0x24924924, 0xDB6DB6DB, 0x49249249, 0x92492492],
   [0x66666666, 0xCCCCCCCC, 0x00000000, 0x99999999, 0x33333333],
   [0x55555555, 0xAAAAAAAA, 0x00000000]]

/-- Configuration T64. -/
def t64 : Config where
  r := 2
  b := 1
  stepM := t64StepM
  outM := t64OutM
  wExp := 3
  vExp := 2
  jsubM := t64JsubM
  jstrM := t64JstrM
  reservedLast := some 0x80000000
  ncMax := 4
  lMax := 8
  defNc := 3
  defLen := [7, 5, 3]
  defTab := t64Tables
  defPkgLin := [0x12345678, 0x9ABCDEF0]
  defPkgNl := [0, 0, 0]
  nInst := 4

/-- `OUT_M` of the variant T64/B2: the 64 x 64 identity. -/
def t64B2OutM : Matrix :=
  (List.range 32).map (fun i => [BitVec.twoPow 32 i, 0]) ++ (List.range 32).map (fun i => [0, BitVec.twoPow 32 i])

/-- The variant T64/B2: as T64 but `B = 2` and `OUT_M` the identity. -/
def t64B2 : Config := { t64 with b := 2, outM := t64B2OutM }

end Sys2Proof.Machine
end

