-- ==== Sys2Proof/Machine/State.lean ====
section
/-! DEFINITION. The state of SSJ-CORE as plain data (spec/10_state.md R20 to R36), its reset (R40), the response record
(spec/30_encoding.md R82), and the reasons a step can stop. -/

namespace Sys2Proof.Machine

/-- The response record `(ST, RZ, RU, RF)` (R82). -/
structure Response where
  /-- `ST`, the status code. -/
  st : BitVec 8
  /-- `RZ`, the word result. -/
  rz : Word
  /-- `RU`, the unsigned numerator of NEXTU. -/
  ru : BitVec 33
  /-- `RF`, the binary64 pattern of NEXTU. -/
  rf : BitVec 64
  deriving DecidableEq, Repr

/-- One instance context (R23 to R27). -/
structure Context where
  /-- `VALID[i]` (R23). -/
  valid : Bool
  /-- `STR_LIN[i]` (R24). -/
  strLin : Vec
  /-- `STR_NL[i]` (R24). -/
  strNl : List Idx
  /-- `SUB_LIN[i]` (R25). -/
  subLin : Vec
  /-- `SUB_NL[i]` (R25). -/
  subNl : List Idx
  /-- `CUR_LIN[i]` (R26). -/
  curLin : Vec
  /-- `CUR_NL[i]` (R26). -/
  curNl : List Idx
  /-- `BUF[i]` (R27). -/
  buf : Vec
  /-- `BUFCUR[i]` (R27); `B` means exhausted. -/
  bufCur : Nat
  deriving DecidableEq, Repr

/-- The state (R20), the configuration it is interpreted under (log 1) and the two streams of the command port (log 3). -/
structure State where
  /-- `CFG`, constants that no command writes (spec/00_scope.md R7, R37). The model's own field (log 1). -/
  cfg : Config
  /-- `PKG_LIN` (R21). -/
  pkgLin : Vec
  /-- `PKG_NL` (R22). -/
  pkgNl : List Idx
  /-- The `N_INST` instance contexts (R23). -/
  insts : List Context
  /-- `INST_EXISTS` (R30). -/
  instExists : Bool
  /-- `LASTERR` (R31). -/
  lastErr : BitVec 8
  /-- `SB` (R32). -/
  sb : Vec
  /-- `SCNT` (R32); `SB_DEPTH + 1` means overflowed. -/
  scnt : Nat
  /-- `NC` (R33). -/
  nc : Nat
  /-- `LEN` (R33). -/
  len : List Len
  /-- `TAB` (R34). -/
  tab : Memory
  /-- `OFFSUB` (R35). -/
  offSub : List Idx
  /-- `OFFSTR` (R35). -/
  offStr : List Idx
  /-- `SH_NC` (R36). -/
  shNc : Nat
  /-- `SH_LEN` (R36). -/
  shLen : List Len
  /-- `SH_TAB` (R36). -/
  shTab : Memory
  /-- The commands the host has still to present, oldest first. The model's own field (log 3). -/
  port : List Command
  /-- The responses given so far, oldest first. The model's own field (log 3). -/
  out : List Response
  deriving DecidableEq, Repr

/-- Why a step can stop with a fault. The block itself has no such stop: an error is a response with a status
(spec/60_exceptions.md R220). No state that satisfies R39 reaches either fault (log 8). -/
inductive Fault where
  /-- CURRENTVALUE would read a cell of TAB that does not exist (`j >= NC` or `k >= LEN[j]`, spec/20_memory.md R60).
  Raised by NEXTU and NEXTW; safe: the block never gets there (R39(b)). -/
  | absentTableCell
  /-- NEXTWORD would read a word of BUF that does not exist (`BUFCUR` outside the buffer after STEP).
  Raised by NEXTU and NEXTW; safe: the block never gets there (R39(c)). -/
  | absentBufferWord
  deriving DecidableEq, Repr

/-- Why a step can refuse. -/
inductive Refusal where
  /-- The instruction has no meaning yet. Raised by `exec` alone; safe. No arm of `exec` uses it. -/
  | notModelled (mnemonic : String)
  deriving DecidableEq, Repr

/-- A context after reset: not valid; every other register is unspecified and unreadable (R40), held as zeros
(DESIGN CHOICE, log 5). -/
def Context.reset (c : Config) : Context where
  valid := false
  strLin := List.replicate c.r 0
  strNl := List.replicate c.defNc 0
  subLin := List.replicate c.r 0
  subNl := List.replicate c.defNc 0
  curLin := List.replicate c.r 0
  curNl := List.replicate c.defNc 0
  buf := List.replicate c.b 0
  bufCur := 0

/-- `DEF_LEN` as length registers. -/
def defaultLengths (c : Config) : List Len := c.defLen.map (BitVec.ofNat 17)

/-- The state after the reset event in configuration `c` (R40; spec/70_reset_and_hazards.md R250, R251). The words of
`SB` are unspecified and unread (DESIGN CHOICE zeros, log 6). -/
def State.resetOf (c : Config) : State where
  cfg := c
  pkgLin := c.defPkgLin
  pkgNl := c.defPkgNl.map (BitVec.ofNat 16)
  insts := List.replicate c.nInst (Context.reset c)
  instExists := false
  lastErr := 0
  sb := List.replicate c.sbDepth 0
  scnt := 0
  nc := c.defNc
  len := defaultLengths c
  tab := tablesMemory 0 c.defTab
  offSub := subOffsets c (defaultLengths c)
  offStr := strOffsets c (defaultLengths c)
  shNc := c.defNc
  shLen := defaultLengths c ++ List.replicate (c.ncMax - c.defNc) 1
  shTab := tablesMemory 0 c.defTab
  port := []
  out := []

/-- The machine right after reset, in configuration T64 (DESIGN CHOICE, log 2). -/
def State.reset : State := State.resetOf t64

end Sys2Proof.Machine
end

