-- ==== Sys2Proof/Machine/Ops.lean ====
section
/-! DEFINITION. The named operations every command is built from: ending a command with a response, raising an error
(the block's whole "exception entry", spec/60_exceptions.md R220, R228), writing a context, the command port. -/

namespace Sys2Proof.Machine

/-- What a meaning answers. -/
abbrev Result := Host.Outcome State Fault Refusal

/-! ## Ending a command -/

/-- `respond(ST, RZ, RU, RF)` (spec/00_scope.md R13; spec/30_encoding.md R82): one response record to the host. -/
def respond (r : Response) (s : State) : State := { s with out := s.out ++ [r] }

/-- The response of a command that returns no data (R82). -/
def okResponse : Response := ⟨0, 0, 0, 0⟩

/-- The response of a readout command. -/
def wordResponse (v : Word) : Response := ⟨0, v, 0, 0⟩

/-- The response of a failed command: its status, data fields 0 (R82). -/
def errorResponse (code : BitVec 8) : Response := ⟨code, 0, 0, 0⟩

/-- `respond(0, 0, 0, 0)`. -/
def finish (s : State) : Result := .next (respond okResponse s)

/-- `respond(0, v, 0, 0)`. -/
def finishWord (v : Word) (s : State) : Result := .next (respond (wordResponse v) s)

/-! ## Errors -/

/-- The error kinds of R221. -/
inductive ErrorKind where
  | invalidSeed
  | invalidArgument
  | illegalState
  | illegalCmd
  | badInstance
  deriving DecidableEq, Repr

/-- The status codes (R221). -/
def errorCode : ErrorKind → BitVec 8
  | .invalidSeed => 1
  | .invalidArgument => 2
  | .illegalState => 3
  | .illegalCmd => 4
  | .badInstance => 5

/-- What the block does on an error (R228): `LASTERR <- code; respond(code, 0, 0, 0)` and nothing else. There is no
return from it: the next command is accepted as after any other (R229). -/
def raiseError (e : ErrorKind) (s : State) : State :=
  respond (errorResponse (errorCode e)) { s with lastErr := errorCode e }

/-- End the command with an error. -/
def fail (e : ErrorKind) (s : State) : Result := .next (raiseError e s)

/-! ## Contexts -/

/-- Write instance context `i`. -/
def setContext (i : BitVec 8) (c : Context) (s : State) : State := { s with insts := s.insts.set i.toNat c }

/-! ## The command port -/

/-- Take the command the host presents next, if there is one (spec/20_memory.md R66). -/
def takeCommand (s : State) : Option (Command × State) :=
  match s.port with
  | [] => none
  | c :: rest => some (c, { s with port := rest })

/-- Present command `c` next. -/
def presentCommand (c : Command) (s : State) : State := { s with port := c :: s.port }

/-- The reset event (spec/70_reset_and_hazards.md R250, R251): every element takes its reset value; the host's two
streams are not the block's and stay. -/
def resetEvent (s : State) : State := { State.resetOf s.cfg with port := s.port, out := s.out }

end Sys2Proof.Machine
end

