-- ==== Sys2Proof/Machine/Operands.lean ====
section
/-! DEFINITION. The operand forms of spec/30_encoding.md R87 and the register banks and table cells they select
(spec/20_memory.md R60, R62). Every field is zero-extended; an element beyond the end of a bank, which no state that
satisfies R39 has a command read, reads 0 (log 14). -/

namespace Sys2Proof.Machine

/-- Element `j` of an index bank. -/
def idxAt (a : List Idx) (j : Nat) : Idx := a.getD j 0

/-- Element `j` of a length bank. -/
def lenAt (a : List Len) (j : Nat) : Len := a.getD j 0

/-- Element `k` of a vector. -/
def wordAt (v : Vec) (k : Nat) : Word := v.getD k 0

/-- Instance operand of CONSTRUCT and destination of CLONE: context `i` with `i < N_INST` (R87, R226). -/
def contextAt (s : State) (i : BitVec 8) : Option Context :=
  if i.toNat < s.cfg.nInst then s.insts[i.toNat]? else none

/-- Instance operand of every other command: a context with `VALID[i] = 1` (R226). -/
def validContext (s : State) (i : BitVec 8) : Option Context :=
  match contextAt s i with
  | none => none
  | some c => if c.valid then some c else none

/-- Run `body` on the valid context `i`, or fail with BAD_INSTANCE (R226, R227 line 3). -/
def withContext (i : BitVec 8) (s : State) (body : Context → Result) : Result :=
  match validContext s i with
  | none => fail .badInstance s
  | some c => body c

/-- `MemRead(TAB, (j, k), 1)`; `none` where the cell does not exist (R60, R62). -/
def tabCell (s : State) (j k : Nat) : Option Word :=
  if j < s.nc ∧ k < (lenAt s.len j).toNat then some (memRead s.tab (tabAddr j k)) else none

/-- The register set a readout selects, linear and nonlinear part (R14, R201, R202): the package bank at level PKG,
else a level of the valid context `i`; `none` where R226 refuses the instance. -/
def levelBank (lvl : Level) (i : BitVec 8) (s : State) : Option (Vec × List Idx) :=
  match lvl with
  | .pkg => some (s.pkgLin, s.pkgNl)
  | .str => (validContext s i).map fun c => (c.strLin, c.strNl)
  | .sub => (validContext s i).map fun c => (c.subLin, c.subNl)
  | .cur => (validContext s i).map fun c => (c.curLin, c.curNl)

/-- Run `body` on the register set a readout selects: the reserved instance operand at level PKG is status 4, a bad
instance status 5 (R227 lines 2 and 3; log 13). -/
def withLevelBank (lvl : Level) (i : BitVec 8) (s : State) (body : Vec × List Idx → Result) : Result :=
  if levelOperandOk lvl i = false then fail .illegalCmd s
  else
    match levelBank lvl i s with
    | none => fail .badInstance s
    | some bank => body bank

/-- The staged sequence as a linear seed, `SB[0 .. R-1]` (R197). -/
def stagedVector (s : State) : Vec := s.sb.take s.cfg.r

/-- `SB[j] >= LEN[j]` for some `j < NC` (R198; unsigned compare, R87). -/
def stagedOutOfRange (s : State) : Bool :=
  (List.range s.nc).any fun j => decide ((lenAt s.len j).toNat ≤ (wordAt s.sb j).toNat)

/-- The staged sequence as a nonlinear seed, `SB[0 .. NC-1]` (R198). -/
def stagedIndices (s : State) : List Idx := (List.range s.nc).map fun j => (wordAt s.sb j).setWidth 16

/-- The item that RDCFG selects by group and item; `none` where R204 gives none. -/
def configItem (s : State) (g t : BitVec 8) : Option Word :=
  match g.toNat with
  | 0 =>
    match t.toNat with
    | 0 => some (BitVec.ofNat 32 s.cfg.r)
    | 1 => some (BitVec.ofNat 32 s.cfg.b)
    | 2 => some (BitVec.ofNat 32 s.nc)
    | 3 => some (BitVec.ofNat 32 s.cfg.wExp)
    | 4 => some (BitVec.ofNat 32 s.cfg.vExp)
    | 5 => some (BitVec.ofNat 32 s.cfg.nInst)
    | 6 => some (BitVec.ofNat 32 s.cfg.ncMax)
    | 7 => some (BitVec.ofNat 32 s.cfg.lMax)
    | 8 => some (BitVec.ofNat 32 s.cfg.sbDepth)
    | 9 => some (BitVec.ofNat 32 s.shNc)
    | _ => none
  | 1 => if t.toNat < s.nc then some ((lenAt s.len t.toNat).setWidth 32) else none
  | 2 => if t.toNat < s.nc then some ((idxAt s.offSub t.toNat).setWidth 32) else none
  | 3 => if t.toNat < s.nc then some ((idxAt s.offStr t.toNat).setWidth 32) else none
  | 4 => if t.toNat < s.cfg.ncMax then some ((lenAt s.shLen t.toNat).setWidth 32) else none
  | _ => none

end Sys2Proof.Machine
end

