-- ==== Sys2Proof/Machine/Backbone.lean ====
section
/-! DEFINITION. The micro-operations of the linear backbone that touch state: STEP, NEXTWORD, JUMP
(spec/40_backbone.md R101 to R104). -/

namespace Sys2Proof.Machine

/-- The two gaps: `kind` of NLJUMP and `op` of JUMP (R103, R133). -/
inductive Gap where
  | sub
  | str
  deriving DecidableEq, Repr

/-- STEP (R101): one transition, the buffer refilled from the new state, the buffer cursor reset. -/
def stepBackbone (g : Config) (c : Context) : Context :=
  { c with
    curLin := matvec g.stepM c.curLin
    buf := matvec g.outM (matvec g.stepM c.curLin)
    bufCur := 0 }

/-- The first line of NEXTWORD (R102): STEP exactly when the buffer is exhausted. -/
def refillBuffer (g : Config) (c : Context) : Context := if c.bufCur = g.b then stepBackbone g c else c

/-- NEXTWORD (R102): the next buffered word and the context after it; `none` where that word does not exist. -/
def nextWord (g : Config) (c : Context) : Option (Word × Context) :=
  match (refillBuffer g c).buf[(refillBuffer g c).bufCur]? with
  | none => none
  | some w => some (w, { refillBuffer g c with bufCur := (refillBuffer g c).bufCur + 1 })

/-- The operator of the jump ROM for a gap (R103). -/
def jumpMatrix (g : Config) : Gap → Matrix
  | .sub => g.jsubM
  | .str => g.jstrM

/-- JUMP (R103). -/
def jump (g : Config) (k : Gap) (x : Vec) : Vec := matvec (jumpMatrix g k) x

end Sys2Proof.Machine
end

