-- ==== Sys2Proof/Machine/Combiner.lean ====
section
/-! DEFINITION. The micro-operations of the nonlinear combiner: ADVANCEONE, CURRENTVALUE, NLJUMP
(spec/41_combiner.md R131 to R133). POW2MOD is in Machine/Residue.lean. -/

namespace Sys2Proof.Machine

/-- One component's cyclic increment (R131): wraps to 0 at `LEN - 1`. -/
def advanceIndex (l : Len) (a : Idx) : Idx := if a.toNat = l.toNat - 1 then 0 else a + 1

/-- ADVANCEONE (R131) on an index vector. -/
def advanceOne (s : State) (a : List Idx) : List Idx :=
  (List.range s.nc).map fun j => advanceIndex (lenAt s.len j) (idxAt a j)

/-- The sum modulo 2^32 of the words the indices address in components `0 .. n-1`; `none` if a cell is absent. -/
def sumCells (s : State) (a : List Idx) : Nat → Option Word
  | 0 => some 0
  | j + 1 =>
    match sumCells s a j, tabCell s j (idxAt a j).toNat with
    | some c, some w => some (c + w)
    | _, _ => none

/-- CURRENTVALUE (R132). -/
def currentValue (s : State) (a : List Idx) : Option Word := sumCells s a s.nc

/-- The offsets of a gap (R133). -/
def offsetBank (s : State) : Gap → List Idx
  | .sub => s.offSub
  | .str => s.offStr

/-- One component's jump (R133): `(a + off) mod LEN`. -/
def jumpIndex (l : Len) (off a : Idx) : Idx := BitVec.ofNat 16 ((a.toNat + off.toNat) % l.toNat)

/-- NLJUMP (R133), reduced at every application (spec/90_conflicts.md C4). -/
def nlJump (s : State) (k : Gap) (a : List Idx) : List Idx :=
  (List.range s.nc).map fun j => jumpIndex (lenAt s.len j) (idxAt (offsetBank s k) j) (idxAt a j)

end Sys2Proof.Machine
end

