-- ==== Sys2Proof/Machine/Mixer.lean ====
section
/-! DEFINITION. The micro-operations of the mixer: MIX, UNSIGN, NORMALISE (spec/43_mixer.md R180 to R182). -/

namespace Sys2Proof.Machine

/-- MIX (R180): advance the combiner, read it at the advanced indices, read one backbone word, XOR. Answers the mixed
word and the context after it. -/
def mix (s : State) (c : Context) : Except Fault (Word × Context) :=
  match currentValue s (advanceOne s c.curNl) with
  | none => .error .absentTableCell
  | some v =>
    match nextWord s.cfg { c with curNl := advanceOne s c.curNl } with
    | none => .error .absentBufferWord
    | some (b, c') => .ok (v ^^^ b, c')

/-- UNSIGN (R181): the signed reading, plus 2^32 when it is not positive. -/
def unsign (z : Word) : Nat := (if z.toInt ≤ 0 then z.toInt + 2 ^ 32 else z.toInt).toNat

/-- The numerator of `u * NORMC`: `N = u * (2^32 - 1)`, the real value being `N / 2^64` (R182). -/
def normNumerator (u : Nat) : Nat := u * (2 ^ 32 - 1)

/-- The rounding of R182: `N` as `q * 2^sh` with `q` of at most 53 bits, to nearest, ties to even. -/
def roundTo53 (n : Nat) : Nat × Int :=
  let p := Nat.log2 n + 1
  if p ≤ 53 then (n, 0)
  else
    let sh := p - 53
    let q := n >>> sh
    let rem := n % 2 ^ sh
    let half := 2 ^ (sh - 1)
    let q := if half < rem ∨ (rem = half ∧ q % 2 = 1) then q + 1 else q
    if q = 2 ^ 53 then (2 ^ 52, (sh : Int) + 1) else (q, (sh : Int))

/-- The loop of R182: double `q` until it reaches `2^52`, at most `fuel` times. -/
def scaleUp : Nat → Nat × Int → Nat × Int
  | 0, x => x
  | fuel + 1, (q, sh) => if q < 2 ^ 52 then scaleUp fuel (2 * q, sh - 1) else (q, sh)

/-- Significand and scale of the rounded product: the value is `q * 2^(sh - 64)` with `2^52 <= q < 2^53`. -/
def normParts (u : Nat) : Nat × Int := scaleUp 52 (roundTo53 (normNumerator u))

/-- The binary64 pattern of `q * 2^(sh - 64)` (R182): sign 0, biased exponent, fraction. -/
def packBinary64 (q : Nat) (sh : Int) : BitVec 64 :=
  BitVec.ofNat 64 (((52 + sh - 64) + 1023).toNat * 2 ^ 52 + (q - 2 ^ 52))

/-- NORMALISE (R182): the binary64 encoding of `u * NORMC` rounded once. -/
def normalise (u : Nat) : BitVec 64 := packBinary64 (normParts u).1 (normParts u).2

end Sys2Proof.Machine
end

