-- ==== Sys2Proof/Machine/Generation.lean ====
section
/-! DEFINITION. The generation commands NEXTU and NEXTW (spec/43_mixer.md R183, R184). -/

namespace Sys2Proof.Machine

/-- The advance both commands share: MIX on the valid context `i`, then the response made of the mixed word. -/
def drawWith (resp : Word → Response) (i : BitVec 8) (s : State) : Result :=
  withContext i s fun c =>
    match mix s c with
    | .error f => .fault f
    | .ok (z, c') => .next (respond (resp z) (setContext i c' s))

/-- The response of NEXTU: the draw as raw word, exact numerator and binary64 pattern (R183). -/
def nextuResponse (z : Word) : Response := ⟨0, z, BitVec.ofNat 33 (unsign z), normalise (unsign z)⟩

/-- NEXTU (R183). -/
def execNextu (i : BitVec 8) (s : State) : Result := drawWith nextuResponse i s

/-- NEXTW (R184). -/
def execNextw (i : BitVec 8) (s : State) : Result := drawWith wordResponse i s

end Sys2Proof.Machine
end

