-- ==== Sys2Proof/Machine/Flags.lean ====
section
/-! DEFINITION. Flags and status (spec/10_state.md R30, R31). There are no arithmetic condition codes; the one
architectural flag is INST_EXISTS, and RDSTAT returns it with SCNT and LASTERR. -/

namespace Sys2Proof.Machine

/-- A bit as a word. -/
def bitWord (p : Bool) : Word := if p then 1 else 0

/-- `INST_EXISTS <- 1` (R30); only CONSTRUCT does it. -/
def markInstExists (s : State) : State := { s with instExists := true }

/-- The word of RDSTAT (spec/44_seed_and_readout.md R205): `(SCNT << 16) | (INST_EXISTS << 8) | LASTERR`. -/
def statusWord (s : State) : Word :=
  (BitVec.ofNat 32 s.scnt <<< 16) ||| (bitWord s.instExists <<< 8) ||| s.lastErr.setWidth 32

end Sys2Proof.Machine
end

