-- ==== Sys2Proof/Machine/Readout.lean ====
section
/-! DEFINITION. The readout commands: RDLIN, RDNL, RDTAB, RDCFG, RDSTAT (spec/44_seed_and_readout.md R201 to R205). -/

namespace Sys2Proof.Machine

/-- RDLIN (R201). -/
def execRdlin (lvl : Level) (i k : BitVec 8) (s : State) : Result :=
  withLevelBank lvl i s fun bank =>
    if k.toNat < s.cfg.r then finishWord (wordAt bank.1 k.toNat) s else fail .invalidArgument s

/-- RDNL (R202). -/
def execRdnl (lvl : Level) (i j : BitVec 8) (s : State) : Result :=
  withLevelBank lvl i s fun bank =>
    if j.toNat < s.nc then finishWord ((idxAt bank.2 j.toNat).setWidth 32) s else fail .invalidArgument s

/-- RDTAB (R203): the active table, not the shadow. -/
def execRdtab (j : BitVec 8) (k : BitVec 16) (s : State) : Result :=
  match tabCell s j.toNat k.toNat with
  | none => fail .invalidArgument s
  | some w => finishWord w s

/-- RDCFG (R204). -/
def execRdcfg (g t : BitVec 8) (s : State) : Result :=
  match configItem s g t with
  | none => fail .invalidArgument s
  | some v => finishWord v s

/-- RDSTAT (R205). -/
def execRdstat (s : State) : Result := finishWord (statusWord s) s

end Sys2Proof.Machine
end

