-- ==== Sys2Proof/Machine/Stream.lean ====
section
/-! DEFINITION. The stream manager: CONSTRUCT, RSTSTREAM, RSTSUB, NEXTSUB, CLONE (spec/42_stream_manager.md). -/

namespace Sys2Proof.Machine

/-- RSTSUB's body (R163): live cursor from the substream origin, output buffer invalidated. -/
def restartSubstream (g : Config) (c : Context) : Context :=
  { c with curLin := c.subLin, curNl := c.subNl, bufCur := g.b }

/-- RSTSTREAM's body (R162): substream origin from the stream origin, then RSTSUB's body. -/
def restartStream (g : Config) (c : Context) : Context :=
  restartSubstream g { c with subLin := c.strLin, subNl := c.strNl }

/-- The package origin advanced by the stream gap, both sub-generators in lockstep (R160, R161). -/
def advancePackage (s : State) : State :=
  { s with pkgLin := jump s.cfg .str s.pkgLin, pkgNl := nlJump s .str s.pkgNl }

/-- The substream origin advanced by the substream gap, both sub-generators in lockstep (R160, R164). -/
def advanceSubstream (s : State) (c : Context) : Context :=
  { c with subLin := jump s.cfg .sub c.subLin, subNl := nlJump s .sub c.subNl }

/-- The context CONSTRUCT leaves (R161): stream origin from the package origin before its advance, valid, at the start
of its first substream. -/
def constructedContext (s : State) (c : Context) : Context :=
  restartStream s.cfg { c with valid := true, strLin := s.pkgLin, strNl := s.pkgNl }

/-- CONSTRUCT (R161). -/
def execConstruct (i : BitVec 8) (s : State) : Result :=
  match contextAt s i with
  | none => fail .badInstance s
  | some c => finish (setContext i (constructedContext s c) (markInstExists (advancePackage s)))

/-- RSTSTREAM (R162). -/
def execRststream (i : BitVec 8) (s : State) : Result :=
  withContext i s fun c => finish (setContext i (restartStream s.cfg c) s)

/-- RSTSUB (R163). -/
def execRstsub (i : BitVec 8) (s : State) : Result :=
  withContext i s fun c => finish (setContext i (restartSubstream s.cfg c) s)

/-- NEXTSUB (R164): jump from the substream origin, then RSTSUB's body. -/
def execNextsub (i : BitVec 8) (s : State) : Result :=
  withContext i s fun c => finish (setContext i (restartSubstream s.cfg (advanceSubstream s c)) s)

/-- CLONE (R165): destination `d`, source `src`; `d = src` changes nothing. -/
def execClone (d src : BitVec 8) (s : State) : Result :=
  match contextAt s d, validContext s src with
  | some _, some c => finish (if d = src then s else setContext d { c with valid := true } s)
  | _, _ => fail .badInstance s

end Sys2Proof.Machine
end

