-- ==== Sys2Proof/Machine/Seeds.lean ====
section
/-! DEFINITION. The seed commands: SBCLR, SBPUSH, SETPKGL, SETPKGN, SETSEEDL, SETSEEDN
(spec/44_seed_and_readout.md R195 to R200). -/

namespace Sys2Proof.Machine

/-- `SCNT <- 0`. -/
def clearStaging (s : State) : State := { s with scnt := 0 }

/-- SBPUSH's effect (R196): append, or record the overflow and drop the word. -/
def pushStaging (w : Word) (s : State) : State :=
  if s.cfg.sbDepth ≤ s.scnt then { s with scnt := s.cfg.sbDepth + 1 }
  else { s with sb := s.sb.set s.scnt w, scnt := s.scnt + 1 }

/-- Run `body` on the staged linear seed: wrong length is status 2, VERIFYSEED failing is status 1
(R197, R199; R227 lines 5 and 6). -/
def withLinearSeed (s : State) (body : Vec → Result) : Result :=
  if s.scnt ≠ s.cfg.r then fail .invalidArgument s
  else if verifySeed s.cfg (stagedVector s) = false then fail .invalidSeed s
  else body (stagedVector s)

/-- Run `body` on the staged nonlinear seed: wrong length or an entry out of range is status 2
(R198, R200; R227 lines 5 and 6). -/
def withNonlinearSeed (s : State) (body : List Idx → Result) : Result :=
  if s.scnt ≠ s.nc then fail .invalidArgument s
  else if stagedOutOfRange s = true then fail .invalidArgument s
  else body (stagedIndices s)

/-- SBCLR (R195). -/
def execSbclr (s : State) : Result := finish (clearStaging s)

/-- SBPUSH (R196). -/
def execSbpush (w : Word) (s : State) : Result := finish (pushStaging w s)

/-- SETPKGL (R197). -/
def execSetpkgl (s : State) : Result :=
  withLinearSeed s fun x => finish { clearStaging s with pkgLin := x }

/-- SETPKGN (R198). -/
def execSetpkgn (s : State) : Result :=
  withNonlinearSeed s fun a => finish { clearStaging s with pkgNl := a }

/-- SETSEEDL (R199): the stream origin, then RSTSTREAM's body. -/
def execSetseedl (i : BitVec 8) (s : State) : Result :=
  withContext i s fun c =>
    withLinearSeed s fun x => finish (setContext i (restartStream s.cfg { c with strLin := x }) (clearStaging s))

/-- SETSEEDN (R200): the stream origin, then RSTSTREAM's body. -/
def execSetseedn (i : BitVec 8) (s : State) : Result :=
  withContext i s fun c =>
    withNonlinearSeed s fun a => finish (setContext i (restartStream s.cfg { c with strNl := a }) (clearStaging s))

end Sys2Proof.Machine
end

