-- ==== Sys2Proof/Machine/Tables.lean ====
section
/-! DEFINITION. The table commands: TBCNT, TBLEN, TBWR, REPLACE (spec/41_combiner.md R137 to R140). -/

namespace Sys2Proof.Machine

/-- TBCNT (R137). -/
def execTbcnt (count : Word) (s : State) : Result :=
  if 1 ≤ count.toNat ∧ count.toNat ≤ s.cfg.ncMax then finish { s with shNc := count.toNat }
  else fail .invalidArgument s

/-- TBLEN (R138). -/
def execTblen (j : BitVec 8) (length : Word) (s : State) : Result :=
  if j.toNat < s.cfg.ncMax ∧ 1 ≤ length.toNat ∧ length.toNat ≤ s.cfg.lMax then
    finish { s with shLen := s.shLen.set j.toNat (length.setWidth 17) }
  else fail .invalidArgument s

/-- TBWR (R139): the index is checked against the capacity, not against `SH_LEN[j]`. -/
def execTbwr (j : BitVec 8) (k : BitVec 16) (w : Word) (s : State) : Result :=
  if j.toNat < s.cfg.ncMax ∧ k.toNat < s.cfg.lMax then
    finish { s with shTab := memWrite s.shTab (tabAddr j.toNat k.toNat) w }
  else fail .invalidArgument s

/-- The lengths REPLACE installs: `SH_LEN[0 .. SH_NC-1]`. -/
def shadowLengths (s : State) : List Len := s.shLen.take s.shNc

/-- The data set of REPLACE (R140): count, lengths, tables, recomputed offsets, package origin of the combiner zeroed. -/
def installShadow (s : State) : State :=
  { s with
    nc := s.shNc
    len := shadowLengths s
    tab := memRestrict s.shNc (shadowLengths s) s.shTab
    offSub := subOffsets s.cfg (shadowLengths s)
    offStr := strOffsets s.cfg (shadowLengths s)
    pkgNl := List.replicate s.shNc 0 }

/-- REPLACE (R140): locked once an instance exists (R224). -/
def execReplace (s : State) : Result :=
  if s.instExists = true then fail .illegalState s else finish (installShadow s)

end Sys2Proof.Machine
end

