-- ==== Sys2Proof/Machine/Dispatch.lean ====
section
/-! DEFINITION. One arm per command (spec/30_encoding.md R83). -/

namespace Sys2Proof.Machine

def exec (i : Instr) (s : State) : Host.Outcome State Fault Refusal :=
  match i with
  | .nextu a => Sys2Proof.Machine.execNextu a s
  | .nextw a => Sys2Proof.Machine.execNextw a s
  | .construct a => Sys2Proof.Machine.execConstruct a s
  | .rststream a => Sys2Proof.Machine.execRststream a s
  | .rstsub a => Sys2Proof.Machine.execRstsub a s
  | .nextsub a => Sys2Proof.Machine.execNextsub a s
  | .clone d src => Sys2Proof.Machine.execClone d src s
  | .sbclr => Sys2Proof.Machine.execSbclr s
  | .sbpush w => Sys2Proof.Machine.execSbpush w s
  | .setpkgl => Sys2Proof.Machine.execSetpkgl s
  | .setpkgn => Sys2Proof.Machine.execSetpkgn s
  | .setseedl a => Sys2Proof.Machine.execSetseedl a s
  | .setseedn a => Sys2Proof.Machine.execSetseedn a s
  | .tbcnt count => Sys2Proof.Machine.execTbcnt count s
  | .tblen j length => Sys2Proof.Machine.execTblen j length s
  | .tbwr j k w => Sys2Proof.Machine.execTbwr j k w s
  | .replace => Sys2Proof.Machine.execReplace s
  | .rdlin lvl a k => Sys2Proof.Machine.execRdlin lvl a k s
  | .rdnl lvl a j => Sys2Proof.Machine.execRdnl lvl a j s
  | .rdtab j k => Sys2Proof.Machine.execRdtab j k s
  | .rdcfg g t => Sys2Proof.Machine.execRdcfg g t s
  | .rdstat => Sys2Proof.Machine.execRdstat s

end Sys2Proof.Machine
end

