-- ==== Sys2Proof/Machine/Step.lean ====
section
/-! DEFINITION. One step: take the command the host presents next, decode it, run it (spec/20_memory.md R63, R66). -/

namespace Sys2Proof.Machine

/-- One step. With no command presented the block waits (spec/70_reset_and_hazards.md R251; DEDUCED, log 4). A command
the decoder rejects ends with status 4 (spec/30_encoding.md R84, R85). -/
def step (s : State) : Host.Outcome State Fault Refusal :=
  match takeCommand s with
  | none => .next s
  | some (c, s') =>
    match decode c with
    | .ok i => exec i s'
    | .error _ => fail .illegalCmd s'

/-- `s` with the command whose table word is `w` presented next (log 3, log 9). -/
def State.withFetchWord (s : State) (nbits w : Nat) : State := presentCommand (commandOfTableWord nbits w) s

end Sys2Proof.Machine
end

