-- ==== Sys2Proof/Machine/HostSide.lean ====
section
/-! DEFINITION. What the spec describes on the host's side of the command port: assembler text and pseudo-commands
(spec/30_encoding.md R88, R89), the state dump (spec/60_exceptions.md R233) and table construction
(spec/41_combiner.md R141, R142). The block never sees any of it; no step calls it. -/

namespace Sys2Proof.Machine

/-! ## Pseudo-commands (R89) -/

/-- `LOADSEED`. -/
def loadSeed (ws : List Word) : List Instr := .sbclr :: ws.map .sbpush

/-- `SETPKG_LIN`. -/
def setPkgLin (ws : List Word) : List Instr := loadSeed ws ++ [.setpkgl]

/-- `SETPKG_NL`. -/
def setPkgNl (ws : List Word) : List Instr := loadSeed ws ++ [.setpkgn]

/-- `SETSEED_LIN`. -/
def setSeedLin (i : BitVec 8) (ws : List Word) : List Instr := loadSeed ws ++ [.setseedl i]

/-- `SETSEED_NL`. -/
def setSeedNl (i : BitVec 8) (ws : List Word) : List Instr := loadSeed ws ++ [.setseedn i]

/-- The TBWR commands of `LOADTABLE` from index `k` on. -/
def tableWrites (j : BitVec 8) : Nat → List Word → List Instr
  | _, [] => []
  | k, w :: ws => .tbwr j (BitVec.ofNat 16 k) w :: tableWrites j (k + 1) ws

/-- `LOADTABLE`. -/
def loadTable (j : BitVec 8) (ws : List Word) : List Instr :=
  .tblen j (BitVec.ofNat 32 ws.length) :: tableWrites j 0 ws

/-- The readout commands that render the state dump of instance `i` (R233): the live cursor of both sub-generators. -/
def stateDump (s : State) (i : BitVec 8) : List Instr :=
  (List.range s.cfg.r).map (fun k => .rdlin .cur i (BitVec.ofNat 8 k)) ++
    (List.range s.nc).map (fun j => .rdnl .cur i (BitVec.ofNat 8 j))

/-! ## Table construction (R141, R142) -/

/-- `EQSP(m, L) = floor(m * 2^32 / L)` (R141). -/
def eqsp (m l : Nat) : Word := BitVec.ofNat 32 (m * 2 ^ 32 / l)

/-- The equally spaced table of length `l` before shuffling. -/
def equallySpaced (l : Nat) : List Word := (List.range l).map fun k => eqsp k l

/-- Swap entries `a` and `r`. -/
def swapEntries (t : List Word) (a r : Nat) : List Word := (t.set a (wordAt t r)).set r (wordAt t a)

/-- One shuffle of R142 from entry `a` down to 1. `src` holds the draws still to come; the draw for entry `a` is a
number in `0 .. a` (taken modulo `a + 1`, the identity on a legal draw; PRESUMED form of the source, log 17). -/
def shuffleFrom : Nat → List Nat → List Word → List Word × List Nat
  | 0, src, t => (t, src)
  | a + 1, src, t => shuffleFrom a src.tail (swapEntries t (a + 1) (src.headD 0 % (a + 2)))

/-- `reps` shuffles of one table. -/
def shuffleTimes : Nat → List Nat → List Word → List Word × List Nat
  | 0, src, t => (t, src)
  | n + 1, src, t => shuffleTimes n (shuffleFrom (t.length - 1) src t).2 (shuffleFrom (t.length - 1) src t).1

/-- The scrambled tables of the given lengths, drawing from one source. -/
def scrambledTables (reps : Nat) : List Nat → List Nat → List (List Word)
  | _, [] => []
  | src, l :: ls =>
    (shuffleTimes reps src (equallySpaced l)).1 :: scrambledTables reps (shuffleTimes reps src (equallySpaced l)).2 ls

/-- The commands that load tables `j`, `j+1`, …. -/
def loadTables : Nat → List (List Word) → List Instr
  | _, [] => []
  | j, t :: ts => loadTable (BitVec.ofNat 8 j) t ++ loadTables (j + 1) ts

/-- BUILDTABLES (R142): the commands the host issues, or `none` for InvalidArgument. -/
def buildTables (c : Config) (src : List Nat) (reps : Nat) (lens : List Nat) : Option (List Instr) :=
  if 1 ≤ lens.length ∧ lens.length ≤ c.ncMax ∧ lens.all (fun l => decide (1 ≤ l ∧ l ≤ c.lMax)) = true then
    some (.tbcnt (BitVec.ofNat 32 lens.length) :: loadTables 0 (scrambledTables reps src lens) ++ [.replace])
  else none

/-! ## Assembler text (R88) -/

/-- A number in decimal. -/
def decimal {w : Nat} (v : BitVec w) : String := toString v.toNat

/-- An instance operand. -/
def instanceText (i : BitVec 8) : String := "i" ++ decimal i

/-- A component operand. -/
def componentText (j : BitVec 8) : String := "c" ++ decimal j

/-- A level name; level 3 is written LIVE. -/
def levelText : Level → String
  | .pkg => "PKG"
  | .str => "STR"
  | .sub => "SUB"
  | .cur => "LIVE"

/-- The operands of RDLIN and RDNL; `none` where R88 has no form. -/
def readoutText (lvl : Level) (i k : BitVec 8) : Option String :=
  match lvl with
  | .pkg => if i = 0 then some ("PKG, " ++ decimal k) else none
  | _ => some (instanceText i ++ ", " ++ levelText lvl ++ ", " ++ decimal k)

/-- The operands of RDCFG; `none` where R88 has no form. -/
def configText (g t : BitVec 8) : Option String :=
  match g.toNat with
  | 0 => ["R", "B", "NC", "W_EXP", "V_EXP", "N_INST", "NC_MAX", "L_MAX", "SB_DEPTH", "SH_NC"][t.toNat]?
  | 1 => some ("LEN, " ++ decimal t)
  | 2 => some ("OFFSUB, " ++ decimal t)
  | 3 => some ("OFFSTR, " ++ decimal t)
  | 4 => some ("SH_LEN, " ++ decimal t)
  | _ => none

/-- The textual form of a command (R88); `none` where the syntax has no form for the operands. -/
def assemblerText : Instr → Option String
  | .nextu i => some ("NEXTU " ++ instanceText i)
  | .nextw i => some ("NEXTW " ++ instanceText i)
  | .construct i => some ("CONSTRUCT " ++ instanceText i)
  | .rststream i => some ("RSTSTREAM " ++ instanceText i)
  | .rstsub i => some ("RSTSUB " ++ instanceText i)
  | .nextsub i => some ("NEXTSUB " ++ instanceText i)
  | .clone d src => some ("CLONE " ++ instanceText d ++ ", " ++ instanceText src)
  | .sbclr => some "SBCLR"
  | .sbpush w => some ("SBPUSH " ++ decimal w)
  | .setpkgl => some "SETPKGL"
  | .setpkgn => some "SETPKGN"
  | .setseedl i => some ("SETSEEDL " ++ instanceText i)
  | .setseedn i => some ("SETSEEDN " ++ instanceText i)
  | .tbcnt n => some ("TBCNT " ++ decimal n)
  | .tblen j n => some ("TBLEN " ++ componentText j ++ ", " ++ decimal n)
  | .tbwr j k w => some ("TBWR " ++ componentText j ++ ", " ++ decimal k ++ ", " ++ decimal w)
  | .replace => some "REPLACE"
  | .rdlin lvl i k => (readoutText lvl i k).map ("RDLIN " ++ ·)
  | .rdnl lvl i j => (readoutText lvl i j).map ("RDNL " ++ ·)
  | .rdtab j k => some ("RDTAB " ++ componentText j ++ ", " ++ decimal k)
  | .rdcfg g t => (configText g t).map ("RDCFG " ++ ·)
  | .rdstat => some "RDSTAT"

end Sys2Proof.Machine
end

