-- ==== Sys2Proof/Machine/Ref.lean ====
section
/-! DEFINITION. Configuration REF, the document's default variant (spec/00_scope.md R9, R7; spec/92_eei_decisions.md
D37, D40). R9 fixes three of its fields and leaves every other field OPEN, so REF is a class of configurations. -/

namespace Sys2Proof.Machine

/-- `R` of REF, the document's example (R9). -/
def refWords : Nat := 19

/-- `DEF_LEN` of REF, the default image (R7, R9). -/
def refLengths : List Nat := [1019, 1021, 1031]

/-- `c` is a configuration REF: the three fields of R9, every other field OPEN. -/
abbrev IsRef (c : Config) : Prop := c.r = refWords ∧ c.defNc = 3 ∧ c.defLen = refLengths

/-- Configuration REF with the OPEN fields as `c` gives them (R9). -/
def refOf (c : Config) : Config := { c with r := refWords, defNc := 3, defLen := refLengths }

end Sys2Proof.Machine
end

