-- ==== Sys2Proof/Machine/Legal.lean ====
section
/-! DEFINITION. The constraints every configuration must meet (spec/00_scope.md R7, R8; spec/40_backbone.md R104). -/

namespace Sys2Proof.Machine

/-- The scalar bounds of R8, with `B < 2^32` (DEDUCED from spec/44_seed_and_readout.md R204, log 11). -/
abbrev configScalarsOk (c : Config) : Prop :=
  (1 ≤ c.r ∧ c.r ≤ 256) ∧ (1 ≤ c.b ∧ c.b < 2 ^ 32) ∧ c.wExp < 2 ^ 32 ∧ c.vExp < 2 ^ 32 ∧
  (1 ≤ c.nInst ∧ c.nInst ≤ 256) ∧ (1 ≤ c.defNc ∧ c.defNc ≤ c.ncMax ∧ c.ncMax ≤ 256) ∧
  (1 ≤ c.lMax ∧ c.lMax ≤ 65536)

/-- The default data set fits: `DEF_LEN[j]` in `1..L_MAX`, `DEF_TAB[j]` has `DEF_LEN[j]` words,
`DEF_PKG_NL[j] < DEF_LEN[j]` (R7, R8). -/
abbrev configTablesOk (c : Config) : Prop :=
  c.defLen.length = c.defNc ∧ (∀ l ∈ c.defLen, 1 ≤ l ∧ l ≤ c.lMax) ∧
  c.defTab.map List.length = c.defLen ∧ c.defPkgNl.length = c.defNc ∧
  ∀ j, j < c.defNc → c.defPkgNl.getD j 0 < c.defLen.getD j 0

/-- The default package seed has `R` words and passes VERIFYSEED (R8). -/
abbrev configSeedOk (c : Config) : Prop := c.defPkgLin.length = c.r ∧ verifySeed c c.defPkgLin = true

/-- The shapes of the step and output operators (R7). -/
abbrev configShapesOk (c : Config) : Prop :=
  matrixShape (32 * c.r) c.r c.stepM ∧ matrixShape (32 * c.b) c.r c.outM

/-- The content of the jump ROM (R104, R105). -/
abbrev configJumpsOk (c : Config) : Prop :=
  c.jsubM = powSq c.r c.stepM c.wExp ∧ c.jstrM = powSq c.r c.stepM (c.wExp + c.vExp)

/-- A legal configuration. -/
structure ConfigWf (c : Config) : Prop where
  scalars : configScalarsOk c
  tables : configTablesOk c
  seed : configSeedOk c
  shapes : configShapesOk c
  jumps : configJumpsOk c

end Sys2Proof.Machine
end

