-- ==== Sys2Proof/Safety.lean ====
section
/-! DEFINITION. What counts as a good state: the invariant of spec/10_state.md R39 with the shapes of R20, in the terms
the statements use. Every state after reset and after every command satisfies it; in such a state no step stops. -/

namespace Sys2Proof.Machine

/-- `n` length registers, each in `1 .. top` (R39(a)). -/
abbrev lengthsOk (n top : Nat) (len : List Len) : Prop :=
  len.length = n ∧ ∀ l ∈ len, 1 ≤ l.toNat ∧ l.toNat ≤ top

/-- An index vector with one entry per component, each in `[0, LEN[j]-1]` (R39(b)). -/
abbrev indicesOk (s : State) (a : List Idx) : Prop :=
  a.length = s.nc ∧ ∀ j, j < s.nc → (idxAt a j).toNat < (lenAt s.len j).toNat

/-- The registers of a context have the sizes of R20 and `BUFCUR` is in `0 .. B` (R39(c)). -/
abbrev contextShape (g : Config) (c : Context) : Prop :=
  c.strLin.length = g.r ∧ c.subLin.length = g.r ∧ c.curLin.length = g.r ∧ c.buf.length = g.b ∧ c.bufCur ≤ g.b

/-- The index vectors of a context (R39(b)). -/
abbrev contextIndices (s : State) (c : Context) : Prop :=
  indicesOk s c.strNl ∧ indicesOk s c.subNl ∧ indicesOk s c.curNl

/-- The invariant (R39). -/
structure StateInv (s : State) : Prop where
  /-- The configuration is legal (spec/00_scope.md R8). -/
  config : ConfigWf s.cfg
  /-- R39(a), active data set. -/
  components : (1 ≤ s.nc ∧ s.nc ≤ s.cfg.ncMax) ∧ lengthsOk s.nc s.cfg.lMax s.len
  /-- R39(a), shadow. -/
  shadow : (1 ≤ s.shNc ∧ s.shNc ≤ s.cfg.ncMax) ∧ lengthsOk s.cfg.ncMax s.cfg.lMax s.shLen
  /-- The package bank; R39(b). -/
  package : s.pkgLin.length = s.cfg.r ∧ indicesOk s s.pkgNl
  /-- The instance bank; R39(c). -/
  bank : s.insts.length = s.cfg.nInst ∧ ∀ c ∈ s.insts, contextShape s.cfg c
  /-- R39(b) for every valid instance. -/
  indices : ∀ c ∈ s.insts, c.valid = true → contextIndices s c
  /-- R39(d). -/
  offsets : (s.offSub.length = s.nc ∧ s.offStr.length = s.nc) ∧ ∀ j, j < s.nc →
    (idxAt s.offSub j).toNat = 2 ^ s.cfg.wExp % (lenAt s.len j).toNat ∧
    (idxAt s.offStr j).toNat = 2 ^ (s.cfg.wExp + s.cfg.vExp) % (lenAt s.len j).toNat
  /-- The staging buffer; R39(e). -/
  staging : s.sb.length = s.cfg.sbDepth ∧ s.scnt ≤ s.cfg.sbDepth + 1
  /-- R39(g). -/
  existence : ∀ c ∈ s.insts, c.valid = true → s.instExists = true
  /-- The table memories are in canonical form and list only cells that exist (spec/20_memory.md R60). -/
  memory : (s.tab.wf = true ∧ s.shTab.wf = true) ∧ (∀ c ∈ s.tab, cellActive s.nc s.len c.1 = true) ∧
    ∀ c ∈ s.shTab, c.1 / 65536 < s.cfg.ncMax ∧ c.1 % 65536 < s.cfg.lMax
  /-- LASTERR holds 0 or a code of spec/60_exceptions.md R221. -/
  status : s.lastErr.toNat ≤ 5

/-- A step is safe when it answers a next state: no fault, no refusal. -/
def safeStep (s : State) : Prop := ∃ t, step s = .next t

/-! ## Terms the statements use -/

/-- The state after a command that changed nothing but gave the response `r`. -/
def answered (r : Response) (s : State) : State := { s with out := s.out ++ [r] }

/-- The state after a command refused with status `code` (R228): LASTERR and the response, nothing else. -/
def refusedWith (code : BitVec 8) (s : State) : State :=
  { s with lastErr := code, out := s.out ++ [⟨code, 0, 0, 0⟩] }

/-- The response `r` ends the command that led from `s` to `t`. -/
abbrev endedWith (s t : State) (r : Response) : Prop := t.out = s.out ++ [r]

/-- Instance operand `i` is refused where a valid instance is required (R226). -/
def instanceRefused (s : State) (i : BitVec 8) : Prop :=
  s.cfg.nInst ≤ i.toNat ∨ ∀ c, s.insts[i.toNat]? = some c → c.valid = false

/-- `c` is the valid context `i` (R23). -/
abbrev isValidContext (s : State) (i : BitVec 8) (c : Context) : Prop :=
  i.toNat < s.cfg.nInst ∧ s.insts[i.toNat]? = some c ∧ c.valid = true

/-- The opcodes spec/30_encoding.md R85 lists as undefined. -/
def undefinedOpcode (op : Nat) : Bool :=
  decide (op ≤ 0x0F) || decide (0x12 ≤ op ∧ op ≤ 0x1F) || decide (0x25 ≤ op ∧ op ≤ 0x2F) ||
  decide (0x36 ≤ op ∧ op ≤ 0x3F) || decide (0x44 ≤ op ∧ op ≤ 0x4F) || decide (0x55 ≤ op)

/-- The column "must be 0" of spec/30_encoding.md R83: opcode, reserved bits of CW, reserved bits of DW. -/
def reservedBits : List (Nat × Word × Word) :=
  [(0x10, 0x0000FFFF, 0xFFFFFFFF), (0x11, 0x0000FFFF, 0xFFFFFFFF), (0x20, 0x0000FFFF, 0xFFFFFFFF),
   (0x21, 0x0000FFFF, 0xFFFFFFFF), (0x22, 0x0000FFFF, 0xFFFFFFFF), (0x23, 0x0000FFFF, 0xFFFFFFFF),
   (0x24, 0x0000FF00, 0xFFFFFFFF), (0x30, 0x00FFFFFF, 0xFFFFFFFF), (0x31, 0x00FFFFFF, 0x00000000),
   (0x32, 0x00FFFFFF, 0xFFFFFFFF), (0x33, 0x00FFFFFF, 0xFFFFFFFF), (0x34, 0x0000FFFF, 0xFFFFFFFF),
   (0x35, 0x0000FFFF, 0xFFFFFFFF), (0x40, 0x00FFFFFF, 0x00000000), (0x41, 0x0000FFFF, 0x00000000),
   (0x42, 0x00000000, 0x00000000), (0x43, 0x00FFFFFF, 0xFFFFFFFF), (0x50, 0x0000FC00, 0xFFFFFFFF),
   (0x51, 0x0000FC00, 0xFFFFFFFF), (0x52, 0x00000000, 0xFFFFFFFF), (0x53, 0x00FF0000, 0xFFFFFFFF),
   (0x54, 0x00FFFFFF, 0xFFFFFFFF)]

/-- A reserved field of the command is not zero (R84): one of the bits of `reservedBits`, or `IA` of RDLIN or RDNL at
level PKG (`LVL = CW[9:8] = 0`). -/
def reservedFieldSet (c : Command) : Prop :=
  (∃ row ∈ reservedBits, c.cw.toNat / 2 ^ 24 = row.1 ∧ (c.cw &&& row.2.1 ≠ 0 ∨ c.dw &&& row.2.2 ≠ 0)) ∨
  ((c.cw.toNat / 2 ^ 24 = 0x50 ∨ c.cw.toNat / 2 ^ 24 = 0x51) ∧ c.cw &&& 0x00000300 = 0 ∧ c.cw &&& 0x00FF0000 ≠ 0)

/-- The context a command may write: its instance operand, the destination of CLONE (R232). -/
def writtenInstance : Instr → Option (BitVec 8)
  | .nextu i => some i
  | .nextw i => some i
  | .construct i => some i
  | .rststream i => some i
  | .rstsub i => some i
  | .nextsub i => some i
  | .clone d _ => some d
  | .setseedl i => some i
  | .setseedn i => some i
  | _ => none

/-- The contexts a command may read: its instance operand, the source of CLONE (R232). -/
def readInstance : Instr → Option (BitVec 8)
  | .clone _ src => some src
  | .rdlin .pkg _ _ => none
  | .rdlin _ i _ => some i
  | .rdnl .pkg _ _ => none
  | .rdnl _ i _ => some i
  | i => writtenInstance i

/-- The readout commands (spec/20_memory.md R65). -/
def isReadout : Instr → Bool
  | .rdlin _ _ _ => true
  | .rdnl _ _ _ => true
  | .rdtab _ _ => true
  | .rdcfg _ _ => true
  | .rdstat => true
  | _ => false

/-- The generation commands. -/
def isDraw : Instr → Bool
  | .nextu _ => true
  | .nextw _ => true
  | _ => false

/-- The commands that write the package bank (spec/10_state.md R20). -/
def writesPackage : Instr → Bool
  | .construct _ => true
  | .setpkgl => true
  | .setpkgn => true
  | .replace => true
  | _ => false

/-- Run instructions one after another, stopping at the first fault or refusal. -/
def runInstrs : List Instr → State → Result
  | [], s => .next s
  | i :: is, s =>
    match exec i s with
    | .next t => runInstrs is t
    | o => o

/-- The value of a binary64 pattern that is a normal number (spec/93_implementation_defined.md G1). -/
def binary64Value (x : BitVec 64) : ℚ :=
  (if x.getLsbD 63 then -1 else 1) * (1 + (x.toNat % 2 ^ 52 : ℕ) / 2 ^ 52) *
    (2 : ℚ) ^ (((x.toNat / 2 ^ 52 % 2 ^ 11 : ℕ) : ℤ) - 1023)

/-- `NORMC = 2^-32 - 2^-64` (spec/43_mixer.md R182). -/
def normC : ℚ := 1 / 2 ^ 32 - 1 / 2 ^ 64

end Sys2Proof.Machine
end

