-- ==== Sys2Proof/Certificates/Slice0/Obligations.lean ====
section
/-! DEFINITION. The statements for the provers, one `def Obligations.<Name> : Prop` each, listed in OBLIGATIONS.json. -/

open Sys2Proof Sys2Proof.Machine

/-! ## Encoding, decoding, one step -/

/-- Decoding an encoded well-formed command gives it back, every operand at every value. -/
def Obligations.DecodeInvertsEncode : Prop :=
  ∀ i : Instr, i.wf = true → decode (encode i) = .ok i

/-- Every command the decoder accepts is the encoding of the well-formed instruction it gives: no bit is ignored. -/
def Obligations.EncodeInvertsDecode : Prop :=
  ∀ (c : Command) (i : Instr), decode c = .ok i → i.wf = true ∧ encode i = c

/-- R84: a command of the opcode map with a bit set in a field that R83 lists as "must be 0" ends with status 4 and
changes LASTERR alone. -/
def Obligations.ReservedFieldIsIllegal : Prop :=
  ∀ (s : State) (c : Command) (rest : List Command), s.port = c :: rest → reservedFieldSet c →
    step s = .next (refusedWith 4 { s with port := rest })

/-- R85: the 234 undefined opcodes are illegal whatever the other fields hold, and the decoder is total: every command
either runs as the instruction it decodes to or ends with status 4. -/
def Obligations.UndefinedOpcodeIsIllegal : Prop :=
  ((List.range 256).filter undefinedOpcode).length = 234 ∧
  (∀ (s : State) (c : Command) (rest : List Command), s.port = c :: rest →
    undefinedOpcode (c.cw.toNat / 2 ^ 24) = true → step s = .next (refusedWith 4 { s with port := rest })) ∧
  ∀ (s : State) (c : Command) (rest : List Command), s.port = c :: rest →
    (∃ i, decode c = .ok i ∧ step s = exec i { s with port := rest }) ∨
    step s = .next (refusedWith 4 { s with port := rest })

/-- A step takes the command the host presents next and runs the instruction it decodes to. -/
def Obligations.StepRunsDecodedInstruction : Prop :=
  ∀ (s : State) (c : Command) (rest : List Command) (i : Instr), s.port = c :: rest → decode c = .ok i →
    step s = exec i { s with port := rest }

/-- R90: the worked encodings decode to the commands they stand for, and the two illegal ones are rejected. -/
def Obligations.WorkedEncodingsDecode : Prop :=
  decode ⟨0x20020000, 0x00000000⟩ = .ok (.construct 2) ∧
  decode ⟨0x24010000, 0⟩ = .ok (.clone 1 0) ∧
  decode ⟨0x31000000, 0x9ABCDEF0⟩ = .ok (.sbpush 0x9ABCDEF0) ∧
  decode ⟨0x42000003, 0xB6DB6DB6⟩ = .ok (.tbwr 0 3 0xB6DB6DB6) ∧
  decode ⟨0x50010300, 0⟩ = .ok (.rdlin .cur 1 0) ∧
  decode ⟨0x51000002, 0⟩ = .ok (.rdnl .pkg 0 2) ∧
  decode ⟨0x53000300, 0⟩ = .ok (.rdcfg 3 0) ∧
  (∀ dw, decode ⟨0x10000001, dw⟩ = .error (.reservedField 0x10)) ∧
  ∀ dw, decode ⟨0xFF000000, dw⟩ = .error (.undefinedOpcode 0xFF)

/-- With no command presented the block waits (the model's reading of R251, log 4). -/
def Obligations.EmptyPortWaits : Prop := ∀ s : State, s.port = [] → step s = .next s

/-! ## What each command does when it completes -/

/-- NEXTU and NEXTW on a valid instance whose advanced indices lie inside the tables and whose buffer word exists:
the combiner advances cyclically, the backbone steps exactly when the buffer is exhausted, and the response carries the
XOR of the table sum and the buffer word. Nothing else changes. -/
def Obligations.DrawsComplete : Prop :=
  ∀ (s : State) (i : BitVec 8) (c : Context), isValidContext s i c →
    let a := (List.range s.nc).map fun j =>
      if (idxAt c.curNl j).toNat = (lenAt s.len j).toNat - 1 then 0 else idxAt c.curNl j + 1
    let lin := matvec s.cfg.stepM c.curLin
    let c' : Context :=
      if c.bufCur = s.cfg.b then { c with curNl := a, curLin := lin, buf := matvec s.cfg.outM lin, bufCur := 1 }
      else { c with curNl := a, bufCur := c.bufCur + 1 }
    let v := ((List.range s.nc).map fun j => memRead s.tab (tabAddr j (idxAt a j).toNat)).sum
    let b := wordAt c'.buf (c'.bufCur - 1)
    let z := v ^^^ b
    (∀ j, j < s.nc → (idxAt a j).toNat < (lenAt s.len j).toNat) → c'.bufCur - 1 < c'.buf.length →
      exec (.nextu i) s =
        .next { s with insts := s.insts.set i.toNat c', out := s.out ++ [⟨0, z, BitVec.ofNat 33 (unsign z), normalise (unsign z)⟩] } ∧
      exec (.nextw i) s = .next { s with insts := s.insts.set i.toNat c', out := s.out ++ [⟨0, z, 0, 0⟩] }

/-- CONSTRUCT of any context `i < N_INST`, valid or not: the three origins of the context become the package origin as
it was, the package origin advances by one stream gap in both sub-generators, the flags are set. Nothing else changes. -/
def Obligations.ConstructCompletes : Prop :=
  ∀ (s : State) (i : BitVec 8) (c : Context), i.toNat < s.cfg.nInst → s.insts[i.toNat]? = some c →
    exec (.construct i) s = .next { s with
      insts := s.insts.set i.toNat
        { valid := true, strLin := s.pkgLin, strNl := s.pkgNl, subLin := s.pkgLin, subNl := s.pkgNl,
          curLin := s.pkgLin, curNl := s.pkgNl, buf := c.buf, bufCur := s.cfg.b }
      pkgLin := matvec s.cfg.jstrM s.pkgLin
      pkgNl := (List.range s.nc).map fun j =>
        BitVec.ofNat 16 (((idxAt s.pkgNl j).toNat + (idxAt s.offStr j).toNat) % (lenAt s.len j).toNat)
      instExists := true
      out := s.out ++ [⟨0, 0, 0, 0⟩] }

/-- RSTSTREAM and RSTSUB of a valid instance: the cursors below the stream origin (the substream origin) are copied
from it and the buffer is invalidated. Nothing else changes. -/
def Obligations.RestartCommandsComplete : Prop :=
  ∀ (s : State) (i : BitVec 8) (c : Context), isValidContext s i c →
    exec (.rststream i) s = .next { s with
      insts := s.insts.set i.toNat
        { c with subLin := c.strLin, subNl := c.strNl, curLin := c.strLin, curNl := c.strNl, bufCur := s.cfg.b }
      out := s.out ++ [⟨0, 0, 0, 0⟩] } ∧
    exec (.rstsub i) s = .next { s with
      insts := s.insts.set i.toNat { c with curLin := c.subLin, curNl := c.subNl, bufCur := s.cfg.b }
      out := s.out ++ [⟨0, 0, 0, 0⟩] }

/-- NEXTSUB of a valid instance: the substream origin jumps by the substream gap in both sub-generators, the live cursor
restarts there. Nothing else changes. -/
def Obligations.NextsubCompletes : Prop :=
  ∀ (s : State) (i : BitVec 8) (c : Context), isValidContext s i c →
    let lin := matvec s.cfg.jsubM c.subLin
    let nl := (List.range s.nc).map fun j =>
      BitVec.ofNat 16 (((idxAt c.subNl j).toNat + (idxAt s.offSub j).toNat) % (lenAt s.len j).toNat)
    exec (.nextsub i) s = .next { s with
      insts := s.insts.set i.toNat
        { c with subLin := lin, subNl := nl, curLin := lin, curNl := nl, bufCur := s.cfg.b }
      out := s.out ++ [⟨0, 0, 0, 0⟩] }

/-- CLONE of a valid source onto a context `d < N_INST`: a full copy when `d` is another context, no change when it is
the source itself. The package origin does not move. -/
def Obligations.CloneCompletes : Prop :=
  ∀ (s : State) (d src : BitVec 8) (old c : Context), d.toNat < s.cfg.nInst → s.insts[d.toNat]? = some old →
    isValidContext s src c →
    (d ≠ src → exec (.clone d src) s =
      .next { s with insts := s.insts.set d.toNat c, out := s.out ++ [⟨0, 0, 0, 0⟩] }) ∧
    (d = src → exec (.clone d src) s = .next (answered ⟨0, 0, 0, 0⟩ s))

/-- SBCLR clears the count; SBPUSH appends a word, or records the overflow and drops it. Nothing else changes. -/
def Obligations.StagingCommandsComplete : Prop :=
  ∀ (s : State) (w : Word),
    exec .sbclr s = .next { s with scnt := 0, out := s.out ++ [⟨0, 0, 0, 0⟩] } ∧
    (s.scnt < s.cfg.sbDepth → exec (.sbpush w) s =
      .next { s with sb := s.sb.set s.scnt w, scnt := s.scnt + 1, out := s.out ++ [⟨0, 0, 0, 0⟩] }) ∧
    (s.cfg.sbDepth ≤ s.scnt → exec (.sbpush w) s =
      .next { s with scnt := s.cfg.sbDepth + 1, out := s.out ++ [⟨0, 0, 0, 0⟩] })

/-- SETPKGL and SETSEEDL with `R` staged words that are not all zero and whose final word is not the reserved one
install the seed and clear the staging count; SETSEEDL then restarts the stream of its instance. -/
def Obligations.LinearSeedCommandsComplete : Prop :=
  ∀ s : State, s.scnt = s.cfg.r → (∃ w ∈ s.sb.take s.cfg.r, w ≠ 0) →
    s.cfg.reservedLast ≠ some (wordAt s.sb (s.cfg.r - 1)) →
    exec .setpkgl s = .next { s with pkgLin := s.sb.take s.cfg.r, scnt := 0, out := s.out ++ [⟨0, 0, 0, 0⟩] } ∧
    ∀ (i : BitVec 8) (c : Context), isValidContext s i c →
      exec (.setseedl i) s = .next { s with
        insts := s.insts.set i.toNat
          { c with strLin := s.sb.take s.cfg.r, subLin := s.sb.take s.cfg.r, subNl := c.strNl,
                   curLin := s.sb.take s.cfg.r, curNl := c.strNl, bufCur := s.cfg.b }
        scnt := 0
        out := s.out ++ [⟨0, 0, 0, 0⟩] }

/-- SETPKGN and SETSEEDN with `NC` staged words, each below the length of its component, install the indices and clear
the staging count; SETSEEDN then restarts the stream of its instance. -/
def Obligations.NonlinearSeedCommandsComplete : Prop :=
  ∀ s : State, s.scnt = s.nc → (∀ j, j < s.nc → (wordAt s.sb j).toNat < (lenAt s.len j).toNat) →
    let a := (List.range s.nc).map fun j => BitVec.ofNat 16 (wordAt s.sb j).toNat
    exec .setpkgn s = .next { s with pkgNl := a, scnt := 0, out := s.out ++ [⟨0, 0, 0, 0⟩] } ∧
    ∀ (i : BitVec 8) (c : Context), isValidContext s i c →
      exec (.setseedn i) s = .next { s with
        insts := s.insts.set i.toNat
          { c with strNl := a, subLin := c.strLin, subNl := a, curLin := c.strLin, curNl := a, bufCur := s.cfg.b }
        scnt := 0
        out := s.out ++ [⟨0, 0, 0, 0⟩] }

/-- TBCNT and TBLEN with operands inside the capacities write one shadow register. Nothing else changes. -/
def Obligations.ShadowRegisterWritesComplete : Prop :=
  ∀ (s : State) (count length : Word) (j : BitVec 8),
    (1 ≤ count.toNat ∧ count.toNat ≤ s.cfg.ncMax → exec (.tbcnt count) s =
      .next { s with shNc := count.toNat, out := s.out ++ [⟨0, 0, 0, 0⟩] }) ∧
    (j.toNat < s.cfg.ncMax → 1 ≤ length.toNat → length.toNat ≤ s.cfg.lMax → exec (.tblen j length) s =
      .next { s with shLen := s.shLen.set j.toNat (BitVec.ofNat 17 length.toNat), out := s.out ++ [⟨0, 0, 0, 0⟩] })

/-- TBWR with operands inside the capacities writes exactly the cell (`j`, `k`) of the shadow table memory, whose
canonical form stays. Nothing else changes. -/
def Obligations.ShadowTableWriteCompletes : Prop :=
  ∀ (s : State) (j : BitVec 8) (k : BitVec 16) (w : Word), s.shTab.wf = true →
    j.toNat < s.cfg.ncMax → k.toNat < s.cfg.lMax →
    ∃ m : Memory, exec (.tbwr j k w) s = .next { s with shTab := m, out := s.out ++ [⟨0, 0, 0, 0⟩] } ∧
      m.wf = true ∧ memRead m (tabAddr j.toNat k.toNat) = w ∧
      ∀ a, a ≠ tabAddr j.toNat k.toNat → memRead m a = memRead s.shTab a

/-- REPLACE before the first CONSTRUCT: the shadow becomes the active data set, the offsets are recomputed, the package
origin of the combiner is zeroed, the shadow and everything else stay. Lengths in `1 .. 65536` (R36). -/
def Obligations.ReplaceCompletes : Prop :=
  ∀ s : State, s.instExists = false → s.shNc ≤ s.shLen.length →
    (∀ l ∈ s.shLen, 1 ≤ l.toNat ∧ l.toNat ≤ 65536) →
    ∃ (m : Memory) (sub str : List Idx),
      exec .replace s = .next { s with
        nc := s.shNc, len := s.shLen.take s.shNc, tab := m, offSub := sub, offStr := str,
        pkgNl := List.replicate s.shNc 0, out := s.out ++ [⟨0, 0, 0, 0⟩] } ∧
      (∀ j k, j < s.shNc → k < (lenAt s.shLen j).toNat →
        memRead m (tabAddr j k) = memRead s.shTab (tabAddr j k)) ∧
      sub.length = s.shNc ∧ str.length = s.shNc ∧
      ∀ j, j < s.shNc →
        (idxAt sub j).toNat = 2 ^ s.cfg.wExp % (lenAt s.shLen j).toNat ∧
        (idxAt str j).toNat = 2 ^ (s.cfg.wExp + s.cfg.vExp) % (lenAt s.shLen j).toNat

/-- RDLIN and RDNL at every level return the selected register, zero-extended, and change nothing. -/
def Obligations.CursorReadoutCompletes : Prop :=
  ∀ (s : State) (k : BitVec 8),
    (k.toNat < s.cfg.r → exec (.rdlin .pkg 0 k) s = .next (answered ⟨0, wordAt s.pkgLin k.toNat, 0, 0⟩ s)) ∧
    (k.toNat < s.nc → exec (.rdnl .pkg 0 k) s =
      .next (answered ⟨0, BitVec.ofNat 32 (idxAt s.pkgNl k.toNat).toNat, 0, 0⟩ s)) ∧
    ∀ (i : BitVec 8) (c : Context), isValidContext s i c →
      (k.toNat < s.cfg.r →
        exec (.rdlin .str i k) s = .next (answered ⟨0, wordAt c.strLin k.toNat, 0, 0⟩ s) ∧
        exec (.rdlin .sub i k) s = .next (answered ⟨0, wordAt c.subLin k.toNat, 0, 0⟩ s) ∧
        exec (.rdlin .cur i k) s = .next (answered ⟨0, wordAt c.curLin k.toNat, 0, 0⟩ s)) ∧
      (k.toNat < s.nc →
        exec (.rdnl .str i k) s = .next (answered ⟨0, BitVec.ofNat 32 (idxAt c.strNl k.toNat).toNat, 0, 0⟩ s) ∧
        exec (.rdnl .sub i k) s = .next (answered ⟨0, BitVec.ofNat 32 (idxAt c.subNl k.toNat).toNat, 0, 0⟩ s) ∧
        exec (.rdnl .cur i k) s = .next (answered ⟨0, BitVec.ofNat 32 (idxAt c.curNl k.toNat).toNat, 0, 0⟩ s))

/-- RDTAB of a cell `j < NC`, `k < LEN[j]` returns the active table word and changes nothing. -/
def Obligations.TableReadoutCompletes : Prop :=
  ∀ (s : State) (j : BitVec 8) (k : BitVec 16), j.toNat < s.nc → k.toNat < (lenAt s.len j.toNat).toNat →
    exec (.rdtab j k) s = .next (answered ⟨0, memRead s.tab (tabAddr j.toNat k.toNat), 0, 0⟩ s)

/-- RDCFG returns the item R204 lists for each group and item, and changes nothing. -/
def Obligations.ConfigReadoutCompletes : Prop :=
  ∀ (s : State) (t : BitVec 8),
    (∀ n v, (n, v) ∈ [(0, s.cfg.r), (1, s.cfg.b), (2, s.nc), (3, s.cfg.wExp), (4, s.cfg.vExp), (5, s.cfg.nInst),
        (6, s.cfg.ncMax), (7, s.cfg.lMax), (8, max s.cfg.r s.cfg.ncMax), (9, s.shNc)] → t.toNat = n →
      exec (.rdcfg 0 t) s = .next (answered ⟨0, BitVec.ofNat 32 v, 0, 0⟩ s)) ∧
    (t.toNat < s.nc →
      exec (.rdcfg 1 t) s = .next (answered ⟨0, BitVec.ofNat 32 (lenAt s.len t.toNat).toNat, 0, 0⟩ s) ∧
      exec (.rdcfg 2 t) s = .next (answered ⟨0, BitVec.ofNat 32 (idxAt s.offSub t.toNat).toNat, 0, 0⟩ s) ∧
      exec (.rdcfg 3 t) s = .next (answered ⟨0, BitVec.ofNat 32 (idxAt s.offStr t.toNat).toNat, 0, 0⟩ s)) ∧
    (t.toNat < s.cfg.ncMax →
      exec (.rdcfg 4 t) s = .next (answered ⟨0, BitVec.ofNat 32 (lenAt s.shLen t.toNat).toNat, 0, 0⟩ s))

/-- RDSTAT returns `LASTERR` in bits 7:0, `INST_EXISTS` in bit 8, zeros in bits 15:9 and `SCNT` in bits 31:16, and
changes nothing (`SCNT <= 257` fits 16 bits). -/
def Obligations.StatusReadoutCompletes : Prop :=
  ∀ s : State, s.scnt < 2 ^ 16 → ∃ z : Word, exec .rdstat s = .next (answered ⟨0, z, 0, 0⟩ s) ∧
    z.extractLsb' 0 8 = s.lastErr ∧ z.getLsbD 8 = s.instExists ∧ z.extractLsb' 9 7 = 0 ∧
    (z.extractLsb' 16 16).toNat = s.scnt

/-! ## Where a command fails -/

/-- R226: an instance operand that is out of range, or names a context that is not valid where a valid one is required,
ends the command with status 5. -/
def Obligations.BadInstanceFails : Prop :=
  ∀ (s : State) (i d : BitVec 8),
    (instanceRefused s i →
      exec (.nextu i) s = .next (refusedWith 5 s) ∧ exec (.nextw i) s = .next (refusedWith 5 s) ∧
      exec (.rststream i) s = .next (refusedWith 5 s) ∧ exec (.rstsub i) s = .next (refusedWith 5 s) ∧
      exec (.nextsub i) s = .next (refusedWith 5 s) ∧ exec (.clone d i) s = .next (refusedWith 5 s) ∧
      exec (.setseedl i) s = .next (refusedWith 5 s) ∧ exec (.setseedn i) s = .next (refusedWith 5 s) ∧
      ∀ (lvl : Level) (k : BitVec 8), lvl ≠ .pkg →
        exec (.rdlin lvl i k) s = .next (refusedWith 5 s) ∧ exec (.rdnl lvl i k) s = .next (refusedWith 5 s)) ∧
    (s.cfg.nInst ≤ d.toNat →
      exec (.construct d) s = .next (refusedWith 5 s) ∧ exec (.clone d i) s = .next (refusedWith 5 s))

/-- R222: SETPKGL and SETSEEDL with `R` staged words that are all zero, or whose final word is the reserved one, end
with status 1, and no other command ever does. -/
def Obligations.InvalidSeedFails : Prop :=
  (∀ s : State, s.scnt = s.cfg.r →
    ((∀ k, k < s.cfg.r → wordAt s.sb k = 0) ∨ s.cfg.reservedLast = some (wordAt s.sb (s.cfg.r - 1))) →
    exec .setpkgl s = .next (refusedWith 1 s) ∧
    ∀ (i : BitVec 8) (c : Context), isValidContext s i c → exec (.setseedl i) s = .next (refusedWith 1 s)) ∧
  ∀ (i : Instr) (s t : State) (r : Response), exec i s = .next t → endedWith s t r → r.st = 1 →
    i = .setpkgl ∨ ∃ a, i = .setseedl a

/-- R223: wrong length, out-of-range entry, operand beyond a capacity, readout index or selector out of range: each
ends the command with status 2. -/
def Obligations.InvalidArgumentFails : Prop :=
  ∀ s : State,
    (s.scnt ≠ s.nc ∨ (s.scnt = s.nc ∧ ∃ j, j < s.nc ∧ (lenAt s.len j).toNat ≤ (wordAt s.sb j).toNat) →
      exec .setpkgn s = .next (refusedWith 2 s) ∧
      ∀ i c, isValidContext s i c → exec (.setseedn i) s = .next (refusedWith 2 s)) ∧
    (s.scnt ≠ s.cfg.r → exec .setpkgl s = .next (refusedWith 2 s) ∧
      ∀ i c, isValidContext s i c → exec (.setseedl i) s = .next (refusedWith 2 s)) ∧
    (∀ n : Word, (n.toNat = 0 ∨ s.cfg.ncMax < n.toNat) → exec (.tbcnt n) s = .next (refusedWith 2 s)) ∧
    (∀ (j : BitVec 8) (n : Word), (s.cfg.ncMax ≤ j.toNat ∨ n.toNat = 0 ∨ s.cfg.lMax < n.toNat) →
      exec (.tblen j n) s = .next (refusedWith 2 s)) ∧
    (∀ (j : BitVec 8) (k : BitVec 16) (w : Word), (s.cfg.ncMax ≤ j.toNat ∨ s.cfg.lMax ≤ k.toNat) →
      exec (.tbwr j k w) s = .next (refusedWith 2 s)) ∧
    (∀ k : BitVec 8, s.cfg.r ≤ k.toNat → exec (.rdlin .pkg 0 k) s = .next (refusedWith 2 s) ∧
      ∀ lvl i c, isValidContext s i c → lvl ≠ .pkg → exec (.rdlin lvl i k) s = .next (refusedWith 2 s)) ∧
    (∀ j : BitVec 8, s.nc ≤ j.toNat → exec (.rdnl .pkg 0 j) s = .next (refusedWith 2 s) ∧
      ∀ lvl i c, isValidContext s i c → lvl ≠ .pkg → exec (.rdnl lvl i j) s = .next (refusedWith 2 s)) ∧
    (∀ (j : BitVec 8) (k : BitVec 16), (s.nc ≤ j.toNat ∨ (lenAt s.len j.toNat).toNat ≤ k.toNat) →
      exec (.rdtab j k) s = .next (refusedWith 2 s)) ∧
    ∀ g t : BitVec 8, ((g = 0 ∧ 10 ≤ t.toNat) ∨ ((g = 1 ∨ g = 2 ∨ g = 3) ∧ s.nc ≤ t.toNat) ∨
        (g = 4 ∧ s.cfg.ncMax ≤ t.toNat) ∨ 5 ≤ g.toNat) → exec (.rdcfg g t) s = .next (refusedWith 2 s)

/-- R224: REPLACE after an instance exists ends with status 3; no other command ever does. -/
def Obligations.IllegalStateFails : Prop :=
  (∀ s : State, s.instExists = true → exec .replace s = .next (refusedWith 3 s)) ∧
  ∀ (i : Instr) (s t : State) (r : Response), exec i s = .next t → endedWith s t r → r.st = 3 →
    i = .replace ∧ s.instExists = true

/-! ## Rules about every command -/

/-- Every command ends with exactly one response, its status is 0 to 5, and the data fields of a failed one are 0. -/
def Obligations.EveryCommandAnswersOnce : Prop :=
  ∀ (i : Instr) (s t : State), exec i s = .next t →
    ∃ r, endedWith s t r ∧ r.st.toNat ≤ 5 ∧ (r.st ≠ 0 → r.rz = 0 ∧ r.ru = 0 ∧ r.rf = 0)

/-- R228: a failed command writes its code to LASTERR, answers it with zero data fields, and changes nothing else. -/
def Obligations.FailedCommandChangesOnlyLasterr : Prop :=
  ∀ (i : Instr) (s t : State) (r : Response), exec i s = .next t → endedWith s t r → r.st ≠ 0 →
    t = refusedWith r.st s

/-- R31: LASTERR is 0 after reset, a failing command writes its code 1 to 5 to it and changes nothing else, a succeeding
one does not change it, and RDSTAT returns it in bits 7:0. -/
def Obligations.LasterrHoldsLastFailure : Prop :=
  (∀ c : Config, (State.resetOf c).lastErr = 0) ∧
  (∀ (i : Instr) (s t : State) (r : Response), exec i s = .next t → endedWith s t r →
    (r.st = 0 → t.lastErr = s.lastErr) ∧
    (r.st ≠ 0 → t.lastErr = r.st ∧ (1 ≤ r.st.toNat ∧ r.st.toNat ≤ 5) ∧ t = refusedWith r.st s)) ∧
  ∀ s : State, ∃ z : Word, exec .rdstat s = .next (answered ⟨0, z, 0, 0⟩ s) ∧ z.extractLsb' 0 8 = s.lastErr

/-- Re-issuing a failed command in the state it left fails the same way. -/
def Obligations.FailedCommandFailsAgain : Prop :=
  ∀ (i : Instr) (s t : State) (r : Response), exec i s = .next t → endedWith s t r → r.st ≠ 0 →
    exec i t = .next (refusedWith r.st t)

/-- Readout commands that succeed change nothing and return the same value when repeated; a command that is neither a
readout nor a generation command returns no data. -/
def Obligations.ReadoutIsPure : Prop :=
  (∀ (i : Instr) (s t : State) (r : Response), isReadout i = true → exec i s = .next t → endedWith s t r → r.st = 0 →
    t = answered r s ∧ exec i t = .next (answered r t)) ∧
  ∀ (i : Instr) (s t : State) (r : Response), isReadout i = false → isDraw i = false →
    exec i s = .next t → endedWith s t r → r.rz = 0 ∧ r.ru = 0 ∧ r.rf = 0

/-- While an instance exists no command changes the data set: NC, LEN, TAB, OFFSUB, OFFSTR. -/
def Obligations.DataSetLockedWhileInstanceExists : Prop :=
  ∀ (i : Instr) (s t : State), exec i s = .next t → s.instExists = true →
    t.nc = s.nc ∧ t.len = s.len ∧ t.tab = s.tab ∧ t.offSub = s.offSub ∧ t.offStr = s.offStr

/-- INST_EXISTS after a command is 1 exactly when it was 1 or the command is a CONSTRUCT that succeeded; it is 0 after
reset. -/
def Obligations.InstExistsIsSetByConstructAlone : Prop :=
  (∀ c : Config, (State.resetOf c).instExists = false) ∧
  ∀ (i : Instr) (s t : State) (r : Response), exec i s = .next t → endedWith s t r →
    (t.instExists = true ↔ s.instExists = true ∨ ((∃ a, i = .construct a) ∧ r.st = 0))

/-- A valid context stays valid under every command, and a context becomes valid only by a CONSTRUCT or a CLONE that
names it as the destination and succeeds. -/
def Obligations.ValidIsNeverCleared : Prop :=
  ∀ (i : Instr) (s t : State) (r : Response), exec i s = .next t → endedWith s t r → ∀ (n : Nat) (c : Context),
    s.insts[n]? = some c → ∃ c', t.insts[n]? = some c' ∧
      (c.valid = true → c'.valid = true) ∧
      (c.valid = false → c'.valid = true →
        r.st = 0 ∧ ∃ a : BitVec 8, a.toNat = n ∧ (i = .construct a ∨ ∃ src, i = .clone a src))

/-- A command leaves every context alone but the one it names. -/
def Obligations.OtherContextsAreNotWritten : Prop :=
  ∀ (i : Instr) (s t : State), exec i s = .next t → ∀ n : Nat,
    (∀ a, writtenInstance i = some a → a.toNat ≠ n) → t.insts[n]? = s.insts[n]?

/-- A command reads no context but the one it names (CLONE also its source): replacing any other context changes neither
the response nor anything else of the next state. -/
def Obligations.OtherContextsAreNotRead : Prop :=
  ∀ (i : Instr) (s t : State) (n : Nat) (c : Context),
    (∀ a, writtenInstance i = some a ∨ readInstance i = some a → a.toNat ≠ n) → exec i s = .next t →
    exec i { s with insts := s.insts.set n c } = .next { t with insts := t.insts.set n c }

/-- The package bank is written only by CONSTRUCT, SETPKGL, SETPKGN and REPLACE: CONSTRUCT and SETPKGL write PKG_LIN;
CONSTRUCT, SETPKGN and REPLACE write PKG_NL. -/
def Obligations.PackageOriginWriters : Prop :=
  ∀ (i : Instr) (s t : State), exec i s = .next t →
    (t.pkgLin ≠ s.pkgLin → (∃ a, i = .construct a) ∨ i = .setpkgl) ∧
    (t.pkgNl ≠ s.pkgNl → (∃ a, i = .construct a) ∨ i = .setpkgn ∨ i = .replace)

/-- No step writes the configuration, and a step consumes at most the command presented next. -/
def Obligations.ConfigurationIsConstant : Prop :=
  ∀ s t : State, step s = .next t → t.cfg = s.cfg ∧ t.port = s.port.tail

/-- Only NEXTU and NEXTW can stop, and no command refuses: a draw faults when an advanced index lies outside its table,
or when the buffer word it would read does not exist (log 8: in no state the block reaches). -/
def Obligations.OnlyDrawsOutsideTablesStop : Prop :=
  (∀ (i : Instr) (s : State), (∀ r, exec i s ≠ .refused r) ∧ (isDraw i = false → ∀ f, exec i s ≠ .fault f)) ∧
  ∀ (s : State) (i : BitVec 8) (c : Context), isValidContext s i c →
    ((∃ j, j < s.nc ∧ (lenAt s.len j).toNat ≤ (idxAt (advanceOne s c.curNl) j).toNat) →
      exec (.nextu i) s = .fault .absentTableCell ∧ exec (.nextw i) s = .fault .absentTableCell) ∧
    ((∀ j, j < s.nc → (idxAt (advanceOne s c.curNl) j).toNat < (lenAt s.len j).toNat) →
      c.bufCur ≠ s.cfg.b → c.buf.length ≤ c.bufCur →
      exec (.nextu i) s = .fault .absentBufferWord ∧ exec (.nextw i) s = .fault .absentBufferWord)

/-! ## Invariant, safety, reset -/

/-- R39: the invariant holds after every step from a state where it holds. -/
def Obligations.StepKeepsInvariant : Prop := ∀ s t : State, StateInv s → step s = .next t → StateInv t

/-- The invariant holds after reset, in every legal configuration. -/
def Obligations.ResetSatisfiesInvariant : Prop := ∀ c : Config, ConfigWf c → StateInv (State.resetOf c)

/-- The invariant holds at the model's reset state (configuration T64, the model's choice, log 2). -/
def Obligations.ModelResetSatisfiesInvariant : Prop := StateInv State.reset

/-- In a state that satisfies the invariant no step stops: every command is total. -/
def Obligations.InvariantStepNeverStops : Prop := ∀ s : State, StateInv s → safeStep s

/-- R40: what the reset event leaves, in every legal configuration. -/
def Obligations.ResetLeavesTheDefaults : Prop :=
  ∀ c : Config, ConfigWf c →
    let s := State.resetOf c
    s.pkgLin = c.defPkgLin ∧
    (s.pkgNl.length = c.defNc ∧ ∀ j, j < c.defNc → (idxAt s.pkgNl j).toNat = c.defPkgNl.getD j 0) ∧
    (s.insts.length = c.nInst ∧ ∀ x ∈ s.insts, x.valid = false) ∧
    s.instExists = false ∧ s.lastErr = 0 ∧ s.scnt = 0 ∧ s.nc = c.defNc ∧ s.shNc = c.defNc ∧
    (s.len.length = c.defNc ∧ s.shLen.length = c.ncMax) ∧
    (∀ j, j < c.defNc →
      (lenAt s.len j).toNat = c.defLen.getD j 0 ∧ lenAt s.shLen j = lenAt s.len j ∧
      (idxAt s.offSub j).toNat = 2 ^ c.wExp % c.defLen.getD j 0 ∧
      (idxAt s.offStr j).toNat = 2 ^ (c.wExp + c.vExp) % c.defLen.getD j 0 ∧
      ∀ k, k < c.defLen.getD j 0 →
        memRead s.tab (tabAddr j k) = (c.defTab.getD j []).getD k 0 ∧
        memRead s.shTab (tabAddr j k) = (c.defTab.getD j []).getD k 0) ∧
    (∀ j, c.defNc ≤ j → j < c.ncMax → (lenAt s.shLen j).toNat = 1) ∧
    ∀ j k, k < 65536 → (c.defNc ≤ j ∨ c.defLen.getD j 0 ≤ k) → memRead s.shTab (tabAddr j k) = 0

/-! ## Backbone -/

/-- R100: bit `i` of MATVEC is the XOR over the columns `c` of `M[i][c] AND x[c]`. -/
def Obligations.MatvecIsXorOfSelectedBits : Prop :=
  ∀ (m : Matrix) (x : Vec), (matvec m x).length = m.length / 32 ∧
    ∀ i, i < 32 * (m.length / 32) →
      vecBit (matvec m x) i = xorBits (fun c => vecBit (m.getD i []) c && vecBit x c) (32 * x.length)

/-- MATVEC is linear and maps the zero vector to the zero vector. -/
def Obligations.MatvecIsLinear : Prop :=
  (∀ (m : Matrix) (x y : Vec), x.length = y.length →
    matvec m (vecXor x y) = vecXor (matvec m x) (matvec m y)) ∧
  ∀ (m : Matrix) (n : Nat), matvec m (zeroVec n) = zeroVec (m.length / 32)

/-- R104: a jump by the substream gap equals `2^W_EXP` transitions, a jump by the stream gap `2^(W_EXP+V_EXP)`. -/
def Obligations.JumpIsRepeatedStepping : Prop :=
  ∀ (c : Config) (x : Vec), ConfigWf c → x.length = c.r →
    jump c .sub x = (fun y => matvec c.stepM y)^[2 ^ c.wExp] x ∧
    jump c .str x = (fun y => matvec c.stepM y)^[2 ^ (c.wExp + c.vExp)] x

/-- `2^V_EXP` substream gaps make one stream gap, in both sub-generators. -/
def Obligations.SubstreamGapsMakeOneStreamGap : Prop :=
  (∀ (c : Config) (x : Vec), ConfigWf c → x.length = c.r →
    (fun y => jump c .sub y)^[2 ^ c.vExp] x = jump c .str x) ∧
  ∀ (s : State) (a : List Idx), StateInv s → indicesOk s a →
    (fun b => nlJump s .sub b)^[2 ^ s.cfg.vExp] a = nlJump s .str a

/-- With a step operator that maps no non-zero vector to zero, no jump does. -/
def Obligations.NonsingularStepKeepsJumpsNonzero : Prop :=
  ∀ (c : Config) (k : Gap) (x : Vec), ConfigWf c →
    (∀ y : Vec, y.length = c.r → matvec c.stepM y = zeroVec c.r → y = zeroVec c.r) →
    x.length = c.r → jump c k x = zeroVec c.r → x = zeroVec c.r

/-! ## Combiner -/

/-- R134: POW2MOD is the residue of the power of two, and the jump offsets are its values for the two gaps. -/
def Obligations.OffsetsArePowersOfTwo : Prop :=
  (∀ e l : Nat, pow2Mod e l = 2 ^ e % l) ∧
  (pow2Mod 3 7 = 1 ∧ pow2Mod 5 7 = 4) ∧
  ∀ (c : Config) (len : List Len) (j : Nat), j < len.length →
    1 ≤ (lenAt len j).toNat → (lenAt len j).toNat ≤ 65536 →
    (idxAt (subOffsets c len) j).toNat = 2 ^ c.wExp % (lenAt len j).toNat ∧
    (idxAt (strOffsets c len) j).toNat = 2 ^ (c.wExp + c.vExp) % (lenAt len j).toNat

/-- An index of a component of length `L` returns to its start after `L` advances and not earlier, and stays inside the
table. -/
def Obligations.AdvanceIsCyclic : Prop :=
  ∀ (l : Len) (a : Idx), a.toNat < l.toNat → l.toNat ≤ 65536 →
    (∀ n, ((advanceIndex l)^[n] a).toNat = (a.toNat + n) % l.toNat) ∧ (advanceIndex l)^[l.toNat] a = a ∧
    ∀ n, 0 < n → n < l.toNat → (advanceIndex l)^[n] a ≠ a

/-- A nonlinear jump lands where `2^W_EXP` (`2^(W_EXP+V_EXP)`) calls of ADVANCEONE land. -/
def Obligations.IndexJumpIsRepeatedAdvance : Prop :=
  ∀ (s : State) (a : List Idx), StateInv s → indicesOk s a →
    nlJump s .sub a = (fun b => advanceOne s b)^[2 ^ s.cfg.wExp] a ∧
    nlJump s .str a = (fun b => advanceOne s b)^[2 ^ (s.cfg.wExp + s.cfg.vExp)] a

/-! ## Streams -/

/-- RSTSUB after any number of NEXTU draws, from the start of a substream, restores bit-identical output: the next
draws give the responses the first ones gave. -/
def Obligations.RestartRepeatsTheSubstream : Prop :=
  ∀ (s t u : State) (i : BitVec 8) (c : Context) (n m : Nat), isValidContext s i c →
    c.curLin = c.subLin → c.curNl = c.subNl → c.bufCur = s.cfg.b →
    runInstrs (List.replicate n (.nextu i)) s = .next t →
    runInstrs (.rstsub i :: List.replicate m (.nextu i)) t = .next u →
    ∃ (v : State) (rs : List Response), runInstrs (List.replicate m (.nextu i)) s = .next v ∧
      v.out = s.out ++ rs ∧ u.out = t.out ++ ⟨0, 0, 0, 0⟩ :: rs

/-- Two successive constructions with no writer of the package bank between them start exactly one stream gap apart, in
both sub-generators. -/
def Obligations.SuccessiveStreamsAreOneGapApart : Prop :=
  ∀ (s t u v : State) (a b : BitVec 8) (between : List Instr) (ca cb : Context),
    exec (.construct a) s = .next t → t.insts[a.toNat]? = some ca → a.toNat < s.cfg.nInst →
    (∀ i ∈ between, writesPackage i = false) → runInstrs between t = .next u →
    exec (.construct b) u = .next v → v.insts[b.toNat]? = some cb → b.toNat < s.cfg.nInst →
    cb.strLin = jump s.cfg .str ca.strLin ∧ cb.strNl = nlJump t .str ca.strNl

/-! ## The host's pseudo-commands -/

/-- R89: running LOADSEED stages exactly its words, when they fit the staging buffer. -/
def Obligations.LoadSeedStagesItsWords : Prop :=
  ∀ (s : State) (ws : List Word), ws.length ≤ s.cfg.sbDepth → s.sb.length = s.cfg.sbDepth →
    ∃ t, runInstrs (loadSeed ws) s = .next t ∧ t.scnt = ws.length ∧ t.sb.take ws.length = ws ∧
      t = { s with sb := t.sb, scnt := t.scnt, out := s.out ++ List.replicate (ws.length + 1) ⟨0, 0, 0, 0⟩ }

/-! ## Mixer -/

/-- R181: UNSIGN is the word itself as an unsigned number, and 2^32 for the zero word. -/
def Obligations.UnsignRecoversTheUnsignedWord : Prop :=
  (∀ z : Word, z ≠ 0 → unsign z = z.toNat) ∧ unsign 0 = 2 ^ 32 ∧
  unsign 0x80000000 = 0x80000000 ∧ unsign 0xFFFFFFFF = 0xFFFFFFFF ∧ unsign 1 = 1 ∧ unsign 0xC315D7A2 = 0xC315D7A2

/-- R185: the value NEXTU returns lies strictly inside (0,1), between NORMC at `u = 1` and `1 - 2^-32` at `u = 2^32`. -/
def Obligations.NormalisedDrawIsInsideUnit : Prop :=
  (∀ z : Word, normC ≤ binary64Value (normalise (unsign z)) ∧
    binary64Value (normalise (unsign z)) ≤ 1 - 1 / 2 ^ 32) ∧
  0 < normC ∧ binary64Value (normalise 1) = normC ∧ binary64Value (normalise (2 ^ 32)) = 1 - 1 / 2 ^ 32 ∧
  ∀ z : Word, 0 < binary64Value (normalise (unsign z)) ∧ binary64Value (normalise (unsign z)) < 1

/-- NORMALISE rounds the exact product `u * NORMC` to a 53-bit significand, to nearest, ties to even, in one step. -/
def Obligations.NormaliseRoundsToNearestEven : Prop :=
  ∀ u : Nat, 1 ≤ u → u ≤ 2 ^ 32 → ∃ (q : Nat) (e : ℤ), 2 ^ 52 ≤ q ∧ q < 2 ^ 53 ∧
    binary64Value (normalise u) = q * (2 : ℚ) ^ e ∧
    2 * |(q : ℚ) * (2 : ℚ) ^ e - u * normC| ≤ (2 : ℚ) ^ e ∧
    (2 * |(q : ℚ) * (2 : ℚ) ^ e - u * normC| = (2 : ℚ) ^ e → q % 2 = 0)

/-! ## Configuration REF, and the period of the index vector -/

/-- The machine after reset in every legal configuration REF (spec/00_scope.md R9): 19 words of backbone state, three
components of lengths 1019, 1021, 1031 in the active and the shadow data set, their offsets, and the room they need. -/
def Obligations.ReferenceConfigurationResets : Prop :=
  ∀ c : Config, ConfigWf c → IsRef c →
    let s := State.resetOf c
    (c.s = 608 ∧ 19 ≤ c.sbDepth ∧ 3 ≤ c.ncMax ∧ 1031 ≤ c.lMax) ∧
    (s.pkgLin.length = 19 ∧ s.pkgNl.length = 3 ∧ ∀ x ∈ s.insts, x.curLin.length = 19 ∧ x.curNl.length = 3) ∧
    (s.nc = 3 ∧ s.len = [1019#17, 1021#17, 1031#17]) ∧
    (s.shNc = 3 ∧ s.shLen.take 3 = [1019#17, 1021#17, 1031#17]) ∧
    s.offSub.map BitVec.toNat = [2 ^ c.wExp % 1019, 2 ^ c.wExp % 1021, 2 ^ c.wExp % 1031] ∧
    s.offStr.map BitVec.toNat =
      [2 ^ (c.wExp + c.vExp) % 1019, 2 ^ (c.wExp + c.vExp) % 1021, 2 ^ (c.wExp + c.vExp) % 1031]

/-- An index vector returns to its start after exactly the multiples of the least common multiple of the lengths, which
is their product when they are pairwise coprime, as the lengths of REF are. -/
def Obligations.IndexVectorPeriodIsLcmOfLengths : Prop :=
  ∀ (s : State) (a : List Idx) (n : Nat), StateInv s → indicesOk s a →
    ((fun b => advanceOne s b)^[n] a = a ↔ (s.len.map BitVec.toNat).foldr Nat.lcm 1 ∣ n) ∧
    ((s.len.map BitVec.toNat).Pairwise Nat.Coprime →
      ((fun b => advanceOne s b)^[n] a = a ↔ (s.len.map BitVec.toNat).prod ∣ n)) ∧
    (s.len.map BitVec.toNat = refLengths →
      ((fun b => advanceOne s b)^[n] a = a ↔ 1019 * 1021 * 1031 ∣ n))
end

