-- ==== Sys2Proof/Laws/State.lean ====
section
/-! SUPPORT. One lemma per field per named update of the state and of a context, all true by rfl, so that no proof
unfolds a record update. -/

namespace Sys2Proof.Machine

/-! ## respond -/

@[simp] theorem respond_cfg (r : Response) (s : State) : (respond r s).cfg = s.cfg := rfl
@[simp] theorem respond_pkgLin (r : Response) (s : State) : (respond r s).pkgLin = s.pkgLin := rfl
@[simp] theorem respond_pkgNl (r : Response) (s : State) : (respond r s).pkgNl = s.pkgNl := rfl
@[simp] theorem respond_insts (r : Response) (s : State) : (respond r s).insts = s.insts := rfl
@[simp] theorem respond_instExists (r : Response) (s : State) : (respond r s).instExists = s.instExists := rfl
@[simp] theorem respond_lastErr (r : Response) (s : State) : (respond r s).lastErr = s.lastErr := rfl
@[simp] theorem respond_sb (r : Response) (s : State) : (respond r s).sb = s.sb := rfl
@[simp] theorem respond_scnt (r : Response) (s : State) : (respond r s).scnt = s.scnt := rfl
@[simp] theorem respond_nc (r : Response) (s : State) : (respond r s).nc = s.nc := rfl
@[simp] theorem respond_len (r : Response) (s : State) : (respond r s).len = s.len := rfl
@[simp] theorem respond_tab (r : Response) (s : State) : (respond r s).tab = s.tab := rfl
@[simp] theorem respond_offSub (r : Response) (s : State) : (respond r s).offSub = s.offSub := rfl
@[simp] theorem respond_offStr (r : Response) (s : State) : (respond r s).offStr = s.offStr := rfl
@[simp] theorem respond_shNc (r : Response) (s : State) : (respond r s).shNc = s.shNc := rfl
@[simp] theorem respond_shLen (r : Response) (s : State) : (respond r s).shLen = s.shLen := rfl
@[simp] theorem respond_shTab (r : Response) (s : State) : (respond r s).shTab = s.shTab := rfl
@[simp] theorem respond_port (r : Response) (s : State) : (respond r s).port = s.port := rfl
@[simp] theorem respond_out (r : Response) (s : State) : (respond r s).out = s.out ++ [r] := rfl

/-! ## raiseError -/

@[simp] theorem raiseError_cfg (e : ErrorKind) (s : State) : (raiseError e s).cfg = s.cfg := rfl
@[simp] theorem raiseError_pkgLin (e : ErrorKind) (s : State) : (raiseError e s).pkgLin = s.pkgLin := rfl
@[simp] theorem raiseError_pkgNl (e : ErrorKind) (s : State) : (raiseError e s).pkgNl = s.pkgNl := rfl
@[simp] theorem raiseError_insts (e : ErrorKind) (s : State) : (raiseError e s).insts = s.insts := rfl
@[simp] theorem raiseError_instExists (e : ErrorKind) (s : State) : (raiseError e s).instExists = s.instExists := rfl
@[simp] theorem raiseError_lastErr (e : ErrorKind) (s : State) : (raiseError e s).lastErr = errorCode e := rfl
@[simp] theorem raiseError_sb (e : ErrorKind) (s : State) : (raiseError e s).sb = s.sb := rfl
@[simp] theorem raiseError_scnt (e : ErrorKind) (s : State) : (raiseError e s).scnt = s.scnt := rfl
@[simp] theorem raiseError_nc (e : ErrorKind) (s : State) : (raiseError e s).nc = s.nc := rfl
@[simp] theorem raiseError_len (e : ErrorKind) (s : State) : (raiseError e s).len = s.len := rfl
@[simp] theorem raiseError_tab (e : ErrorKind) (s : State) : (raiseError e s).tab = s.tab := rfl
@[simp] theorem raiseError_offSub (e : ErrorKind) (s : State) : (raiseError e s).offSub = s.offSub := rfl
@[simp] theorem raiseError_offStr (e : ErrorKind) (s : State) : (raiseError e s).offStr = s.offStr := rfl
@[simp] theorem raiseError_shNc (e : ErrorKind) (s : State) : (raiseError e s).shNc = s.shNc := rfl
@[simp] theorem raiseError_shLen (e : ErrorKind) (s : State) : (raiseError e s).shLen = s.shLen := rfl
@[simp] theorem raiseError_shTab (e : ErrorKind) (s : State) : (raiseError e s).shTab = s.shTab := rfl
@[simp] theorem raiseError_port (e : ErrorKind) (s : State) : (raiseError e s).port = s.port := rfl
@[simp] theorem raiseError_out (e : ErrorKind) (s : State) : (raiseError e s).out = s.out ++ [errorResponse (errorCode e)] := rfl

/-! ## setContext -/

@[simp] theorem setContext_cfg (i : BitVec 8) (c : Context) (s : State) : (setContext i c s).cfg = s.cfg := rfl
@[simp] theorem setContext_pkgLin (i : BitVec 8) (c : Context) (s : State) : (setContext i c s).pkgLin = s.pkgLin := rfl
@[simp] theorem setContext_pkgNl (i : BitVec 8) (c : Context) (s : State) : (setContext i c s).pkgNl = s.pkgNl := rfl
@[simp] theorem setContext_insts (i : BitVec 8) (c : Context) (s : State) : (setContext i c s).insts = s.insts.set i.toNat c := rfl
@[simp] theorem setContext_instExists (i : BitVec 8) (c : Context) (s : State) : (setContext i c s).instExists = s.instExists := rfl
@[simp] theorem setContext_lastErr (i : BitVec 8) (c : Context) (s : State) : (setContext i c s).lastErr = s.lastErr := rfl
@[simp] theorem setContext_sb (i : BitVec 8) (c : Context) (s : State) : (setContext i c s).sb = s.sb := rfl
@[simp] theorem setContext_scnt (i : BitVec 8) (c : Context) (s : State) : (setContext i c s).scnt = s.scnt := rfl
@[simp] theorem setContext_nc (i : BitVec 8) (c : Context) (s : State) : (setContext i c s).nc = s.nc := rfl
@[simp] theorem setContext_len (i : BitVec 8) (c : Context) (s : State) : (setContext i c s).len = s.len := rfl
@[simp] theorem setContext_tab (i : BitVec 8) (c : Context) (s : State) : (setContext i c s).tab = s.tab := rfl
@[simp] theorem setContext_offSub (i : BitVec 8) (c : Context) (s : State) : (setContext i c s).offSub = s.offSub := rfl
@[simp] theorem setContext_offStr (i : BitVec 8) (c : Context) (s : State) : (setContext i c s).offStr = s.offStr := rfl
@[simp] theorem setContext_shNc (i : BitVec 8) (c : Context) (s : State) : (setContext i c s).shNc = s.shNc := rfl
@[simp] theorem setContext_shLen (i : BitVec 8) (c : Context) (s : State) : (setContext i c s).shLen = s.shLen := rfl
@[simp] theorem setContext_shTab (i : BitVec 8) (c : Context) (s : State) : (setContext i c s).shTab = s.shTab := rfl
@[simp] theorem setContext_port (i : BitVec 8) (c : Context) (s : State) : (setContext i c s).port = s.port := rfl
@[simp] theorem setContext_out (i : BitVec 8) (c : Context) (s : State) : (setContext i c s).out = s.out := rfl

/-! ## markInstExists -/

@[simp] theorem markInstExists_cfg (s : State) : (markInstExists s).cfg = s.cfg := rfl
@[simp] theorem markInstExists_pkgLin (s : State) : (markInstExists s).pkgLin = s.pkgLin := rfl
@[simp] theorem markInstExists_pkgNl (s : State) : (markInstExists s).pkgNl = s.pkgNl := rfl
@[simp] theorem markInstExists_insts (s : State) : (markInstExists s).insts = s.insts := rfl
@[simp] theorem markInstExists_instExists (s : State) : (markInstExists s).instExists = true := rfl
@[simp] theorem markInstExists_lastErr (s : State) : (markInstExists s).lastErr = s.lastErr := rfl
@[simp] theorem markInstExists_sb (s : State) : (markInstExists s).sb = s.sb := rfl
@[simp] theorem markInstExists_scnt (s : State) : (markInstExists s).scnt = s.scnt := rfl
@[simp] theorem markInstExists_nc (s : State) : (markInstExists s).nc = s.nc := rfl
@[simp] theorem markInstExists_len (s : State) : (markInstExists s).len = s.len := rfl
@[simp] theorem markInstExists_tab (s : State) : (markInstExists s).tab = s.tab := rfl
@[simp] theorem markInstExists_offSub (s : State) : (markInstExists s).offSub = s.offSub := rfl
@[simp] theorem markInstExists_offStr (s : State) : (markInstExists s).offStr = s.offStr := rfl
@[simp] theorem markInstExists_shNc (s : State) : (markInstExists s).shNc = s.shNc := rfl
@[simp] theorem markInstExists_shLen (s : State) : (markInstExists s).shLen = s.shLen := rfl
@[simp] theorem markInstExists_shTab (s : State) : (markInstExists s).shTab = s.shTab := rfl
@[simp] theorem markInstExists_port (s : State) : (markInstExists s).port = s.port := rfl
@[simp] theorem markInstExists_out (s : State) : (markInstExists s).out = s.out := rfl

/-! ## advancePackage -/

@[simp] theorem advancePackage_cfg (s : State) : (advancePackage s).cfg = s.cfg := rfl
@[simp] theorem advancePackage_pkgLin (s : State) : (advancePackage s).pkgLin = jump s.cfg .str s.pkgLin := rfl
@[simp] theorem advancePackage_pkgNl (s : State) : (advancePackage s).pkgNl = nlJump s .str s.pkgNl := rfl
@[simp] theorem advancePackage_insts (s : State) : (advancePackage s).insts = s.insts := rfl
@[simp] theorem advancePackage_instExists (s : State) : (advancePackage s).instExists = s.instExists := rfl
@[simp] theorem advancePackage_lastErr (s : State) : (advancePackage s).lastErr = s.lastErr := rfl
@[simp] theorem advancePackage_sb (s : State) : (advancePackage s).sb = s.sb := rfl
@[simp] theorem advancePackage_scnt (s : State) : (advancePackage s).scnt = s.scnt := rfl
@[simp] theorem advancePackage_nc (s : State) : (advancePackage s).nc = s.nc := rfl
@[simp] theorem advancePackage_len (s : State) : (advancePackage s).len = s.len := rfl
@[simp] theorem advancePackage_tab (s : State) : (advancePackage s).tab = s.tab := rfl
@[simp] theorem advancePackage_offSub (s : State) : (advancePackage s).offSub = s.offSub := rfl
@[simp] theorem advancePackage_offStr (s : State) : (advancePackage s).offStr = s.offStr := rfl
@[simp] theorem advancePackage_shNc (s : State) : (advancePackage s).shNc = s.shNc := rfl
@[simp] theorem advancePackage_shLen (s : State) : (advancePackage s).shLen = s.shLen := rfl
@[simp] theorem advancePackage_shTab (s : State) : (advancePackage s).shTab = s.shTab := rfl
@[simp] theorem advancePackage_port (s : State) : (advancePackage s).port = s.port := rfl
@[simp] theorem advancePackage_out (s : State) : (advancePackage s).out = s.out := rfl

/-! ## clearStaging -/

@[simp] theorem clearStaging_cfg (s : State) : (clearStaging s).cfg = s.cfg := rfl
@[simp] theorem clearStaging_pkgLin (s : State) : (clearStaging s).pkgLin = s.pkgLin := rfl
@[simp] theorem clearStaging_pkgNl (s : State) : (clearStaging s).pkgNl = s.pkgNl := rfl
@[simp] theorem clearStaging_insts (s : State) : (clearStaging s).insts = s.insts := rfl
@[simp] theorem clearStaging_instExists (s : State) : (clearStaging s).instExists = s.instExists := rfl
@[simp] theorem clearStaging_lastErr (s : State) : (clearStaging s).lastErr = s.lastErr := rfl
@[simp] theorem clearStaging_sb (s : State) : (clearStaging s).sb = s.sb := rfl
@[simp] theorem clearStaging_scnt (s : State) : (clearStaging s).scnt = 0 := rfl
@[simp] theorem clearStaging_nc (s : State) : (clearStaging s).nc = s.nc := rfl
@[simp] theorem clearStaging_len (s : State) : (clearStaging s).len = s.len := rfl
@[simp] theorem clearStaging_tab (s : State) : (clearStaging s).tab = s.tab := rfl
@[simp] theorem clearStaging_offSub (s : State) : (clearStaging s).offSub = s.offSub := rfl
@[simp] theorem clearStaging_offStr (s : State) : (clearStaging s).offStr = s.offStr := rfl
@[simp] theorem clearStaging_shNc (s : State) : (clearStaging s).shNc = s.shNc := rfl
@[simp] theorem clearStaging_shLen (s : State) : (clearStaging s).shLen = s.shLen := rfl
@[simp] theorem clearStaging_shTab (s : State) : (clearStaging s).shTab = s.shTab := rfl
@[simp] theorem clearStaging_port (s : State) : (clearStaging s).port = s.port := rfl
@[simp] theorem clearStaging_out (s : State) : (clearStaging s).out = s.out := rfl

/-! ## presentCommand -/

@[simp] theorem presentCommand_cfg (k : Command) (s : State) : (presentCommand k s).cfg = s.cfg := rfl
@[simp] theorem presentCommand_pkgLin (k : Command) (s : State) : (presentCommand k s).pkgLin = s.pkgLin := rfl
@[simp] theorem presentCommand_pkgNl (k : Command) (s : State) : (presentCommand k s).pkgNl = s.pkgNl := rfl
@[simp] theorem presentCommand_insts (k : Command) (s : State) : (presentCommand k s).insts = s.insts := rfl
@[simp] theorem presentCommand_instExists (k : Command) (s : State) : (presentCommand k s).instExists = s.instExists := rfl
@[simp] theorem presentCommand_lastErr (k : Command) (s : State) : (presentCommand k s).lastErr = s.lastErr := rfl
@[simp] theorem presentCommand_sb (k : Command) (s : State) : (presentCommand k s).sb = s.sb := rfl
@[simp] theorem presentCommand_scnt (k : Command) (s : State) : (presentCommand k s).scnt = s.scnt := rfl
@[simp] theorem presentCommand_nc (k : Command) (s : State) : (presentCommand k s).nc = s.nc := rfl
@[simp] theorem presentCommand_len (k : Command) (s : State) : (presentCommand k s).len = s.len := rfl
@[simp] theorem presentCommand_tab (k : Command) (s : State) : (presentCommand k s).tab = s.tab := rfl
@[simp] theorem presentCommand_offSub (k : Command) (s : State) : (presentCommand k s).offSub = s.offSub := rfl
@[simp] theorem presentCommand_offStr (k : Command) (s : State) : (presentCommand k s).offStr = s.offStr := rfl
@[simp] theorem presentCommand_shNc (k : Command) (s : State) : (presentCommand k s).shNc = s.shNc := rfl
@[simp] theorem presentCommand_shLen (k : Command) (s : State) : (presentCommand k s).shLen = s.shLen := rfl
@[simp] theorem presentCommand_shTab (k : Command) (s : State) : (presentCommand k s).shTab = s.shTab := rfl
@[simp] theorem presentCommand_port (k : Command) (s : State) : (presentCommand k s).port = k :: s.port := rfl
@[simp] theorem presentCommand_out (k : Command) (s : State) : (presentCommand k s).out = s.out := rfl

/-! ## installShadow -/

@[simp] theorem installShadow_cfg (s : State) : (installShadow s).cfg = s.cfg := rfl
@[simp] theorem installShadow_pkgLin (s : State) : (installShadow s).pkgLin = s.pkgLin := rfl
@[simp] theorem installShadow_pkgNl (s : State) : (installShadow s).pkgNl = List.replicate s.shNc 0 := rfl
@[simp] theorem installShadow_insts (s : State) : (installShadow s).insts = s.insts := rfl
@[simp] theorem installShadow_instExists (s : State) : (installShadow s).instExists = s.instExists := rfl
@[simp] theorem installShadow_lastErr (s : State) : (installShadow s).lastErr = s.lastErr := rfl
@[simp] theorem installShadow_sb (s : State) : (installShadow s).sb = s.sb := rfl
@[simp] theorem installShadow_scnt (s : State) : (installShadow s).scnt = s.scnt := rfl
@[simp] theorem installShadow_nc (s : State) : (installShadow s).nc = s.shNc := rfl
@[simp] theorem installShadow_len (s : State) : (installShadow s).len = shadowLengths s := rfl
@[simp] theorem installShadow_tab (s : State) : (installShadow s).tab = memRestrict s.shNc (shadowLengths s) s.shTab := rfl
@[simp] theorem installShadow_offSub (s : State) : (installShadow s).offSub = subOffsets s.cfg (shadowLengths s) := rfl
@[simp] theorem installShadow_offStr (s : State) : (installShadow s).offStr = strOffsets s.cfg (shadowLengths s) := rfl
@[simp] theorem installShadow_shNc (s : State) : (installShadow s).shNc = s.shNc := rfl
@[simp] theorem installShadow_shLen (s : State) : (installShadow s).shLen = s.shLen := rfl
@[simp] theorem installShadow_shTab (s : State) : (installShadow s).shTab = s.shTab := rfl
@[simp] theorem installShadow_port (s : State) : (installShadow s).port = s.port := rfl
@[simp] theorem installShadow_out (s : State) : (installShadow s).out = s.out := rfl

/-! ## restartSubstream -/

@[simp] theorem restartSubstream_valid (g : Config) (c : Context) : (restartSubstream g c).valid = c.valid := rfl
@[simp] theorem restartSubstream_strLin (g : Config) (c : Context) : (restartSubstream g c).strLin = c.strLin := rfl
@[simp] theorem restartSubstream_strNl (g : Config) (c : Context) : (restartSubstream g c).strNl = c.strNl := rfl
@[simp] theorem restartSubstream_subLin (g : Config) (c : Context) : (restartSubstream g c).subLin = c.subLin := rfl
@[simp] theorem restartSubstream_subNl (g : Config) (c : Context) : (restartSubstream g c).subNl = c.subNl := rfl
@[simp] theorem restartSubstream_curLin (g : Config) (c : Context) : (restartSubstream g c).curLin = c.subLin := rfl
@[simp] theorem restartSubstream_curNl (g : Config) (c : Context) : (restartSubstream g c).curNl = c.subNl := rfl
@[simp] theorem restartSubstream_buf (g : Config) (c : Context) : (restartSubstream g c).buf = c.buf := rfl
@[simp] theorem restartSubstream_bufCur (g : Config) (c : Context) : (restartSubstream g c).bufCur = g.b := rfl

/-! ## restartStream -/

@[simp] theorem restartStream_valid (g : Config) (c : Context) : (restartStream g c).valid = c.valid := rfl
@[simp] theorem restartStream_strLin (g : Config) (c : Context) : (restartStream g c).strLin = c.strLin := rfl
@[simp] theorem restartStream_strNl (g : Config) (c : Context) : (restartStream g c).strNl = c.strNl := rfl
@[simp] theorem restartStream_subLin (g : Config) (c : Context) : (restartStream g c).subLin = c.strLin := rfl
@[simp] theorem restartStream_subNl (g : Config) (c : Context) : (restartStream g c).subNl = c.strNl := rfl
@[simp] theorem restartStream_curLin (g : Config) (c : Context) : (restartStream g c).curLin = c.strLin := rfl
@[simp] theorem restartStream_curNl (g : Config) (c : Context) : (restartStream g c).curNl = c.strNl := rfl
@[simp] theorem restartStream_buf (g : Config) (c : Context) : (restartStream g c).buf = c.buf := rfl
@[simp] theorem restartStream_bufCur (g : Config) (c : Context) : (restartStream g c).bufCur = g.b := rfl

/-! ## advanceSubstream -/

@[simp] theorem advanceSubstream_valid (s : State) (c : Context) : (advanceSubstream s c).valid = c.valid := rfl
@[simp] theorem advanceSubstream_strLin (s : State) (c : Context) : (advanceSubstream s c).strLin = c.strLin := rfl
@[simp] theorem advanceSubstream_strNl (s : State) (c : Context) : (advanceSubstream s c).strNl = c.strNl := rfl
@[simp] theorem advanceSubstream_subLin (s : State) (c : Context) : (advanceSubstream s c).subLin = jump s.cfg .sub c.subLin := rfl
@[simp] theorem advanceSubstream_subNl (s : State) (c : Context) : (advanceSubstream s c).subNl = nlJump s .sub c.subNl := rfl
@[simp] theorem advanceSubstream_curLin (s : State) (c : Context) : (advanceSubstream s c).curLin = c.curLin := rfl
@[simp] theorem advanceSubstream_curNl (s : State) (c : Context) : (advanceSubstream s c).curNl = c.curNl := rfl
@[simp] theorem advanceSubstream_buf (s : State) (c : Context) : (advanceSubstream s c).buf = c.buf := rfl
@[simp] theorem advanceSubstream_bufCur (s : State) (c : Context) : (advanceSubstream s c).bufCur = c.bufCur := rfl

/-! ## constructedContext -/

@[simp] theorem constructedContext_valid (s : State) (c : Context) : (constructedContext s c).valid = true := rfl
@[simp] theorem constructedContext_strLin (s : State) (c : Context) : (constructedContext s c).strLin = s.pkgLin := rfl
@[simp] theorem constructedContext_strNl (s : State) (c : Context) : (constructedContext s c).strNl = s.pkgNl := rfl
@[simp] theorem constructedContext_subLin (s : State) (c : Context) : (constructedContext s c).subLin = s.pkgLin := rfl
@[simp] theorem constructedContext_subNl (s : State) (c : Context) : (constructedContext s c).subNl = s.pkgNl := rfl
@[simp] theorem constructedContext_curLin (s : State) (c : Context) : (constructedContext s c).curLin = s.pkgLin := rfl
@[simp] theorem constructedContext_curNl (s : State) (c : Context) : (constructedContext s c).curNl = s.pkgNl := rfl
@[simp] theorem constructedContext_buf (s : State) (c : Context) : (constructedContext s c).buf = c.buf := rfl
@[simp] theorem constructedContext_bufCur (s : State) (c : Context) : (constructedContext s c).bufCur = s.cfg.b := rfl

/-! ## stepBackbone -/

@[simp] theorem stepBackbone_valid (g : Config) (c : Context) : (stepBackbone g c).valid = c.valid := rfl
@[simp] theorem stepBackbone_strLin (g : Config) (c : Context) : (stepBackbone g c).strLin = c.strLin := rfl
@[simp] theorem stepBackbone_strNl (g : Config) (c : Context) : (stepBackbone g c).strNl = c.strNl := rfl
@[simp] theorem stepBackbone_subLin (g : Config) (c : Context) : (stepBackbone g c).subLin = c.subLin := rfl
@[simp] theorem stepBackbone_subNl (g : Config) (c : Context) : (stepBackbone g c).subNl = c.subNl := rfl
@[simp] theorem stepBackbone_curLin (g : Config) (c : Context) : (stepBackbone g c).curLin = matvec g.stepM c.curLin := rfl
@[simp] theorem stepBackbone_curNl (g : Config) (c : Context) : (stepBackbone g c).curNl = c.curNl := rfl
@[simp] theorem stepBackbone_buf (g : Config) (c : Context) : (stepBackbone g c).buf = matvec g.outM (matvec g.stepM c.curLin) := rfl
@[simp] theorem stepBackbone_bufCur (g : Config) (c : Context) : (stepBackbone g c).bufCur = 0 := rfl

end Sys2Proof.Machine
end

