-- ==== Sys2Proof/Laws/Ops.lean ====
section
/-! SUPPORT. For each shared operation, what it does on an operand it accepts, on one it refuses, and everything that
can have happened when it answered a next state. -/

namespace Sys2Proof.Machine

theorem raiseError_eq_refusedWith (e : ErrorKind) (s : State) : raiseError e s = refusedWith (errorCode e) s := rfl

theorem respond_eq_answered (r : Response) (s : State) : respond r s = answered r s := rfl

theorem fail_eq (e : ErrorKind) (s : State) : fail e s = .next (refusedWith (errorCode e) s) := rfl

theorem finish_eq (s : State) : finish s = .next (answered ⟨0, 0, 0, 0⟩ s) := rfl

theorem finishWord_eq (v : Word) (s : State) : finishWord v s = .next (answered ⟨0, v, 0, 0⟩ s) := rfl

/-- Every error code is 1 to 5. -/
theorem errorCode_bounds (e : ErrorKind) : 1 ≤ (errorCode e).toNat ∧ (errorCode e).toNat ≤ 5 := by
  cases e <;> decide

/-! ## Instance operands -/

theorem contextAt_some (s : State) (i : BitVec 8) (c : Context) :
    contextAt s i = some c ↔ i.toNat < s.cfg.nInst ∧ s.insts[i.toNat]? = some c := by
  unfold contextAt
  split_ifs with h <;> simp [h]

theorem validContext_some (s : State) (i : BitVec 8) (c : Context) :
    validContext s i = some c ↔ isValidContext s i c := by
  have hc := contextAt_some s i
  unfold validContext
  cases h : contextAt s i with
  | none =>
    constructor
    · intro h'; cases h'
    · intro h'
      have h2 := (hc c).2 ⟨h'.1, h'.2.1⟩
      rw [h] at h2; cases h2
  | some d =>
    obtain ⟨h1, h2⟩ := (hc d).1 h
    by_cases hv : d.valid = true
    · simp only [hv, if_true, isValidContext, h1, h2, true_and, Option.some.injEq]
      constructor
      · rintro rfl; exact ⟨rfl, hv⟩
      · exact fun h => h.1
    · simp only [hv, isValidContext, h1, h2, true_and, Option.some.injEq]
      constructor
      · intro h; simp at h
      · rintro ⟨rfl, h⟩; exact absurd h hv

theorem validContext_none (s : State) (i : BitVec 8) : validContext s i = none ↔ ∀ c, ¬ isValidContext s i c := by
  simp only [← validContext_some, Option.eq_none_iff_forall_ne_some, ne_eq]

theorem withContext_of_valid (s : State) (i : BitVec 8) (c : Context) (body : Context → Result)
    (h : isValidContext s i c) : withContext i s body = body c := by
  rw [withContext, (validContext_some s i c).2 h]

theorem withContext_of_refused (s : State) (i : BitVec 8) (body : Context → Result) (h : ∀ c, ¬ isValidContext s i c) :
    withContext i s body = fail .badInstance s := by
  rw [withContext, (validContext_none s i).2 h]

/-- Everything `withContext` can do. -/
theorem withContext_cases (s : State) (i : BitVec 8) (body : Context → Result) :
    ((∀ c, ¬ isValidContext s i c) ∧ withContext i s body = fail .badInstance s) ∨
    ∃ c, isValidContext s i c ∧ withContext i s body = body c := by
  cases h : validContext s i with
  | none =>
    have h' := (validContext_none s i).1 h
    exact .inl ⟨h', withContext_of_refused s i body h'⟩
  | some c =>
    have h' := (validContext_some s i c).1 h
    exact .inr ⟨c, h', withContext_of_valid s i c body h'⟩

theorem not_valid_of_refused (s : State) (i : BitVec 8) (h : instanceRefused s i) (c : Context) :
    ¬ isValidContext s i c := by
  rintro ⟨h1, h2, h3⟩
  rcases h with h | h
  · omega
  · simp [h c h2] at h3

/-! ## Staged seeds -/

/-- Everything `withLinearSeed` can do. -/
theorem withLinearSeed_cases (s : State) (body : Vec → Result) :
    (s.scnt ≠ s.cfg.r ∧ withLinearSeed s body = fail .invalidArgument s) ∨
    (s.scnt = s.cfg.r ∧ verifySeed s.cfg (stagedVector s) = false ∧ withLinearSeed s body = fail .invalidSeed s) ∨
    (s.scnt = s.cfg.r ∧ verifySeed s.cfg (stagedVector s) = true ∧ withLinearSeed s body = body (stagedVector s)) := by
  unfold withLinearSeed
  split_ifs with h1 h2
  · exact .inl ⟨h1, rfl⟩
  · exact .inr (.inl ⟨not_not.1 h1, h2, rfl⟩)
  · exact .inr (.inr ⟨not_not.1 h1, by simpa using h2, rfl⟩)

theorem stagedOutOfRange_false (s : State) :
    stagedOutOfRange s = false ↔ ∀ j, j < s.nc → (wordAt s.sb j).toNat < (lenAt s.len j).toNat := by
  simp [stagedOutOfRange]

/-- Everything `withNonlinearSeed` can do. -/
theorem withNonlinearSeed_cases (s : State) (body : List Idx → Result) :
    ((s.scnt ≠ s.nc ∨ ∃ j, j < s.nc ∧ (lenAt s.len j).toNat ≤ (wordAt s.sb j).toNat) ∧
      withNonlinearSeed s body = fail .invalidArgument s) ∨
    ((s.scnt = s.nc ∧ ∀ j, j < s.nc → (wordAt s.sb j).toNat < (lenAt s.len j).toNat) ∧
      withNonlinearSeed s body = body (stagedIndices s)) := by
  unfold withNonlinearSeed
  split_ifs with h1 h2
  · exact .inl ⟨.inl h1, rfl⟩
  · refine .inl ⟨.inr ?_, rfl⟩
    simpa [stagedOutOfRange] using h2
  · exact .inr ⟨⟨not_not.1 h1, (stagedOutOfRange_false s).1 (by simpa using h2)⟩, rfl⟩

/-! ## Readout operands -/

theorem withLevelBank_reserved (s : State) (i : BitVec 8) (body : Vec × List Idx → Result) (h : i ≠ 0) :
    withLevelBank .pkg i s body = fail .illegalCmd s := by
  have : levelOperandOk .pkg i = false := by
    unfold levelOperandOk
    rw [beq_false_of_ne h]; rfl
  rw [withLevelBank, if_pos this]

/-- Everything `withLevelBank` can do. -/
theorem withLevelBank_cases (lvl : Level) (i : BitVec 8) (s : State) (body : Vec × List Idx → Result) :
    (lvl = .pkg ∧ i ≠ 0 ∧ withLevelBank lvl i s body = fail .illegalCmd s) ∨
    (lvl = .pkg ∧ i = 0 ∧ withLevelBank lvl i s body = body (s.pkgLin, s.pkgNl)) ∨
    (lvl ≠ .pkg ∧ (∀ c, ¬ isValidContext s i c) ∧ withLevelBank lvl i s body = fail .badInstance s) ∨
    ∃ c bank, lvl ≠ .pkg ∧ isValidContext s i c ∧ withLevelBank lvl i s body = body bank ∧
      ((lvl = .str ∧ bank = (c.strLin, c.strNl)) ∨ (lvl = .sub ∧ bank = (c.subLin, c.subNl)) ∨
        (lvl = .cur ∧ bank = (c.curLin, c.curNl))) := by
  cases h : validContext s i with
  | none =>
    have h' := (validContext_none s i).1 h
    cases lvl
    · by_cases hi : i = 0
      · exact .inr (.inl ⟨rfl, hi, by simp [withLevelBank, levelOperandOk, levelBank, hi]⟩)
      · exact .inl ⟨rfl, hi, withLevelBank_reserved s i body hi⟩
    all_goals exact .inr (.inr (.inl ⟨by decide, h', by simp [withLevelBank, levelOperandOk, levelBank, h]⟩))
  | some c =>
    have h' := (validContext_some s i c).1 h
    cases lvl
    · by_cases hi : i = 0
      · exact .inr (.inl ⟨rfl, hi, by simp [withLevelBank, levelOperandOk, levelBank, hi]⟩)
      · exact .inl ⟨rfl, hi, withLevelBank_reserved s i body hi⟩
    · exact .inr (.inr (.inr ⟨c, _, by decide, h', by simp [withLevelBank, levelOperandOk, levelBank, h], .inl ⟨rfl, rfl⟩⟩))
    · exact .inr (.inr (.inr ⟨c, _, by decide, h', by simp [withLevelBank, levelOperandOk, levelBank, h], .inr (.inl ⟨rfl, rfl⟩)⟩))
    · exact .inr (.inr (.inr ⟨c, _, by decide, h', by simp [withLevelBank, levelOperandOk, levelBank, h], .inr (.inr ⟨rfl, rfl⟩)⟩))

theorem tabCell_some (s : State) (j k : Nat) (w : Word) :
    tabCell s j k = some w ↔
      (j < s.nc ∧ k < (lenAt s.len j).toNat) ∧ memRead s.tab (tabAddr j k) = w := by
  unfold tabCell
  split_ifs with h <;> simp [h]

theorem tabCell_none (s : State) (j k : Nat) :
    tabCell s j k = none ↔ s.nc ≤ j ∨ (lenAt s.len j).toNat ≤ k := by
  unfold tabCell
  split_ifs with h
  · simp; omega
  · simp; omega

/-! ## Draws -/

/-- NEXTWORD answers the word at the buffer cursor of the refilled context and moves the cursor past it. -/
theorem nextWord_some (g : Config) (c c' : Context) (w : Word) :
    nextWord g c = some (w, c') ↔
      (refillBuffer g c).buf[(refillBuffer g c).bufCur]? = some w ∧
      c' = { refillBuffer g c with bufCur := (refillBuffer g c).bufCur + 1 } := by
  unfold nextWord
  cases h : (refillBuffer g c).buf[(refillBuffer g c).bufCur]? with
  | none => simp
  | some v => simp [eq_comm]

/-- MIX answers the XOR of the table sum at the advanced indices and the backbone word. -/
theorem mix_ok (s : State) (c c' : Context) (z : Word) :
    mix s c = .ok (z, c') ↔
      ∃ v b, currentValue s (advanceOne s c.curNl) = some v ∧
        nextWord s.cfg { c with curNl := advanceOne s c.curNl } = some (b, c') ∧ z = v ^^^ b := by
  unfold mix
  cases h1 : currentValue s (advanceOne s c.curNl) with
  | none => simp
  | some v =>
    cases h2 : nextWord s.cfg { c with curNl := advanceOne s c.curNl } with
    | none => simp
    | some p => obtain ⟨b, d⟩ := p; simp [eq_comm, and_comm]

/-- A draw moves only the live cursor and the buffer of its context. -/
theorem mix_frame (s : State) (c c' : Context) (z : Word) (h : mix s c = .ok (z, c')) :
    c'.valid = c.valid ∧ c'.strLin = c.strLin ∧ c'.strNl = c.strNl ∧ c'.subLin = c.subLin ∧ c'.subNl = c.subNl ∧
    c'.curNl = advanceOne s c.curNl := by
  obtain ⟨v, b, -, h2, -⟩ := (mix_ok s c c' z).1 h
  obtain ⟨-, rfl⟩ := (nextWord_some _ _ _ _).1 h2
  unfold refillBuffer
  split_ifs <;> simp

/-- Everything a generation command can do. -/
theorem drawWith_cases (resp : Word → Response) (i : BitVec 8) (s : State) :
    ((∀ c, ¬ isValidContext s i c) ∧ drawWith resp i s = fail .badInstance s) ∨
    (∃ c f, isValidContext s i c ∧ mix s c = .error f ∧ drawWith resp i s = .fault f) ∨
    ∃ c z c', isValidContext s i c ∧ mix s c = .ok (z, c') ∧
      drawWith resp i s = .next (respond (resp z) (setContext i c' s)) := by
  cases h : validContext s i with
  | none =>
    have h' := (validContext_none s i).1 h
    exact .inl ⟨h', withContext_of_refused s i _ h'⟩
  | some c =>
    have h' := (validContext_some s i c).1 h
    refine .inr ?_
    cases hm : mix s c with
    | error f => exact .inl ⟨c, f, h', hm, by simp [drawWith, withContext, h, hm]⟩
    | ok p => exact .inr ⟨c, p.1, p.2, h', hm, by simp [drawWith, withContext, h, hm]⟩

end Sys2Proof.Machine
end

