-- ==== Sys2Proof/Laws/Exec.lean ====
section
/-! SUPPORT. Everything a command can do, said once: it fails and changes LASTERR alone, it faults (a draw only), or it
has the effect of one of the cases of `Effect`. -/

namespace Sys2Proof.Machine

/-- `Effect i s r s'`: command `i` completed in state `s` with the response `r` of status 0 and left `s'`
(the response not yet appended). One constructor per way to complete. -/
inductive Effect : Instr → State → Response → State → Prop
  | nextu (i s c z c') : isValidContext s i c → mix s c = .ok (z, c') →
      Effect (.nextu i) s (nextuResponse z) (setContext i c' s)
  | nextw (i s c z c') : isValidContext s i c → mix s c = .ok (z, c') →
      Effect (.nextw i) s (wordResponse z) (setContext i c' s)
  | construct (i s c) : contextAt s i = some c →
      Effect (.construct i) s okResponse (setContext i (constructedContext s c) (markInstExists (advancePackage s)))
  | rststream (i s c) : isValidContext s i c →
      Effect (.rststream i) s okResponse (setContext i (restartStream s.cfg c) s)
  | rstsub (i s c) : isValidContext s i c →
      Effect (.rstsub i) s okResponse (setContext i (restartSubstream s.cfg c) s)
  | nextsub (i s c) : isValidContext s i c →
      Effect (.nextsub i) s okResponse (setContext i (restartSubstream s.cfg (advanceSubstream s c)) s)
  | cloneSelf (d s c) : contextAt s d = some c → isValidContext s d c → Effect (.clone d d) s okResponse s
  | clone (d src s old c) : d ≠ src → contextAt s d = some old → isValidContext s src c →
      Effect (.clone d src) s okResponse (setContext d { c with valid := true } s)
  | sbclr (s) : Effect .sbclr s okResponse (clearStaging s)
  | sbpush (w s) : Effect (.sbpush w) s okResponse (pushStaging w s)
  | setpkgl (s) : s.scnt = s.cfg.r → verifySeed s.cfg (stagedVector s) = true →
      Effect .setpkgl s okResponse { clearStaging s with pkgLin := stagedVector s }
  | setpkgn (s) : s.scnt = s.nc → (∀ j, j < s.nc → (wordAt s.sb j).toNat < (lenAt s.len j).toNat) →
      Effect .setpkgn s okResponse { clearStaging s with pkgNl := stagedIndices s }
  | setseedl (i s c) : isValidContext s i c → s.scnt = s.cfg.r → verifySeed s.cfg (stagedVector s) = true →
      Effect (.setseedl i) s okResponse
        (setContext i (restartStream s.cfg { c with strLin := stagedVector s }) (clearStaging s))
  | setseedn (i s c) : isValidContext s i c → s.scnt = s.nc →
      (∀ j, j < s.nc → (wordAt s.sb j).toNat < (lenAt s.len j).toNat) →
      Effect (.setseedn i) s okResponse
        (setContext i (restartStream s.cfg { c with strNl := stagedIndices s }) (clearStaging s))
  | tbcnt (n s) : 1 ≤ n.toNat → n.toNat ≤ s.cfg.ncMax → Effect (.tbcnt n) s okResponse { s with shNc := n.toNat }
  | tblen (j n s) : j.toNat < s.cfg.ncMax → 1 ≤ n.toNat → n.toNat ≤ s.cfg.lMax →
      Effect (.tblen j n) s okResponse { s with shLen := s.shLen.set j.toNat (n.setWidth 17) }
  | tbwr (j k w s) : j.toNat < s.cfg.ncMax → k.toNat < s.cfg.lMax →
      Effect (.tbwr j k w) s okResponse { s with shTab := memWrite s.shTab (tabAddr j.toNat k.toNat) w }
  | replace (s) : s.instExists = false → Effect .replace s okResponse (installShadow s)
  | readout (i s v) : isReadout i = true → Effect i s (wordResponse v) s

/-- Everything a command can do. -/
theorem exec_cases (i : Instr) (s : State) :
    (∃ e, exec i s = fail e s) ∨ (isDraw i = true ∧ ∃ f, exec i s = .fault f) ∨
    ∃ r s', exec i s = .next (respond r s') ∧ Effect i s r s' := by
  cases i with
  | nextu i =>
    rcases drawWith_cases nextuResponse i s with ⟨_, e⟩ | ⟨c, f, _, _, e⟩ | ⟨c, z, c', h, hm, e⟩
    · exact .inl ⟨_, e⟩
    · exact .inr (.inl ⟨rfl, f, e⟩)
    · exact .inr (.inr ⟨_, _, e, .nextu _ _ _ _ _ h hm⟩)
  | nextw i =>
    rcases drawWith_cases wordResponse i s with ⟨_, e⟩ | ⟨c, f, _, _, e⟩ | ⟨c, z, c', h, hm, e⟩
    · exact .inl ⟨_, e⟩
    · exact .inr (.inl ⟨rfl, f, e⟩)
    · exact .inr (.inr ⟨_, _, e, .nextw _ _ _ _ _ h hm⟩)
  | construct i =>
    cases h : contextAt s i with
    | none => exact .inl ⟨.badInstance, by simp [exec, execConstruct, h]⟩
    | some c => exact .inr (.inr ⟨_, _, by simp only [exec, execConstruct, h]; rfl, .construct _ _ _ h⟩)
  | rststream i =>
    rcases withContext_cases s i (fun c => finish (setContext i (restartStream s.cfg c) s)) with ⟨_, e⟩ | ⟨c, h, e⟩
    · exact .inl ⟨_, e⟩
    · exact .inr (.inr ⟨_, _, e, .rststream _ _ _ h⟩)
  | rstsub i =>
    rcases withContext_cases s i (fun c => finish (setContext i (restartSubstream s.cfg c) s)) with ⟨_, e⟩ | ⟨c, h, e⟩
    · exact .inl ⟨_, e⟩
    · exact .inr (.inr ⟨_, _, e, .rstsub _ _ _ h⟩)
  | nextsub i =>
    rcases withContext_cases s i (fun c => finish (setContext i (restartSubstream s.cfg
        (advanceSubstream s c)) s)) with ⟨_, e⟩ | ⟨c, h, e⟩
    · exact .inl ⟨_, e⟩
    · exact .inr (.inr ⟨_, _, e, .nextsub _ _ _ h⟩)
  | clone d src =>
    cases h : contextAt s d with
    | none => exact .inl ⟨.badInstance, by simp [exec, execClone, h]⟩
    | some old =>
      cases h2 : validContext s src with
      | none => exact .inl ⟨.badInstance, by simp [exec, execClone, h, h2]⟩
      | some c =>
        have hv := (validContext_some s src c).1 h2
        refine .inr (.inr ?_)
        by_cases hd : d = src
        · subst hd
          exact ⟨_, _, by simp only [exec, execClone, h, h2, if_true]; rfl, .cloneSelf _ _ _
              ((contextAt_some s d c).2 ⟨hv.1, hv.2.1⟩) hv⟩
        · exact ⟨_, _, by simp only [exec, execClone, h, h2, if_neg hd]; rfl, .clone _ _ _ _ _ hd h hv⟩
  | sbclr => exact .inr (.inr ⟨_, _, rfl, .sbclr _⟩)
  | sbpush w => exact .inr (.inr ⟨_, _, rfl, .sbpush _ _⟩)
  | setpkgl =>
    rcases withLinearSeed_cases s (fun x => finish { clearStaging s with pkgLin := x }) with ⟨_, e⟩ | ⟨_, _,
        e⟩ | ⟨h1, h2, e⟩
    · exact .inl ⟨_, e⟩
    · exact .inl ⟨_, e⟩
    · exact .inr (.inr ⟨_, _, e, .setpkgl _ h1 h2⟩)
  | setpkgn =>
    rcases withNonlinearSeed_cases s (fun x => finish { clearStaging s with pkgNl := x }) with ⟨_, e⟩ | ⟨⟨h1, h2⟩, e⟩
    · exact .inl ⟨_, e⟩
    · exact .inr (.inr ⟨_, _, e, .setpkgn _ h1 h2⟩)
  | setseedl i =>
    rcases withContext_cases s i (fun c => withLinearSeed s fun x => finish (setContext i
        (restartStream s.cfg { c with strLin := x }) (clearStaging s))) with ⟨_, e⟩ | ⟨c, h, e⟩
    · exact .inl ⟨_, e⟩
    · rcases withLinearSeed_cases s (fun x => finish (setContext i (restartStream s.cfg { c with strLin := x })
        (clearStaging s))) with ⟨_, e'⟩ | ⟨_, _, e'⟩ | ⟨h1, h2, e'⟩
      · exact .inl ⟨_, e.trans e'⟩
      · exact .inl ⟨_, e.trans e'⟩
      · exact .inr (.inr ⟨_, _, e.trans e', .setseedl _ _ _ h h1 h2⟩)
  | setseedn i =>
    rcases withContext_cases s i (fun c => withNonlinearSeed s fun x => finish (setContext i
        (restartStream s.cfg { c with strNl := x }) (clearStaging s))) with ⟨_, e⟩ | ⟨c, h, e⟩
    · exact .inl ⟨_, e⟩
    · rcases withNonlinearSeed_cases s (fun x => finish (setContext i
        (restartStream s.cfg { c with strNl := x }) (clearStaging s))) with ⟨_, e'⟩ | ⟨⟨h1, h2⟩, e'⟩
      · exact .inl ⟨_, e.trans e'⟩
      · exact .inr (.inr ⟨_, _, e.trans e', .setseedn _ _ _ h h1 h2⟩)
  | tbcnt n =>
    by_cases h : 1 ≤ n.toNat ∧ n.toNat ≤ s.cfg.ncMax
    · exact .inr (.inr ⟨_, _, by simp only [exec, execTbcnt, if_pos h]; rfl, .tbcnt _ _ h.1 h.2⟩)
    · exact .inl ⟨.invalidArgument, by simp only [exec, execTbcnt, if_neg h]⟩
  | tblen j n =>
    by_cases h : j.toNat < s.cfg.ncMax ∧ 1 ≤ n.toNat ∧ n.toNat ≤ s.cfg.lMax
    · exact .inr (.inr ⟨_, _, by simp only [exec, execTblen, if_pos h]; rfl, .tblen _ _ _ h.1 h.2.1 h.2.2⟩)
    · exact .inl ⟨.invalidArgument, by simp only [exec, execTblen, if_neg h]⟩
  | tbwr j k w =>
    by_cases h : j.toNat < s.cfg.ncMax ∧ k.toNat < s.cfg.lMax
    · exact .inr (.inr ⟨_, _, by simp only [exec, execTbwr, if_pos h]; rfl, .tbwr _ _ _ _ h.1 h.2⟩)
    · exact .inl ⟨.invalidArgument, by simp only [exec, execTbwr, if_neg h]⟩
  | replace =>
    by_cases h : s.instExists = true
    · exact .inl ⟨.illegalState, by simp only [exec, execReplace, if_pos h]⟩
    · exact .inr (.inr ⟨_, _, by simp only [exec, execReplace, if_neg h]; rfl, .replace _ (by simpa using h)⟩)
  | rdlin lvl i k =>
    have fin : ∀ bank : Vec × List Idx, exec (.rdlin lvl i k) s = (if k.toNat < s.cfg.r then finishWord
        (wordAt bank.1 k.toNat) s else fail .invalidArgument s) → (∃ e, exec (.rdlin lvl i k) s = fail e s) ∨
        (isDraw (.rdlin lvl i k) = true ∧ ∃ f, exec (.rdlin lvl i k) s = .fault f) ∨ ∃ r s', exec
        (.rdlin lvl i k) s = .next (respond r s') ∧ Effect (.rdlin lvl i k) s r s' := by
      intro bank e
      split_ifs at e
      · exact .inr (.inr ⟨_, _, e, .readout _ _ _ rfl⟩)
      · exact .inl ⟨_, e⟩
    rcases withLevelBank_cases lvl i s (fun bank => if k.toNat < s.cfg.r then finishWord
        (wordAt bank.1 k.toNat) s else fail .invalidArgument s) with ⟨_, _, e⟩ | ⟨_, _, e⟩ | ⟨_, _, e⟩ | ⟨c, bank,
        _, _, e, _⟩
    · exact .inl ⟨_, e⟩
    · exact fin _ e
    · exact .inl ⟨_, e⟩
    · exact fin _ e
  | rdnl lvl i k =>
    have fin : ∀ bank : Vec × List Idx, exec (.rdnl lvl i k) s = (if k.toNat < s.nc then finishWord
        ((idxAt bank.2 k.toNat).setWidth 32) s else fail .invalidArgument s) → (∃ e, exec
        (.rdnl lvl i k) s = fail e s) ∨ (isDraw (.rdnl lvl i k) = true ∧ ∃ f, exec (.rdnl lvl i k) s = .fault f) ∨
        ∃ r s', exec (.rdnl lvl i k) s = .next (respond r s') ∧ Effect (.rdnl lvl i k) s r s' := by
      intro bank e
      split_ifs at e
      · exact .inr (.inr ⟨_, _, e, .readout _ _ _ rfl⟩)
      · exact .inl ⟨_, e⟩
    rcases withLevelBank_cases lvl i s (fun bank => if k.toNat < s.nc then finishWord
        ((idxAt bank.2 k.toNat).setWidth 32) s else fail .invalidArgument s) with ⟨_, _, e⟩ | ⟨_, _, e⟩ | ⟨_, _,
        e⟩ | ⟨c, bank, _, _, e, _⟩
    · exact .inl ⟨_, e⟩
    · exact fin _ e
    · exact .inl ⟨_, e⟩
    · exact fin _ e
  | rdtab j k =>
    cases h : tabCell s j.toNat k.toNat with
    | none => exact .inl ⟨.invalidArgument, by simp only [exec, execRdtab, h]⟩
    | some w => exact .inr (.inr ⟨_, _, by simp only [exec, execRdtab, h]; rfl, .readout _ _ _ rfl⟩)
  | rdcfg g t =>
    cases h : configItem s g t with
    | none => exact .inl ⟨.invalidArgument, by simp only [exec, execRdcfg, h]⟩
    | some w => exact .inr (.inr ⟨_, _, by simp only [exec, execRdcfg, h]; rfl, .readout _ _ _ rfl⟩)
  | rdstat => exact .inr (.inr ⟨_, _, rfl, .readout _ _ _ rfl⟩)

theorem effect_out {i : Instr} {s s' : State} {r : Response} (h : Effect i s r s') : s'.out = s.out := by
  cases h
  case sbpush => unfold pushStaging; split_ifs <;> rfl
  all_goals rfl

theorem effect_st {i : Instr} {s s' : State} {r : Response} (h : Effect i s r s') : r.st = 0 := by cases h <;> rfl

theorem errorCode_ne (e : ErrorKind) : errorCode e ≠ 0 := by cases e <;> decide

/-- A command that answers a next state has failed or has had its effect. -/
theorem next_cases {i : Instr} {s t : State} (h : exec i s = .next t) :
    (∃ e, t = refusedWith (errorCode e) s ∧ exec i s = fail e s) ∨
    ∃ r s', t = respond r s' ∧ Effect i s r s' := by
  rcases exec_cases i s with ⟨e, he⟩ | ⟨_, f, he⟩ | ⟨r, s', he, hf⟩
  · rw [he, fail_eq] at h; cases h; exact .inl ⟨e, rfl, he⟩
  · rw [he] at h; cases h
  · rw [he] at h; cases h; exact .inr ⟨r, s', rfl, hf⟩

/-- The same, with the response that ends the command. -/
theorem next_resp {i : Instr} {s t : State} {r : Response} (h : exec i s = .next t) (hr : endedWith s t r) :
    (∃ e, r = ⟨errorCode e, 0, 0, 0⟩ ∧ t = refusedWith (errorCode e) s ∧ exec i s = fail e s) ∨
    ∃ s', t = respond r s' ∧ Effect i s r s' := by
  rcases next_cases h with ⟨e, rfl, he⟩ | ⟨r', s', rfl, hf⟩
  · have : (⟨errorCode e, 0, 0, 0⟩ : Response) = r := by simpa [endedWith, refusedWith] using hr
    exact .inl ⟨e, this.symm, rfl, he⟩
  · have : r' = r := by simpa [endedWith, respond, effect_out hf] using hr
    subst this
    exact .inr ⟨s', rfl, hf⟩

end Sys2Proof.Machine
end

