-- ==== Sys2Proof/Laws/Gf2.lean ====
section
/-! SUPPORT. Bits of words and vectors over GF(2), and POW2MOD: the small laws MATVEC and the offsets rest on. -/

namespace Sys2Proof.Machine

theorem natOfBits_lt (f : Nat → Bool) (n : Nat) : natOfBits f n < 2 ^ n := by
  induction n with
  | zero => simp [natOfBits]
  | succ n ih => unfold natOfBits; rw [Nat.pow_succ]; split_ifs <;> omega

theorem natOfBits_testBit (f : Nat → Bool) (n b : Nat) :
    (natOfBits f n).testBit b = (decide (b < n) && f b) := by
  induction n with
  | zero => simp [natOfBits]
  | succ n ih =>
    have hlt := natOfBits_lt f n
    unfold natOfBits
    by_cases hf : f n = true
    · rw [if_pos hf, Nat.add_comm]
      rcases Nat.lt_trichotomy b n with h | rfl | h
      · rw [Nat.testBit_two_pow_add_gt h, ih]; simp [h, Nat.lt_succ_of_lt h]
      · rw [Nat.testBit_two_pow_add_eq, ih]; simp [hf]
      · have : 2 ^ n + natOfBits f n < 2 ^ b :=
          lt_of_lt_of_le (by rw [Nat.pow_succ]; omega) (Nat.pow_le_pow_right (by decide) h)
        rw [Nat.testBit_lt_two_pow this]; simp; omega
    · rw [if_neg hf, Nat.add_zero, ih]
      rcases Nat.lt_trichotomy b n with h | rfl | h
      · simp [h, Nat.lt_succ_of_lt h]
      · simp [hf]
      · have h1 : ¬ b < n := by omega
        have h2 : ¬ b < n + 1 := by omega
        simp [h1, h2]

/-- Bit `b` of the word built from `f` is `f b`. -/
theorem wordOfBits_getLsbD (f : Nat → Bool) (b : Nat) : (wordOfBits f).getLsbD b = (decide (b < 32) && f b) := by
  simp only [wordOfBits, BitVec.getLsbD_ofNat, natOfBits_testBit]
  by_cases h : b < 32 <;> simp [h]

theorem wordOfBits_congr (f g : Nat → Bool) (h : ∀ b, b < 32 → f b = g b) : wordOfBits f = wordOfBits g := by
  apply BitVec.eq_of_getLsbD_eq
  intro b hb
  rw [wordOfBits_getLsbD, wordOfBits_getLsbD, h b hb]

/-! ## XOR of bits -/

theorem xorBits_congr (f g : Nat → Bool) (n : Nat) (h : ∀ b, b < n → f b = g b) : xorBits f n = xorBits g n := by
  induction n with
  | zero => rfl
  | succ n ih => simp only [xorBits]; rw [h n (by omega), ih fun b hb => h b (by omega)]

theorem xorBits_false (n : Nat) : xorBits (fun _ => false) n = false := by
  induction n with
  | zero => rfl
  | succ n ih => simp [xorBits, ih]

/-- The XOR of a pointwise XOR. -/
theorem xorBits_xor (f g : Nat → Bool) (n : Nat) :
    xorBits (fun b => f b ^^ g b) n = (xorBits f n ^^ xorBits g n) := by
  induction n with
  | zero => rfl
  | succ n ih => simp only [xorBits, ih]; cases f n <;> cases g n <;> simp

/-- Only the selected bit counts. -/
theorem xorBits_single (f : Nat → Bool) (i n : Nat) :
    xorBits (fun b => decide (b = i) && f b) n = (decide (i < n) && f i) := by
  induction n with
  | zero => simp [xorBits]
  | succ n ih =>
    simp only [xorBits, ih]
    rcases Nat.lt_trichotomy i n with h | rfl | h
    · have h1 : ¬ n = i := by omega
      simp [h, h1, Nat.lt_succ_of_lt h]
    · simp
    · have h1 : ¬ n = i := by omega
      have h2 : ¬ i < n := by omega
      have h3 : ¬ i < n + 1 := by omega
      simp [h1, h2, h3]

/-- The XOR of the first `m + n` bits, split. -/
theorem xorBits_add (f : Nat → Bool) (m n : Nat) :
    xorBits f (m + n) = (xorBits (fun b => f (m + b)) n ^^ xorBits f m) := by
  induction n with
  | zero => simp [xorBits]
  | succ n ih => rw [← Nat.add_assoc]; simp only [xorBits, ih]; cases f (m + n) <;> simp

/-! ## Vectors -/

theorem vecXor_length (x y : Vec) (h : x.length = y.length) : (vecXor x y).length = x.length := by
  simp [vecXor, h]

/-- The parity of a vector is the XOR of all its bits. -/
theorem parity_eq_xorBits (v : Vec) : parity v = xorBits (fun c => vecBit v c) (32 * v.length) := by
  induction v with
  | nil => rfl
  | cons w v ih =>
    rw [parity, ih, List.length_cons, show 32 * (v.length + 1) = 32 + 32 * v.length by omega, xorBits_add, Bool.xor_comm]
    congr 1
    refine xorBits_congr _ _ _ fun b _ => ?_
    simp [vecBit, show (32 + b) / 32 = b / 32 + 1 by omega]

theorem vecBit_vecAnd (x y : Vec) (c : Nat) : vecBit (vecAnd x y) c = (vecBit x c && vecBit y c) := by
  unfold vecBit vecAnd
  simp only [List.getD_eq_getElem?_getD, List.getElem?_zipWith]
  cases x[c / 32]? <;> cases y[c / 32]? <;> simp

theorem vecBit_vecXor (x y : Vec) (h : x.length = y.length) (c : Nat) :
    vecBit (vecXor x y) c = (vecBit x c ^^ vecBit y c) := by
  unfold vecBit vecXor
  simp only [List.getD_eq_getElem?_getD, List.getElem?_zipWith]
  by_cases hc : c / 32 < x.length
  · rw [List.getElem?_eq_getElem hc, List.getElem?_eq_getElem (h ▸ hc)]; simp
  · rw [List.getElem?_eq_none (by omega), List.getElem?_eq_none (by omega)]; simp

theorem vecBit_zeroVec (n c : Nat) : vecBit (zeroVec n) c = false := by
  unfold vecBit zeroVec
  by_cases h : c / 32 < n <;> simp [List.getD_eq_getElem?_getD, h]

/-- Vectors of one length with equal bits are equal. -/
theorem vec_ext (x y : Vec) (h : x.length = y.length) (hb : ∀ c, c < 32 * x.length → vecBit x c = vecBit y c) :
    x = y := by
  apply List.ext_getElem h
  intro k hk hk'
  apply BitVec.eq_of_getLsbD_eq
  intro b hb'
  have := hb (32 * k + b) (by omega)
  have e1 : (32 * k + b) / 32 = k := by omega
  have e2 : (32 * k + b) % 32 = b := by omega
  simpa [vecBit, e1, e2, List.getD_eq_getElem?_getD, hk, hk'] using this

/-! ## MATVEC and the matrix product: shapes -/

theorem matvec_length (m : Matrix) (x : Vec) : (matvec m x).length = m.length / 32 := by simp [matvec]

theorem matMul_length (n : Nat) (a c : Matrix) : (matMul n a c).length = a.length := by simp [matMul]

theorem powSq_length (n : Nat) (m : Matrix) (e : Nat) : (powSq n m e).length = m.length := by
  induction e with
  | zero => rfl
  | succ e ih => rw [powSq, matMul_length, ih]

/-- Squaring `a` times and then `b` times is squaring `a + b` times. -/
theorem powSq_add (n : Nat) (m : Matrix) (a b : Nat) : powSq n (powSq n m a) b = powSq n m (a + b) := by
  induction b with
  | zero => rfl
  | succ b ih => rw [← Nat.add_assoc, powSq, powSq, ih]

/-! ## POW2MOD -/

/-- An offset stays below its length. -/
theorem pow2Mod_lt (e l : Nat) (h : 1 ≤ l) : pow2Mod e l < l := by
  cases e <;> exact Nat.mod_lt _ h

end Sys2Proof.Machine
end

