-- ==== Sys2Proof/Laws/Memory.lean ====
section
/-! SUPPORT. The laws of the table memories: read after write, the frame of a write, and that every memory operation
keeps the canonical form. -/

namespace Sys2Proof.Machine

theorem memory_wf_cons (a : Nat) (v : Word) (m : Memory) :
    Memory.wf ((a, v) :: m) = true ↔ v ≠ 0 ∧ (∀ c ∈ m, a < c.1) ∧ Memory.wf m = true := by
  simp [Memory.wf, List.all_eq_true, and_assoc]

/-- An address below every listed one reads 0. -/
theorem memRead_below (m : Memory) (x : Nat) (h : ∀ c ∈ m, x < c.1) : memRead m x = 0 := by
  induction m with
  | nil => rfl
  | cons c m ih =>
    obtain ⟨a, v⟩ := c
    have ha : x < a := h (a, v) (by simp)
    rw [memRead, if_neg (by omega)]
    exact ih fun c hc => h c (by simp [hc])

theorem memRead_memWrite_self (m : Memory) (x : Nat) (w : Word) (h : m.wf = true) :
    memRead (memWrite m x w) x = w := by
  induction m with
  | nil =>
    unfold memWrite
    split_ifs with hw
    · simp [memRead, hw]
    · simp [memRead]
  | cons c m ih =>
    obtain ⟨a, v⟩ := c
    obtain ⟨-, hlt, hm⟩ := (memory_wf_cons a v m).1 h
    unfold memWrite
    split_ifs with h1 h2 h3 h4
    · subst h2
      exact memRead_below _ _ (by rintro c hc; rcases List.mem_cons.1 hc with rfl | hc; exacts [h1, lt_trans h1 (hlt c hc)])
    · simp [memRead]
    · subst h3; subst h4
      exact memRead_below _ _ hlt
    · simp [memRead]
    · rw [memRead, if_neg (by omega)]
      exact ih hm

theorem memRead_memWrite_other (m : Memory) (x y : Nat) (w : Word) (h : m.wf = true) (hxy : y ≠ x) :
    memRead (memWrite m x w) y = memRead m y := by
  induction m with
  | nil =>
    unfold memWrite
    split_ifs
    · rfl
    · simp [memRead, hxy.symm]
  | cons c m ih =>
    obtain ⟨a, v⟩ := c
    obtain ⟨-, hlt, hm⟩ := (memory_wf_cons a v m).1 h
    unfold memWrite
    split_ifs with h1 h2 h3 h4
    · rfl
    · rw [memRead, if_neg hxy.symm]
    · rw [memRead, if_neg (by omega)]
    · rw [memRead, if_neg hxy.symm, memRead, if_neg (by omega)]
    · rw [memRead, memRead, ih hm]

/-- A write lists no address but the old ones and its own. -/
theorem mem_memWrite (m : Memory) (x : Nat) (w : Word) (c : Nat × Word) (hc : c ∈ memWrite m x w) :
    c ∈ m ∨ c = (x, w) := by
  induction m with
  | nil =>
    by_cases hw : w = 0 <;> simp_all [memWrite]
  | cons d m ih =>
    obtain ⟨a, v⟩ := d
    unfold memWrite at hc
    split_ifs at hc with h1 h2 h3 h4
    · exact .inl hc
    · rcases List.mem_cons.1 hc with h | h
      exacts [.inr h, .inl h]
    · exact .inl (List.mem_cons_of_mem _ hc)
    · rcases List.mem_cons.1 hc with h | h
      exacts [.inr h, .inl (List.mem_cons_of_mem _ h)]
    · rcases List.mem_cons.1 hc with h | h
      · exact .inl (h ▸ List.mem_cons_self)
      · rcases ih h with h | h
        exacts [.inl (List.mem_cons_of_mem _ h), .inr h]

theorem memWrite_wf (m : Memory) (x : Nat) (w : Word) (h : m.wf = true) : (memWrite m x w).wf = true := by
  induction m with
  | nil =>
    unfold memWrite
    split_ifs with hw
    · rfl
    · exact (memory_wf_cons _ _ _).2 ⟨hw, by simp, rfl⟩
  | cons c m ih =>
    obtain ⟨a, v⟩ := c
    obtain ⟨hv, hlt, hm⟩ := (memory_wf_cons a v m).1 h
    unfold memWrite
    split_ifs with h1 h2 h3 h4
    · exact h
    · refine (memory_wf_cons _ _ _).2 ⟨h2, ?_, h⟩
      rintro c hc
      rcases List.mem_cons.1 hc with rfl | hc
      exacts [h1, lt_trans h1 (hlt c hc)]
    · exact hm
    · exact (memory_wf_cons _ _ _).2 ⟨h4, h3 ▸ hlt, hm⟩
    · refine (memory_wf_cons _ _ _).2 ⟨hv, ?_, ih hm⟩
      rintro c hc
      rcases mem_memWrite m x w c hc with hc | rfl
      · exact hlt c hc
      · show a < x
        omega

theorem memRestrict_wf (nc : Nat) (len : List Len) (m : Memory) (h : m.wf = true) :
    (memRestrict nc len m).wf = true := by
  induction m with
  | nil => rfl
  | cons c m ih =>
    obtain ⟨a, v⟩ := c
    obtain ⟨hv, hlt, hm⟩ := (memory_wf_cons a v m).1 h
    rw [memRestrict, List.filter_cons]
    split_ifs
    · exact (memory_wf_cons _ _ _).2 ⟨hv, fun c hc => hlt c (List.mem_of_mem_filter hc), ih hm⟩
    · exact ih hm

/-- The bulk copy keeps exactly the words of the cells of the new data set. -/
theorem memRead_memRestrict (nc : Nat) (len : List Len) (m : Memory) (a : Nat) :
    memRead (memRestrict nc len m) a = if cellActive nc len a = true then memRead m a else 0 := by
  induction m with
  | nil => simp [memRestrict, memRead]
  | cons c m ih =>
    obtain ⟨b, v⟩ := c
    by_cases hb : b = a
    · subst hb
      rw [memRestrict, List.filter_cons]
      by_cases hact : cellActive nc len b = true
      · simp [hact, memRead]
      · simp only [hact]
        simpa [memRestrict, hact] using ih
    · rw [memRestrict, List.filter_cons]
      split_ifs with h1 h2
      all_goals simp_all [memRead, memRestrict]

theorem mem_memRestrict (nc : Nat) (len : List Len) (m : Memory) (c : Nat × Word)
    (hc : c ∈ memRestrict nc len m) : c ∈ m ∧ cellActive nc len c.1 = true := by
  simpa [memRestrict] using hc

/-- The address of a cell determines it. -/
theorem tabAddr_div (j k : Nat) (hk : k < 65536) : tabAddr j k / 65536 = j := by
  unfold tabAddr; omega

theorem tabAddr_mod (j k : Nat) (hk : k < 65536) : tabAddr j k % 65536 = k := by
  unfold tabAddr; omega

/-! ## The reset contents -/

/-- The cells of one table lie between the addresses of its first word and its end. -/
theorem mem_tableCells (j : Nat) (ws : List Word) : ∀ (k : Nat) (c : Nat × Word), c ∈ tableCells j k ws →
    c.2 ≠ 0 ∧ tabAddr j k ≤ c.1 ∧ c.1 < tabAddr j k + ws.length := by
  induction ws with
  | nil => intro k c h; cases h
  | cons w ws ih =>
    intro k c h
    unfold tableCells at h
    have key : c ∈ tableCells j (k + 1) ws →
        c.2 ≠ 0 ∧ tabAddr j k ≤ c.1 ∧ c.1 < tabAddr j k + (w :: ws).length := by
      intro h'
      obtain ⟨h1, h2, h3⟩ := ih (k + 1) c h'
      simp only [tabAddr, List.length_cons] at *
      exact ⟨h1, by omega, by omega⟩
    split_ifs at h with hw
    · exact key h
    · rcases List.mem_cons.1 h with rfl | h'
      · exact ⟨hw, le_refl _, by simp⟩
      · exact key h'

theorem tableCells_wf (j : Nat) (ws : List Word) : ∀ k : Nat, (tableCells j k ws).wf = true := by
  induction ws with
  | nil => intro k; rfl
  | cons w ws ih =>
    intro k
    unfold tableCells
    split_ifs with hw
    · exact ih (k + 1)
    · refine (memory_wf_cons _ _ _).2 ⟨hw, fun c hc => ?_, ih (k + 1)⟩
      obtain ⟨-, h, -⟩ := mem_tableCells j ws (k + 1) c hc
      simp only [tabAddr] at *
      omega

theorem memory_wf_append (m n : Memory) (hm : m.wf = true) (hn : n.wf = true)
    (h : ∀ c ∈ m, ∀ d ∈ n, c.1 < d.1) : Memory.wf (m ++ n) = true := by
  induction m with
  | nil => exact hn
  | cons c m ih =>
    obtain ⟨h1, h2, h3⟩ := (memory_wf_cons c.1 c.2 m).1 hm
    refine (memory_wf_cons c.1 c.2 (m ++ n)).2 ⟨h1, fun d hd => ?_, ih h3 fun c hc d hd => h c (by simp [hc]) d hd⟩
    rcases List.mem_append.1 hd with h' | h'
    · exact h2 d h'
    · exact h c (by simp) d h'

/-- The cells of the tables `j`, `j+1`, … lie at or above the first word of table `j`. -/
theorem mem_tablesMemory (ts : List (List Word)) : ∀ (j : Nat) (c : Nat × Word), c ∈ tablesMemory j ts →
    ∃ i t, ts[i]? = some t ∧ c ∈ tableCells (j + i) 0 t := by
  induction ts with
  | nil => intro j c h; cases h
  | cons t ts ih =>
    intro j c h
    rcases List.mem_append.1 h with h' | h'
    · exact ⟨0, t, rfl, h'⟩
    · obtain ⟨i, u, hu, hc⟩ := ih (j + 1) c h'
      exact ⟨i + 1, u, hu, by rwa [show j + (i + 1) = j + 1 + i by omega]⟩

/-- The memory built from tables of at most 65536 words each is canonical: the reset contents of TAB and SH_TAB. -/
theorem tablesMemory_wf (ts : List (List Word)) (h : ∀ t ∈ ts, t.length ≤ 65536) :
    ∀ j : Nat, (tablesMemory j ts).wf = true := by
  induction ts with
  | nil => intro j; rfl
  | cons t ts ih =>
    intro j
    refine memory_wf_append _ _ (tableCells_wf j t 0) (ih (fun u hu => h u (by simp [hu])) (j + 1)) fun c hc d hd => ?_
    obtain ⟨-, -, h1⟩ := mem_tableCells j t 0 c hc
    obtain ⟨i, u, -, hd⟩ := mem_tablesMemory ts (j + 1) d hd
    obtain ⟨-, h2, -⟩ := mem_tableCells (j + 1 + i) u 0 d hd
    have := h t (by simp)
    simp only [tabAddr] at *
    omega

end Sys2Proof.Machine
end

