-- ==== Sys2Proof/Laws/PerInstr.lean ====
section
/-! SUPPORT. The laws stated once per instruction. -/

namespace Sys2Proof.Laws

/-- The opcode field of the command built from the fields is the opcode given. -/
theorem opField_commandOf (op ia : BitVec 8) (ix : BitVec 16) (dw : Word) :
    opField (commandOf op ia ix dw) = op := by
  ext b hb
  simp only [opField, commandOf, BitVec.getElem_extractLsb', BitVec.getLsbD_append]
  grind

/-- The instance field of the command built from the fields. -/
theorem iaField_commandOf (op ia : BitVec 8) (ix : BitVec 16) (dw : Word) :
    iaField (commandOf op ia ix dw) = ia := by
  ext b hb
  simp only [iaField, commandOf, BitVec.getElem_extractLsb', BitVec.getLsbD_append]
  grind

/-- The index field of the command built from the fields. -/
theorem ixField_commandOf (op ia : BitVec 8) (ix : BitVec 16) (dw : Word) :
    ixField (commandOf op ia ix dw) = ix := by
  ext b hb
  simp only [ixField, commandOf, BitVec.getElem_extractLsb', BitVec.getLsbD_append]
  grind

end Sys2Proof.Laws

/-- The encoder puts the opcode of spec/30_encoding.md R83 in `CW[31:24]`, whatever the operands. -/
def Sys2Proof.Laws.EncodedOpcode.Statement : Sys2Proof.Instr → Prop :=
  fun i => Sys2Proof.opField (Sys2Proof.encode i) = i.opcode

open Sys2Proof

theorem Sys2Proof.Laws.EncodedOpcode.nextu (i : BitVec 8) :
    Sys2Proof.Laws.EncodedOpcode.Statement (.nextu i) := Sys2Proof.Laws.opField_commandOf _ _ _ _

theorem Sys2Proof.Laws.EncodedOpcode.nextw (i : BitVec 8) :
    Sys2Proof.Laws.EncodedOpcode.Statement (.nextw i) := Sys2Proof.Laws.opField_commandOf _ _ _ _

theorem Sys2Proof.Laws.EncodedOpcode.construct (i : BitVec 8) :
    Sys2Proof.Laws.EncodedOpcode.Statement (.construct i) := Sys2Proof.Laws.opField_commandOf _ _ _ _

theorem Sys2Proof.Laws.EncodedOpcode.rststream (i : BitVec 8) :
    Sys2Proof.Laws.EncodedOpcode.Statement (.rststream i) := Sys2Proof.Laws.opField_commandOf _ _ _ _

theorem Sys2Proof.Laws.EncodedOpcode.rstsub (i : BitVec 8) :
    Sys2Proof.Laws.EncodedOpcode.Statement (.rstsub i) := Sys2Proof.Laws.opField_commandOf _ _ _ _

theorem Sys2Proof.Laws.EncodedOpcode.nextsub (i : BitVec 8) :
    Sys2Proof.Laws.EncodedOpcode.Statement (.nextsub i) := Sys2Proof.Laws.opField_commandOf _ _ _ _

theorem Sys2Proof.Laws.EncodedOpcode.clone (d src : BitVec 8) :
    Sys2Proof.Laws.EncodedOpcode.Statement (.clone d src) := Sys2Proof.Laws.opField_commandOf _ _ _ _

theorem Sys2Proof.Laws.EncodedOpcode.sbclr :
    Sys2Proof.Laws.EncodedOpcode.Statement (.sbclr) := Sys2Proof.Laws.opField_commandOf _ _ _ _

theorem Sys2Proof.Laws.EncodedOpcode.sbpush (w : Word) :
    Sys2Proof.Laws.EncodedOpcode.Statement (.sbpush w) := Sys2Proof.Laws.opField_commandOf _ _ _ _

theorem Sys2Proof.Laws.EncodedOpcode.setpkgl :
    Sys2Proof.Laws.EncodedOpcode.Statement (.setpkgl) := Sys2Proof.Laws.opField_commandOf _ _ _ _

theorem Sys2Proof.Laws.EncodedOpcode.setpkgn :
    Sys2Proof.Laws.EncodedOpcode.Statement (.setpkgn) := Sys2Proof.Laws.opField_commandOf _ _ _ _

theorem Sys2Proof.Laws.EncodedOpcode.setseedl (i : BitVec 8) :
    Sys2Proof.Laws.EncodedOpcode.Statement (.setseedl i) := Sys2Proof.Laws.opField_commandOf _ _ _ _

theorem Sys2Proof.Laws.EncodedOpcode.setseedn (i : BitVec 8) :
    Sys2Proof.Laws.EncodedOpcode.Statement (.setseedn i) := Sys2Proof.Laws.opField_commandOf _ _ _ _

theorem Sys2Proof.Laws.EncodedOpcode.tbcnt (n : Word) :
    Sys2Proof.Laws.EncodedOpcode.Statement (.tbcnt n) := Sys2Proof.Laws.opField_commandOf _ _ _ _

theorem Sys2Proof.Laws.EncodedOpcode.tblen (j : BitVec 8) (n : Word) :
    Sys2Proof.Laws.EncodedOpcode.Statement (.tblen j n) := Sys2Proof.Laws.opField_commandOf _ _ _ _

theorem Sys2Proof.Laws.EncodedOpcode.tbwr (j : BitVec 8) (k : BitVec 16) (w : Word) :
    Sys2Proof.Laws.EncodedOpcode.Statement (.tbwr j k w) := Sys2Proof.Laws.opField_commandOf _ _ _ _

theorem Sys2Proof.Laws.EncodedOpcode.replace :
    Sys2Proof.Laws.EncodedOpcode.Statement (.replace) := Sys2Proof.Laws.opField_commandOf _ _ _ _

theorem Sys2Proof.Laws.EncodedOpcode.rdlin (lvl : Level) (i k : BitVec 8) :
    Sys2Proof.Laws.EncodedOpcode.Statement (.rdlin lvl i k) := Sys2Proof.Laws.opField_commandOf _ _ _ _

theorem Sys2Proof.Laws.EncodedOpcode.rdnl (lvl : Level) (i j : BitVec 8) :
    Sys2Proof.Laws.EncodedOpcode.Statement (.rdnl lvl i j) := Sys2Proof.Laws.opField_commandOf _ _ _ _

theorem Sys2Proof.Laws.EncodedOpcode.rdtab (j : BitVec 8) (k : BitVec 16) :
    Sys2Proof.Laws.EncodedOpcode.Statement (.rdtab j k) := Sys2Proof.Laws.opField_commandOf _ _ _ _

theorem Sys2Proof.Laws.EncodedOpcode.rdcfg (g t : BitVec 8) :
    Sys2Proof.Laws.EncodedOpcode.Statement (.rdcfg g t) := Sys2Proof.Laws.opField_commandOf _ _ _ _

theorem Sys2Proof.Laws.EncodedOpcode.rdstat :
    Sys2Proof.Laws.EncodedOpcode.Statement (.rdstat) := Sys2Proof.Laws.opField_commandOf _ _ _ _
end

