-- ==== Sys2Proof/Laws/Ref.lean ====
section
/-! SUPPORT. `refOf` builds a configuration REF and keeps the OPEN fields, and every REF is built so; what legality asks
of the capacities of a REF. -/

namespace Sys2Proof.Machine

@[simp] theorem refOf_r (c : Config) : (refOf c).r = 19 := rfl
@[simp] theorem refOf_defNc (c : Config) : (refOf c).defNc = 3 := rfl
@[simp] theorem refOf_defLen (c : Config) : (refOf c).defLen = [1019, 1021, 1031] := rfl
@[simp] theorem refOf_b (c : Config) : (refOf c).b = c.b := rfl
@[simp] theorem refOf_stepM (c : Config) : (refOf c).stepM = c.stepM := rfl
@[simp] theorem refOf_outM (c : Config) : (refOf c).outM = c.outM := rfl
@[simp] theorem refOf_wExp (c : Config) : (refOf c).wExp = c.wExp := rfl
@[simp] theorem refOf_vExp (c : Config) : (refOf c).vExp = c.vExp := rfl
@[simp] theorem refOf_jsubM (c : Config) : (refOf c).jsubM = c.jsubM := rfl
@[simp] theorem refOf_jstrM (c : Config) : (refOf c).jstrM = c.jstrM := rfl
@[simp] theorem refOf_reservedLast (c : Config) : (refOf c).reservedLast = c.reservedLast := rfl
@[simp] theorem refOf_ncMax (c : Config) : (refOf c).ncMax = c.ncMax := rfl
@[simp] theorem refOf_lMax (c : Config) : (refOf c).lMax = c.lMax := rfl
@[simp] theorem refOf_defTab (c : Config) : (refOf c).defTab = c.defTab := rfl
@[simp] theorem refOf_defPkgLin (c : Config) : (refOf c).defPkgLin = c.defPkgLin := rfl
@[simp] theorem refOf_defPkgNl (c : Config) : (refOf c).defPkgNl = c.defPkgNl := rfl
@[simp] theorem refOf_nInst (c : Config) : (refOf c).nInst = c.nInst := rfl

theorem isRef_refOf (c : Config) : IsRef (refOf c) := ⟨rfl, rfl, rfl⟩

theorem refOf_eq_self_iff (c : Config) : refOf c = c ↔ IsRef c := by
  refine ⟨fun h => h ▸ isRef_refOf c, fun ⟨hr, hn, hl⟩ => ?_⟩
  cases c
  cases hr
  cases hn
  cases hl
  rfl

/-- A legal REF has room for three components and for the longest of them (R8). -/
theorem isRef_capacities (c : Config) (hw : ConfigWf c) (hr : IsRef c) : 3 ≤ c.ncMax ∧ 1031 ≤ c.lMax := by
  refine ⟨hr.2.1 ▸ hw.scalars.2.2.2.2.2.1.2.1, (hw.tables.2.1 1031 ?_).2⟩
  rw [hr.2.2]
  exact .tail _ (.tail _ (.head _))

end Sys2Proof.Machine
end

