-- ==== Sys2Proof/Tests/Slice0.lean ====
section
/-! SUPPORT. The model's own tests. Expected values are the spec's: the encoding tables and worked encodings of
spec/30_encoding.md, the examples in the command rules (configuration T64), spec/95_test_vectors.md and
spec/97_t64_matrices.md. After them, one witness for every statement that has hypotheses. -/

namespace Sys2Proof.Tests

set_option Elab.async false

open Sys2Proof Sys2Proof.Machine

/-! ## Well-formedness: each check refuses an ill-formed term -/

theorem test_rdlin_package_instance_refused : Instr.wf (.rdlin .pkg 1 0) = false := by decide
theorem test_rdnl_package_instance_refused : Instr.wf (.rdnl .pkg 255 0) = false := by decide
theorem test_rdlin_package_accepted : Instr.wf (.rdlin .pkg 0 7) = true := by decide
theorem test_rdnl_stream_accepted : Instr.wf (.rdnl .str 3 1) = true := by decide

/-! ## Decoding: words written out from R81 and R83, `CW` then `DW` (R80) -/

theorem test_decode_nextu : decodeTableWord 64 0x1003000000000000 = some (.nextu 3) := by decide
theorem test_decode_nextw : decodeTableWord 64 0x11FF000000000000 = some (.nextw 255) := by decide
theorem test_decode_construct : decodeTableWord 64 0x2002000000000000 = some (.construct 2) := by decide
theorem test_decode_rststream : decodeTableWord 64 0x2101000000000000 = some (.rststream 1) := by decide
theorem test_decode_rstsub : decodeTableWord 64 0x2280000000000000 = some (.rstsub 128) := by decide
theorem test_decode_nextsub : decodeTableWord 64 0x2300000000000000 = some (.nextsub 0) := by decide
theorem test_decode_clone : decodeTableWord 64 0x2401000300000000 = some (.clone 1 3) := by decide
theorem test_decode_sbclr : decodeTableWord 64 0x3000000000000000 = some .sbclr := by decide
theorem test_decode_sbpush : decodeTableWord 64 0x310000009ABCDEF0 = some (.sbpush 0x9ABCDEF0) := by decide
theorem test_decode_setpkgl : decodeTableWord 64 0x3200000000000000 = some .setpkgl := by decide
theorem test_decode_setpkgn : decodeTableWord 64 0x3300000000000000 = some .setpkgn := by decide
theorem test_decode_setseedl : decodeTableWord 64 0x3402000000000000 = some (.setseedl 2) := by decide
theorem test_decode_setseedn : decodeTableWord 64 0x3503000000000000 = some (.setseedn 3) := by decide
theorem test_decode_tbcnt : decodeTableWord 64 0x4000000080000001 = some (.tbcnt 0x80000001) := by decide
theorem test_decode_tblen : decodeTableWord 64 0x4105000000010000 = some (.tblen 5 65536) := by decide
theorem test_decode_tbwr : decodeTableWord 64 0x42010203B6DB6DB6 = some (.tbwr 1 0x0203 0xB6DB6DB6) := by decide
theorem test_decode_replace : decodeTableWord 64 0x4300000000000000 = some .replace := by decide
theorem test_decode_rdlin : decodeTableWord 64 0x5001030200000000 = some (.rdlin .cur 1 2) := by decide
theorem test_decode_rdnl : decodeTableWord 64 0x5100000200000000 = some (.rdnl .pkg 0 2) := by decide
theorem test_decode_rdtab : decodeTableWord 64 0x5202010300000000 = some (.rdtab 2 0x0103) := by decide
theorem test_decode_rdcfg : decodeTableWord 64 0x5300030100000000 = some (.rdcfg 3 1) := by decide
theorem test_decode_rdstat : decodeTableWord 64 0x5400000000000000 = some .rdstat := by decide

theorem test_decode_levels :
    decodeTableWord 64 0x5004010000000000 = some (.rdlin .str 4 0) ∧
    decodeTableWord 64 0x5104020000000000 = some (.rdnl .sub 4 0) ∧
    decodeTableWord 64 0x5100040000000000 = none ∧ decodeTableWord 64 0x5001000000000000 = none := by decide

theorem test_decode_reserved_and_undefined :
    decodeTableWord 64 0x1000000100000000 = none ∧ decodeTableWord 64 0x1000000000000001 = none ∧
    decodeTableWord 64 0x3001000000000000 = none ∧ decodeTableWord 64 0x2400010000000000 = none ∧
    decodeTableWord 64 0x5200000000000001 = none ∧ decodeTableWord 64 0xFF00000000000000 = none ∧
    decodeTableWord 64 0x1200000000000000 = none ∧ decodeTableWord 64 0 = none := by decide

/-! ## Helpers -/

/-- The state an outcome leads to; the model's reset state where it stops. -/
def stateOf : Result → State
  | .next t => t
  | _ => State.reset

/-- The outcome is a next state. -/
def isNext : Result → Bool
  | .next _ => true
  | _ => false

theorem next_of (o : Result) (h : isNext o = true) : o = .next (stateOf o) := by
  cases o <;> simp_all [isNext, stateOf]

/-- The state after the commands, from the model's reset state. -/
def after (is : List Instr) : State := stateOf (runInstrs is State.reset)

/-- One step from `s` with the command word `w` presented. -/
def stepWord (s : State) (w : Nat) : State := stateOf (step (s.withFetchWord 64 w))

/-- The last response. -/
def answer (s : State) : Option Response := s.out.getLast?

/-- The status of the last response. -/
def status (s : State) : Option (BitVec 8) := (answer s).map Response.st

/-- The word of the last response. -/
def word (s : State) : Option Word := (answer s).map Response.rz

/-- Context `n`. -/
def ctx (s : State) (n : Nat) : Context := s.insts.getD n (Context.reset s.cfg)

/-- After CONSTRUCT of `i0`. -/
def demo : State := after [.construct 0]

/-! ## One step of each command, configuration T64 -/

/-- R183, program P1. -/
theorem test_nextu_first_draw :
    answer (stepWord demo 0x1000000000000000) = some ⟨0, 0xC315D7A2, 0xC315D7A2, 0x3FE862BAF4279D45⟩ := by
  decide +kernel

/-- R183: what the first draw leaves in the context. -/
theorem test_nextu_cursor :
    (ctx (stepWord demo 0x1000000000000000) 0).curLin = [0xB462A0D4, 0x337FF29A] ∧
    (ctx (stepWord demo 0x1000000000000000) 0).curNl = [1, 1, 1] ∧
    (ctx (stepWord demo 0x1000000000000000) 0).bufCur = 1 ∧
    (ctx (stepWord demo 0x1000000000000000) 0).subLin = [0x12345678, 0x9ABCDEF0] := by
  decide +kernel

/-- R184, program P4. -/
theorem test_nextw_first_draw : answer (stepWord demo 0x1100000000000000) = some ⟨0, 0xC315D7A2, 0, 0⟩ := by
  decide +kernel

/-- R184: an instance nothing has constructed. -/
theorem test_nextw_bad_instance : answer (stepWord demo 0x1101000000000000) = some ⟨5, 0, 0, 0⟩ := by
  decide +kernel

/-- R161. -/
theorem test_construct_package_advances :
    (stepWord State.reset 0x2000000000000000).pkgLin = [0x53B4983A, 0x49E48C9E] ∧
    (stepWord State.reset 0x2000000000000000).pkgNl = [4, 2, 2] ∧
    (stepWord State.reset 0x2000000000000000).instExists = true := by
  decide +kernel

/-- R161. -/
theorem test_construct_context :
    ctx (stepWord State.reset 0x2000000000000000) 0 =
      ⟨true, [0x12345678, 0x9ABCDEF0], [0, 0, 0], [0x12345678, 0x9ABCDEF0], [0, 0, 0],
        [0x12345678, 0x9ABCDEF0], [0, 0, 0], [0], 1⟩ := by
  decide +kernel

/-- R162, program P1. -/
theorem test_rststream_restores_origin :
    (ctx (stepWord (after [.construct 0, .nextsub 0]) 0x2100000000000000) 0).subLin = [0x12345678, 0x9ABCDEF0] ∧
    (ctx (stepWord (after [.construct 0, .nextsub 0]) 0x2100000000000000) 0).curNl = [0, 0, 0] := by
  decide +kernel

/-- R163: the cursor returns, the buffer is invalidated, the substream origin stays. -/
theorem test_rstsub_restores_cursor :
    (ctx (stepWord (after [.construct 0, .nextsub 0, .nextu 0]) 0x2200000000000000) 0).curLin =
      [0xD1A90E9C, 0x91B04384] ∧
    (ctx (stepWord (after [.construct 0, .nextsub 0, .nextu 0]) 0x2200000000000000) 0).curNl = [1, 3, 2] ∧
    (ctx (stepWord (after [.construct 0, .nextsub 0, .nextu 0]) 0x2200000000000000) 0).bufCur = 1 := by
  decide +kernel

/-- R164. -/
theorem test_nextsub_jumps :
    (ctx (stepWord demo 0x2300000000000000) 0).subLin = [0xD1A90E9C, 0x91B04384] ∧
    (ctx (stepWord demo 0x2300000000000000) 0).curNl = [1, 3, 2] ∧
    (ctx (stepWord demo 0x2300000000000000) 0).strLin = [0x12345678, 0x9ABCDEF0] := by
  decide +kernel

/-- R164: the gap is taken from the origin, not from the live cursor. -/
theorem test_nextsub_ignores_cursor :
    (ctx (stepWord (after [.construct 0, .nextu 0]) 0x2300000000000000) 0).curLin = [0xD1A90E9C, 0x91B04384] := by
  decide +kernel

/-- R165: destination 1, source 0, cursor and buffer included. -/
theorem test_clone_copies :
    ctx (stepWord (after [.construct 0, .nextu 0]) 0x2401000000000000) 1 = ctx (after [.construct 0, .nextu 0]) 0 ∧
    (stepWord (after [.construct 0, .nextu 0]) 0x2401000000000000).pkgLin = demo.pkgLin := by
  decide +kernel

/-- R165: source 1 is not valid. -/
theorem test_clone_bad_source : status (stepWord demo 0x2402000100000000) = some 5 := by decide +kernel

/-- R195: clears the overflow condition. -/
theorem test_sbclr_clears_overflow :
    (stepWord (after [.sbpush 1, .sbpush 2, .sbpush 3, .sbpush 4, .sbpush 5]) 0x3000000000000000).scnt = 0 := by
  decide +kernel

/-- R196. -/
theorem test_sbpush_appends :
    (stepWord (after [.sbpush 7]) 0x3100000012345678).sb.take 2 = [7, 0x12345678] ∧
    (stepWord (after [.sbpush 7]) 0x3100000012345678).scnt = 2 := by
  decide +kernel

/-- R196: `SB_DEPTH = 4` in T64; the fifth word is dropped and the count is 5. -/
theorem test_sbpush_overflows :
    (stepWord (after [.sbpush 1, .sbpush 2, .sbpush 3, .sbpush 4]) 0x3100000000000005).scnt = 5 ∧
    (stepWord (after [.sbpush 1, .sbpush 2, .sbpush 3, .sbpush 4]) 0x3100000000000005).sb = [1, 2, 3, 4] := by
  decide +kernel

/-- R197. -/
theorem test_setpkgl_zero_seed :
    status (stepWord (after [.sbclr, .sbpush 0, .sbpush 0]) 0x3200000000000000) = some 1 ∧
    (stepWord (after [.sbclr, .sbpush 0, .sbpush 0]) 0x3200000000000000).pkgLin = [0x12345678, 0x9ABCDEF0] ∧
    (stepWord (after [.sbclr, .sbpush 0, .sbpush 0]) 0x3200000000000000).scnt = 2 := by
  decide +kernel

/-- R197, R106: the reserved word matters in the final place only. -/
theorem test_setpkgl_installs :
    (stepWord (after [.sbclr, .sbpush 0x80000000, .sbpush 0]) 0x3200000000000000).pkgLin = [0x80000000, 0] ∧
    (stepWord (after [.sbclr, .sbpush 0x80000000, .sbpush 0]) 0x3200000000000000).scnt = 0 ∧
    status (stepWord (after [.sbclr, .sbpush 5, .sbpush 0x80000000]) 0x3200000000000000) = some 1 := by
  decide +kernel

/-- R198. -/
theorem test_setpkgn_installs :
    (stepWord (after [.sbclr, .sbpush 1, .sbpush 2, .sbpush 2]) 0x3300000000000000).pkgNl = [1, 2, 2] := by
  decide +kernel

/-- R198: a wrong length, and an entry equal to its length. -/
theorem test_setpkgn_refuses :
    status (stepWord (after [.sbclr, .sbpush 1, .sbpush 2]) 0x3300000000000000) = some 2 ∧
    status (stepWord (after [.sbclr, .sbpush 1, .sbpush 2, .sbpush 3]) 0x3300000000000000) = some 2 := by
  decide +kernel

/-- R199. -/
theorem test_setseedl_restarts :
    (ctx (stepWord (after [.construct 0, .nextu 0, .sbclr, .sbpush 1, .sbpush 0]) 0x3400000000000000) 0).curLin =
      [1, 0] ∧
    (ctx (stepWord (after [.construct 0, .nextu 0, .sbclr, .sbpush 1, .sbpush 0]) 0x3400000000000000) 0).curNl =
      [0, 0, 0] := by
  decide +kernel

/-- R200. -/
theorem test_setseedn_restarts :
    (ctx (stepWord (after [.construct 0, .sbclr, .sbpush 6, .sbpush 4, .sbpush 2]) 0x3500000000000000) 0).strNl =
      [6, 4, 2] ∧
    (ctx (stepWord (after [.construct 0, .sbclr, .sbpush 6, .sbpush 4, .sbpush 2]) 0x3500000000000000) 0).curNl =
      [6, 4, 2] := by
  decide +kernel

/-- R137: 1 and `NC_MAX = 4` are accepted. -/
theorem test_tbcnt_bounds :
    (stepWord State.reset 0x4000000000000001).shNc = 1 ∧ (stepWord State.reset 0x4000000000000004).shNc = 4 ∧
    status (stepWord State.reset 0x4000000000000000) = some 2 ∧
    status (stepWord State.reset 0x4000000000000005) = some 2 := by
  decide +kernel

/-- R138: `L_MAX = 8`, components 0 to 3. -/
theorem test_tblen_bounds :
    (stepWord State.reset 0x4103000000000008).shLen = [7, 5, 3, 8] ∧
    status (stepWord State.reset 0x4104000000000008) = some 2 ∧
    status (stepWord State.reset 0x4100000000000009) = some 2 ∧
    status (stepWord State.reset 0x4100000000000000) = some 2 := by
  decide +kernel

/-- R139: the shadow is written, the active table is not. -/
theorem test_tbwr_writes_shadow :
    memRead (stepWord State.reset 0x42000003B6DB6DB6).shTab (tabAddr 0 3) = 0xB6DB6DB6 ∧
    memRead (stepWord State.reset 0x42000003B6DB6DB6).tab (tabAddr 0 3) = 0x24924924 ∧
    status (stepWord State.reset 0x4200000800000000) = some 2 := by
  decide +kernel

/-- R140, program P3: count, lengths and offsets of the new data set. -/
theorem test_replace_installs :
    (stepWord (after [.tbcnt 1, .tblen 0 7]) 0x4300000000000000).nc = 1 ∧
    (stepWord (after [.tbcnt 1, .tblen 0 7]) 0x4300000000000000).offSub = [1] ∧
    (stepWord (after [.tbcnt 1, .tblen 0 7]) 0x4300000000000000).offStr = [4] ∧
    (stepWord (after [.tbcnt 1, .tblen 0 7]) 0x4300000000000000).pkgNl = [0] := by
  decide +kernel

/-- R224. -/
theorem test_replace_locked :
    status (stepWord demo 0x4300000000000000) = some 3 ∧ (stepWord demo 0x4300000000000000).lastErr = 3 := by
  decide +kernel

/-- R201. -/
theorem test_rdlin_package : word (stepWord State.reset 0x5000000100000000) = some 0x9ABCDEF0 := by decide +kernel

/-- R201: the first draw moves level CUR and not level SUB. -/
theorem test_rdlin_levels :
    word (stepWord (after [.construct 0, .nextu 0]) 0x5000030000000000) = some 0xB462A0D4 ∧
    word (stepWord (after [.construct 0, .nextu 0]) 0x5000020000000000) = some 0x12345678 := by
  decide +kernel

/-- R202. -/
theorem test_rdnl_package : word (stepWord demo 0x5100000000000000) = some 4 := by decide +kernel

/-- R202: `NC = 3`. -/
theorem test_rdnl_out_of_range :
    word (stepWord demo 0x5100000200000000) = some 2 ∧ status (stepWord demo 0x5100000300000000) = some 2 := by
  decide +kernel

/-- R203. -/
theorem test_rdtab_reads :
    word (stepWord State.reset 0x5200000000000000) = some 0x6DB6DB6D ∧
    status (stepWord State.reset 0x5200000700000000) = some 2 := by
  decide +kernel

/-- R204. -/
theorem test_rdcfg_items :
    word (stepWord State.reset 0x5300030000000000) = some 4 ∧ word (stepWord State.reset 0x5300000800000000) = some 4 ∧
    word (stepWord State.reset 0x5300040300000000) = some 1 ∧ status (stepWord State.reset 0x5300000A00000000) = some 2 := by
  decide +kernel

/-- R205, program P3. -/
theorem test_rdstat_fields :
    word (stepWord (after [.sbclr, .sbpush 1, .sbpush 2, .sbpush 3, .setpkgn]) 0x5400000000000000) = some 0x00030002 ∧
    word (stepWord demo 0x5400000000000000) = some 0x00000100 := by
  decide +kernel

/-! ## Micro-operations -/

/-- R100: column 0 of `STEP_M`. -/
theorem test_matvec_column : matvec t64StepM [1, 0] = [0x40822041, 0] := by decide +kernel

/-- R102, program P5: with `B = 2` the second word comes from the buffer without a step. -/
theorem test_nextword_buffers :
    (nextWord t64B2 ⟨true, [], [], [], [], [0x12345678, 0x9ABCDEF0], [], [0, 0], 2⟩).map
      (fun p => (p.1, p.2.bufCur)) = some (0xB462A0D4, 1) ∧
    (nextWord t64B2 ⟨true, [], [], [], [], [5, 5], [], [0xB462A0D4, 0x337FF29A], 1⟩).map
      (fun p => (p.1, p.2.curLin)) = some (0x337FF29A, [5, 5]) := by
  decide +kernel

/-- R132. -/
theorem test_currentValue_sum : currentValue State.reset [1, 1, 1] = some 0x77777776 := by decide +kernel

/-- R182. -/
theorem test_normalise_corners :
    normalise 1 = 0x3DEFFFFFFFE00000 ∧ normalise (2 ^ 32) = 0x3FEFFFFFFFE00000 ∧
    normalise (2 ^ 31) = 0x3FDFFFFFFFE00000 ∧ normalise (2 ^ 32 - 1) = 0x3FEFFFFFFFC00000 := by
  decide +kernel

/-- R88 and R89. -/
theorem test_assembler_text :
    assemblerText (.rdlin .cur 1 0) = some "RDLIN i1, LIVE, 0" ∧ assemblerText (.rdcfg 3 0) = some "RDCFG OFFSTR, 0" ∧
    setPkgNl [1, 2] = [.sbclr, .sbpush 1, .sbpush 2, .setpkgn] := by
  decide +kernel

/-! ## The configuration T64 -/

theorem test_t64_jsub : t64.jsubM = powSq t64.r t64.stepM t64.wExp := by decide +kernel

/-- R105: the stream operator is the substream operator squared `V_EXP` times. -/
theorem test_t64_jstr : t64.jstrM = powSq t64.r t64.jsubM t64.vExp := by decide +kernel

theorem test_t64_legal : ConfigWf t64 where
  scalars := by decide +kernel
  tables := by decide +kernel
  seed := by decide +kernel
  shapes := by decide +kernel
  jumps := ⟨test_t64_jsub, by rw [test_t64_jstr, test_t64_jsub, powSq_add]⟩

/-- spec/95_test_vectors.md section 2: the default tables hold equally spaced values (R141). -/
theorem test_t64_tables : t64.defTab.map (fun t => t.length) = [7, 5, 3] ∧
    (t64.defTab.all fun t => (equallySpaced t.length).all fun w => t.contains w) = true := by
  decide +kernel

/-- The reset memories are in canonical form. -/
theorem test_reset_memory : State.reset.tab.wf = true ∧ State.reset.shTab.wf = true := by decide +kernel

/-! ## Witnesses: concrete states and operands that meet the hypotheses of the statements -/

/-- The demo state with commands presented. -/
def demoPort (c : Command) : State := { demo with port := [c, ⟨0x54000000, 0⟩] }

/-- Two instances, linear seed [1, 0] staged. -/
def stagedLinear : State := after [.construct 0, .sbpush 1, .sbpush 0]

/-- One instance, nonlinear seed [6, 4, 2] staged: every entry at its largest value. -/
def stagedNonlinear : State := after [.construct 0, .sbpush 6, .sbpush 4, .sbpush 2]

/-- The demo state in the variant T64/B2. -/
def demoB2 : State := stateOf (runInstrs [.construct 0] (State.resetOf t64B2))

theorem valid_demo : isValidContext demo 0 (ctx demo 0) := by decide +kernel

/-- The state after CONSTRUCT satisfies the invariant. -/
theorem witness_Inv : StateInv demo where
  config := by
    have : demo.cfg = t64 := by decide +kernel
    exact this ▸ test_t64_legal
  components := ⟨by decide +kernel, by decide +kernel, by
    have : demo.len.all (fun l => decide (1 ≤ l.toNat ∧ l.toNat ≤ demo.cfg.lMax)) = true := by decide +kernel
    simpa [List.all_eq_true] using this⟩
  shadow := ⟨by decide +kernel, by decide +kernel, by
    have : demo.shLen.all (fun l => decide (1 ≤ l.toNat ∧ l.toNat ≤ demo.cfg.lMax)) = true := by decide +kernel
    simpa [List.all_eq_true] using this⟩
  package := by decide +kernel
  bank := ⟨by decide +kernel, by
    have : demo.insts.all (fun c => decide (contextShape demo.cfg c)) = true := by decide +kernel
    simpa [List.all_eq_true] using this⟩
  indices := by
    have : demo.insts.all (fun c => decide (c.valid = true → contextIndices demo c)) = true := by decide +kernel
    exact fun c hc => of_decide_eq_true (List.all_eq_true.1 this c hc)
  offsets := by decide +kernel
  staging := by decide +kernel
  existence := fun _ _ _ => by decide +kernel
  memory := ⟨by decide +kernel, by
    have : demo.tab.all (fun c => cellActive demo.nc demo.len c.1) = true := by decide +kernel
    simpa [List.all_eq_true] using this, by
    have : demo.shTab.all (fun c => decide (c.1 / 65536 < demo.cfg.ncMax ∧ c.1 % 65536 < demo.cfg.lMax)) = true := by
      decide +kernel
    simpa [List.all_eq_true] using this⟩
  status := by decide +kernel

theorem witness_DecodeInvertsEncode : Instr.wf (.rdlin .cur 255 255) = true ∧ Instr.wf (.rdnl .pkg 0 255) = true := by
  decide

theorem witness_EncodeInvertsDecode :
    decode ⟨0x42FFFFFF, 0xFFFFFFFF⟩ = .ok (.tbwr 255 65535 0xFFFFFFFF) ∧
    decode ⟨0x510000FF, 0⟩ = .ok (.rdnl .pkg 0 255) := ⟨rfl, rfl⟩

/-- A reserved bit of CW, a reserved bit of DW, and `IA` at level PKG. -/
theorem witness_ReservedFieldIsIllegal :
    ((demoPort ⟨0x10000001, 0⟩).port = ⟨0x10000001, 0⟩ :: [⟨0x54000000, 0⟩] ∧ reservedFieldSet ⟨0x10000001, 0⟩) ∧
    reservedFieldSet ⟨0x54000000, 0x80000000⟩ ∧ reservedFieldSet ⟨0x50010000, 0⟩ ∧ reservedFieldSet ⟨0x51FF00FF, 0⟩ := by
  refine ⟨⟨rfl, .inl ⟨(0x10, 0x0000FFFF, 0xFFFFFFFF), ?_, ?_⟩⟩, .inl ⟨(0x54, 0x00FFFFFF, 0xFFFFFFFF), ?_, ?_⟩,
    .inr ?_, .inr ?_⟩ <;> decide

/-- The ends of the ranges of R85. -/
theorem witness_UndefinedOpcodeIsIllegal :
    (demoPort ⟨0xFF000000, 1⟩).port = ⟨0xFF000000, 1⟩ :: [⟨0x54000000, 0⟩] ∧
    undefinedOpcode 0x00 = true ∧ undefinedOpcode 0x0F = true ∧ undefinedOpcode 0x12 = true ∧
    undefinedOpcode 0x1F = true ∧ undefinedOpcode 0x25 = true ∧ undefinedOpcode 0x2F = true ∧
    undefinedOpcode 0x36 = true ∧ undefinedOpcode 0x3F = true ∧ undefinedOpcode 0x44 = true ∧
    undefinedOpcode 0x4F = true ∧ undefinedOpcode 0x55 = true ∧ undefinedOpcode 0xFF = true ∧
    undefinedOpcode 0x10 = false ∧ undefinedOpcode 0x54 = false := by
  refine ⟨rfl, ?_⟩; decide

theorem witness_StepRunsDecodedInstruction :
    (demoPort ⟨0x10000000, 0⟩).port = ⟨0x10000000, 0⟩ :: [⟨0x54000000, 0⟩] ∧
    decode ⟨0x10000000, 0⟩ = .ok (.nextu 0) := ⟨rfl, rfl⟩

theorem witness_EmptyPortWaits : demo.port = [] := by decide +kernel

/-- Buffer exhausted (`B = 1`), and with `B = 2` a buffered word left. -/
theorem witness_DrawsComplete :
    (isValidContext demo 0 (ctx demo 0) ∧ (ctx demo 0).bufCur = demo.cfg.b ∧
      (∀ j, j < demo.nc → (idxAt (advanceOne demo (ctx demo 0).curNl) j).toNat < (lenAt demo.len j).toNat)) ∧
    ∃ s c, s = stateOf (exec (.nextw 0) demoB2) ∧ c = ctx s 0 ∧ isValidContext s 0 c ∧ c.bufCur < s.cfg.b ∧
      c.bufCur < c.buf.length ∧
      (∀ j, j < s.nc → (idxAt (advanceOne s c.curNl) j).toNat < (lenAt s.len j).toNat) := by
  refine ⟨by decide +kernel, _, _, rfl, rfl, ?_⟩
  decide +kernel

/-- The last context, never constructed, and context 0, already valid. -/
theorem witness_ConstructCompletes :
    ((3 : BitVec 8).toNat < demo.cfg.nInst ∧ demo.insts[3]? = some (ctx demo 3) ∧ (ctx demo 3).valid = false) ∧
    (0 < demo.cfg.nInst ∧ demo.insts[0]? = some (ctx demo 0) ∧ (ctx demo 0).valid = true) := by
  decide +kernel

theorem witness_RestartCommandsComplete : isValidContext demo 0 (ctx demo 0) := valid_demo

theorem witness_NextsubCompletes : isValidContext demo 0 (ctx demo 0) := valid_demo

/-- Another context (never constructed) and the source itself. -/
theorem witness_CloneCompletes :
    ((3 : BitVec 8).toNat < demo.cfg.nInst ∧ demo.insts[3]? = some (ctx demo 3)) ∧
    (0 < demo.cfg.nInst ∧ demo.insts[0]? = some (ctx demo 0)) ∧ isValidContext demo 0 (ctx demo 0) := by
  decide +kernel

/-- The last free place of the staging buffer, a full buffer, an overflowed one. -/
theorem witness_StagingCommandsComplete :
    (after [.sbpush 1, .sbpush 2, .sbpush 3]).scnt + 1 = t64.sbDepth ∧
    (after [.sbpush 1, .sbpush 2, .sbpush 3, .sbpush 4]).scnt = t64.sbDepth ∧
    (after [.sbpush 1, .sbpush 2, .sbpush 3, .sbpush 4, .sbpush 5]).scnt = t64.sbDepth + 1 ∧
    (after [.sbpush 1]).cfg = t64 := by
  decide +kernel

theorem witness_LinearSeedCommandsComplete :
    stagedLinear.scnt = stagedLinear.cfg.r ∧ (stagedLinear.sb.take stagedLinear.cfg.r).any (fun w => w ≠ 0) = true ∧
    stagedLinear.cfg.reservedLast ≠ some (wordAt stagedLinear.sb (stagedLinear.cfg.r - 1)) ∧
    isValidContext stagedLinear 0 (ctx stagedLinear 0) := by
  decide +kernel

theorem witness_NonlinearSeedCommandsComplete :
    stagedNonlinear.scnt = stagedNonlinear.nc ∧
    (∀ j, j < stagedNonlinear.nc → (wordAt stagedNonlinear.sb j).toNat < (lenAt stagedNonlinear.len j).toNat) ∧
    isValidContext stagedNonlinear 0 (ctx stagedNonlinear 0) := by
  decide +kernel

/-- The least and the greatest count, the last component with the least and the greatest length. -/
theorem witness_ShadowRegisterWritesComplete :
    (1 ≤ (1 : Word).toNat ∧ (4 : Word).toNat = demo.cfg.ncMax) ∧
    ((3 : BitVec 8).toNat + 1 = demo.cfg.ncMax ∧ (8 : Word).toNat = demo.cfg.lMax) := by
  decide +kernel

theorem witness_ShadowTableWriteCompletes :
    demo.shTab.wf = true ∧ (3 : BitVec 8).toNat + 1 = demo.cfg.ncMax ∧ (7 : BitVec 16).toNat + 1 = demo.cfg.lMax := by
  decide +kernel

theorem witness_ReplaceCompletes :
    (State.reset.instExists = false ∧ State.reset.shNc ≤ State.reset.shLen.length) ∧
    State.reset.shLen.all (fun l => decide (1 ≤ l.toNat ∧ l.toNat ≤ 65536)) = true := by
  decide +kernel

/-- The last word and the last component. -/
theorem witness_CursorReadoutCompletes :
    (1 : BitVec 8).toNat + 1 = demo.cfg.r ∧ (2 : BitVec 8).toNat + 1 = demo.nc ∧ isValidContext demo 0 (ctx demo 0) := by
  decide +kernel

theorem witness_TableReadoutCompletes :
    (2 : BitVec 8).toNat + 1 = demo.nc ∧ (2 : BitVec 16).toNat + 1 = (lenAt demo.len 2).toNat := by
  decide +kernel

/-- The last item of group 0, the last component of groups 1 to 3, the last of group 4. -/
theorem witness_ConfigReadoutCompletes :
    (9 : BitVec 8).toNat = 9 ∧ (2 : BitVec 8).toNat + 1 = demo.nc ∧ (3 : BitVec 8).toNat + 1 = demo.cfg.ncMax := by
  decide +kernel

theorem witness_StatusReadoutCompletes :
    (after [.sbpush 1, .sbpush 2, .sbpush 3, .sbpush 4, .sbpush 5]).scnt = 5 ∧ 5 < 2 ^ 16 := by
  decide +kernel

/-- Out of range at the first number, and in range but never constructed; a destination out of range. -/
theorem witness_BadInstanceFails :
    instanceRefused demo 4 ∧ instanceRefused demo 1 ∧ demo.cfg.nInst ≤ (4 : BitVec 8).toNat := by
  have h : demo.insts[1]? = some (ctx demo 1) ∧ (ctx demo 1).valid = false := by decide +kernel
  refine ⟨.inl (by decide +kernel), .inr fun c hc => ?_, by decide +kernel⟩
  have : demo.insts[(1 : BitVec 8).toNat]? = some (ctx demo 1) := h.1
  rw [this] at hc
  cases hc
  exact h.2

/-- All zero, reserved final word, and a command that answers status 1. -/
theorem witness_InvalidSeedFails :
    ((after [.construct 0, .sbpush 0, .sbpush 0]).scnt = t64.r ∧
      ∀ k, k < t64.r → wordAt (after [.construct 0, .sbpush 0, .sbpush 0]).sb k = 0) ∧
    ((after [.construct 0, .sbpush 5, .sbpush 0x80000000]).scnt = t64.r ∧
      t64.reservedLast = some (wordAt (after [.construct 0, .sbpush 5, .sbpush 0x80000000]).sb (t64.r - 1)) ∧
      isValidContext (after [.construct 0, .sbpush 5, .sbpush 0x80000000]) 0
        (ctx (after [.construct 0, .sbpush 5, .sbpush 0x80000000]) 0)) ∧
    ∃ t r, exec .setpkgl (after [.sbpush 0, .sbpush 0]) = .next t ∧ endedWith (after [.sbpush 0, .sbpush 0]) t r ∧
      r.st = 1 := by
  refine ⟨by decide +kernel, by decide +kernel, _, ⟨1, 0, 0, 0⟩, next_of _ (by decide +kernel), ?_, rfl⟩
  decide +kernel

/-- Each clause at its boundary: wrong length, entry equal to its length, capacities, readout ranges. -/
theorem witness_InvalidArgumentFails :
    demo.scnt ≠ demo.nc ∧ demo.scnt ≠ demo.cfg.r ∧
    ((after [.sbpush 0, .sbpush 0, .sbpush 3]).scnt = 3 ∧
      (lenAt (after [.sbpush 0, .sbpush 0, .sbpush 3]).len 2).toNat ≤
        (wordAt (after [.sbpush 0, .sbpush 0, .sbpush 3]).sb 2).toNat) ∧
    (demo.cfg.ncMax < (5 : Word).toNat ∧ demo.cfg.ncMax ≤ (4 : BitVec 8).toNat) ∧
    (demo.cfg.lMax < (9 : Word).toNat ∧ demo.cfg.lMax ≤ (8 : BitVec 16).toNat) ∧
    (demo.cfg.r ≤ (2 : BitVec 8).toNat ∧ demo.nc ≤ (3 : BitVec 8).toNat ∧
      (lenAt demo.len 2).toNat ≤ (3 : BitVec 16).toNat) ∧
    (10 ≤ (10 : BitVec 8).toNat ∧ 5 ≤ (5 : BitVec 8).toNat) ∧ isValidContext demo 0 (ctx demo 0) := by
  decide +kernel

theorem witness_IllegalStateFails :
    demo.instExists = true ∧
    ∃ t r, exec .replace demo = .next t ∧ endedWith demo t r ∧ r.st = 3 := by
  refine ⟨by decide +kernel, _, ⟨3, 0, 0, 0⟩, next_of _ (by decide +kernel), ?_, rfl⟩
  decide +kernel

/-- A command that succeeds with data, a command that succeeds without, a command that fails. -/
theorem witness_commands_end :
    (∃ t r, exec (.nextu 0) demo = .next t ∧ endedWith demo t r ∧ r.st = 0) ∧
    (∃ t r, exec .sbclr demo = .next t ∧ endedWith demo t r ∧ r.st = 0) ∧
    ∃ t r, exec (.nextu 1) demo = .next t ∧ endedWith demo t r ∧ r.st ≠ 0 := by
  refine ⟨⟨_, ⟨0, 0xC315D7A2, 0xC315D7A2, 0x3FE862BAF4279D45⟩, next_of _ (by decide +kernel), ?_, rfl⟩,
    ⟨_, ⟨0, 0, 0, 0⟩, next_of _ (by decide +kernel), ?_, rfl⟩,
    ⟨_, ⟨5, 0, 0, 0⟩, next_of _ (by decide +kernel), ?_, by decide⟩⟩
  all_goals decide +kernel

theorem witness_EveryCommandAnswersOnce : ∃ t, exec (.nextu 0) demo = .next t :=
  ⟨_, next_of _ (by decide +kernel)⟩

theorem witness_FailedCommandChangesOnlyLasterr :
    ∃ t r, exec (.nextu 1) demo = .next t ∧ endedWith demo t r ∧ r.st ≠ 0 := witness_commands_end.2.2

theorem witness_LasterrHoldsLastFailure :
    (∃ t r, exec .sbclr demo = .next t ∧ endedWith demo t r ∧ r.st = 0) ∧
    ∃ t r, exec (.nextu 1) demo = .next t ∧ endedWith demo t r ∧ r.st ≠ 0 := witness_commands_end.2

theorem witness_FailedCommandFailsAgain :
    ∃ t r, exec (.nextu 1) demo = .next t ∧ endedWith demo t r ∧ r.st ≠ 0 := witness_commands_end.2.2

theorem witness_ReadoutIsPure :
    (isReadout (.rdlin .cur 0 1) = true ∧
      ∃ t r, exec (.rdlin .cur 0 1) demo = .next t ∧ endedWith demo t r ∧ r.st = 0) ∧
    (isReadout .sbclr = false ∧ isDraw .sbclr = false ∧
      ∃ t r, exec .sbclr demo = .next t ∧ endedWith demo t r) := by
  refine ⟨⟨rfl, _, ⟨0, 0x9ABCDEF0, 0, 0⟩, next_of _ (by decide +kernel), ?_, rfl⟩,
    rfl, rfl, _, ⟨0, 0, 0, 0⟩, next_of _ (by decide +kernel), ?_⟩
  all_goals decide +kernel

/-- TBWR while an instance exists. -/
theorem witness_DataSetLockedWhileInstanceExists :
    (∃ t, exec (.tbwr 0 0 1) demo = .next t) ∧ demo.instExists = true :=
  ⟨⟨_, next_of _ (by decide +kernel)⟩, by decide +kernel⟩

/-- The first CONSTRUCT, and a CONSTRUCT that fails. -/
theorem witness_InstExistsIsSetByConstructAlone :
    (∃ t r, exec (.construct 3) State.reset = .next t ∧ endedWith State.reset t r ∧ r.st = 0) ∧
    ∃ t r, exec (.construct 4) State.reset = .next t ∧ endedWith State.reset t r ∧ r.st ≠ 0 := by
  refine ⟨⟨_, ⟨0, 0, 0, 0⟩, next_of _ (by decide +kernel), ?_, rfl⟩,
    ⟨_, ⟨5, 0, 0, 0⟩, next_of _ (by decide +kernel), ?_, by decide⟩⟩
  all_goals decide +kernel

/-- CLONE makes context 3 valid and keeps context 0 valid. -/
theorem witness_ValidIsNeverCleared :
    ∃ t r, exec (.clone 3 0) demo = .next t ∧ endedWith demo t r ∧ demo.insts[3]? = some (ctx demo 3) ∧
      (ctx demo 3).valid = false ∧ (ctx t 3).valid = true ∧ (ctx t 0).valid = true := by
  refine ⟨_, ⟨0, 0, 0, 0⟩, next_of _ (by decide +kernel), ?_⟩
  decide +kernel

/-- CLONE 3, 0: contexts 1 and 2 are not named. -/
theorem witness_OtherContextsAreNotWritten :
    (∃ t, exec (.clone 3 0) demo = .next t) ∧ ∀ a, writtenInstance (.clone 3 0) = some a → a.toNat ≠ 1 := by
  refine ⟨⟨_, next_of _ (by decide +kernel)⟩, ?_⟩
  intro a h
  cases h
  decide

theorem witness_OtherContextsAreNotRead :
    (∃ t, exec (.clone 3 0) demo = .next t) ∧
    ∀ a, writtenInstance (.clone 3 0) = some a ∨ readInstance (.clone 3 0) = some a → a.toNat ≠ 1 := by
  refine ⟨⟨_, next_of _ (by decide +kernel)⟩, ?_⟩
  rintro a (h | h) <;> cases h <;> decide

/-- CONSTRUCT changes both parts of the package bank. -/
theorem witness_PackageOriginWriters :
    ∃ t, exec (.construct 1) demo = .next t ∧ t.pkgLin ≠ demo.pkgLin ∧ t.pkgNl ≠ demo.pkgNl :=
  ⟨_, next_of _ (by decide +kernel), by decide +kernel⟩

theorem witness_ConfigurationIsConstant : ∃ t, step (demoPort ⟨0x10000000, 0⟩) = .next t :=
  ⟨_, next_of _ (by decide +kernel)⟩

/-- A component whose length register is missing, and a buffer word that does not exist. -/
theorem witness_OnlyDrawsOutsideTablesStop :
    (isValidContext { demo with nc := 4 } 0 (ctx demo 0) ∧
      (lenAt demo.len 3).toNat ≤ (idxAt (advanceOne { demo with nc := 4 } (ctx demo 0).curNl) 3).toNat) ∧
    ∃ s c, s = { demo with insts := [{ ctx demo 0 with buf := [], bufCur := 0 }] } ∧
      c = ctx s 0 ∧ isValidContext s 0 c ∧ c.bufCur ≠ s.cfg.b ∧ c.buf.length ≤ c.bufCur ∧
      (∀ j, j < s.nc → (idxAt (advanceOne s c.curNl) j).toNat < (lenAt s.len j).toNat) := by
  refine ⟨by decide +kernel, _, _, rfl, rfl, ?_⟩
  decide +kernel

theorem witness_StepKeepsInvariant : StateInv demo ∧ ∃ t, step demo = .next t :=
  ⟨witness_Inv, _, next_of _ (by decide +kernel)⟩

theorem witness_ResetSatisfiesInvariant : ConfigWf t64 := test_t64_legal

theorem witness_InvariantStepNeverStops : StateInv demo := witness_Inv

theorem witness_ResetLeavesTheDefaults : ConfigWf t64 := test_t64_legal

theorem witness_MatvecIsXorOfSelectedBits : 31 < 32 * (t64OutM.length / 32) := by decide +kernel

theorem witness_MatvecIsLinear : ([1, 0] : Vec).length = ([0, 0x80000000] : Vec).length := rfl

theorem witness_JumpIsRepeatedStepping : ConfigWf t64 ∧ t64.defPkgLin.length = t64.r := ⟨test_t64_legal, rfl⟩

theorem witness_SubstreamGapsMakeOneStreamGap :
    (ConfigWf t64 ∧ t64.defPkgLin.length = t64.r) ∧ StateInv demo ∧ indicesOk demo [6, 4, 2] :=
  ⟨⟨test_t64_legal, rfl⟩, witness_Inv, by decide +kernel⟩

/-- A configuration whose step operator is the identity. -/
def identityConfig : Config :=
  { t64 with r := 1, b := 1, stepM := (List.range 32).map fun i => [BitVec.twoPow 32 i]
             outM := (List.range 32).map fun i => [BitVec.twoPow 32 i]
             wExp := 0, vExp := 0
             jsubM := (List.range 32).map fun i => [BitVec.twoPow 32 i]
             jstrM := (List.range 32).map fun i => [BitVec.twoPow 32 i], defPkgLin := [1] }

theorem identityConfig_legal : ConfigWf identityConfig where
  scalars := by decide +kernel
  tables := by decide +kernel
  seed := by decide +kernel
  shapes := by decide +kernel
  jumps := by decide +kernel

/-- The identity maps every vector to itself, so no other vector to zero. -/
theorem witness_NonsingularStepKeepsJumpsNonzero :
    ConfigWf identityConfig ∧ (∀ y : Vec, y.length = identityConfig.r →
      matvec identityConfig.stepM y = zeroVec identityConfig.r → y = zeroVec identityConfig.r) := by
  refine ⟨identityConfig_legal, fun y hy h => ?_⟩
  obtain ⟨w, rfl⟩ := List.length_eq_one_iff.1 hy
  have hw : wordOfBits (fun b => parity (vecAnd (identityConfig.stepM.getD (32 * 0 + b) []) [w])) = 0 := by
    have := congrArg (fun v : Vec => v.getD 0 0) h
    exact this
  refine congrArg (fun v : Word => [v]) (BitVec.eq_of_getLsbD_eq fun b hb => ?_)
  have hb' := congrArg (fun v : Word => v.getLsbD b) hw
  have hrow : identityConfig.stepM.getD (32 * 0 + b) [] = [BitVec.twoPow 32 b] := by
    show ((List.range 32).map fun i => ([BitVec.twoPow 32 i] : Vec)).getD (32 * 0 + b) [] = _
    rw [Nat.mul_zero, Nat.zero_add, List.getD_eq_getElem?_getD, List.getElem?_map, List.getElem?_range hb]
    rfl
  simp only [wordOfBits_getLsbD, hrow, vecAnd, List.zipWith, parity, Bool.xor_false, hb, decide_true, Bool.true_and]
    at hb'
  have hx : xorBits (fun c => (BitVec.twoPow 32 b &&& w).getLsbD c) 32 = w.getLsbD b := by
    have hsel : ∀ c, c < 32 → (BitVec.twoPow 32 b &&& w).getLsbD c = (decide (c = b) && w.getLsbD c) := by
      intro c hc
      rw [BitVec.getLsbD_and, BitVec.getLsbD_twoPow, decide_eq_true hb, Bool.true_and]
      congr 1
      exact decide_eq_decide.2 ⟨Eq.symm, Eq.symm⟩
    rw [xorBits_congr _ _ 32 hsel, xorBits_single, decide_eq_true hb, Bool.true_and]
  rw [hx] at hb'
  simpa using hb'

theorem witness_OffsetsArePowersOfTwo :
    2 < demo.len.length ∧ 1 ≤ (lenAt demo.len 2).toNat ∧ (lenAt [65536#17] 0).toNat = 65536 := by decide +kernel

/-- The last index of a longest table, and a table of one word. -/
theorem witness_AdvanceIsCyclic :
    ((65535 : Idx).toNat < (65536 : Len).toNat ∧ (65536 : Len).toNat ≤ 65536) ∧ (0 : Idx).toNat < (1 : Len).toNat := by
  decide

theorem witness_IndexJumpIsRepeatedAdvance : StateInv demo ∧ indicesOk demo [6, 4, 2] := ⟨witness_Inv, by decide +kernel⟩

theorem witness_RestartRepeatsTheSubstream :
    (isValidContext demo 0 (ctx demo 0) ∧ (ctx demo 0).curLin = (ctx demo 0).subLin ∧
      (ctx demo 0).curNl = (ctx demo 0).subNl ∧ (ctx demo 0).bufCur = demo.cfg.b) ∧
    ∃ t u, runInstrs (List.replicate 2 (.nextu 0)) demo = .next t ∧
      runInstrs (.rstsub 0 :: List.replicate 2 (.nextu 0)) t = .next u :=
  ⟨by decide +kernel, _, _, next_of _ (by decide +kernel), next_of _ (by decide +kernel)⟩

theorem witness_SuccessiveStreamsAreOneGapApart :
    (∀ i ∈ [Instr.nextu 0], writesPackage i = false) ∧
    ∃ t u v ca cb, exec (.construct 0) State.reset = .next t ∧ t.insts[0]? = some ca ∧
      runInstrs [.nextu 0] t = .next u ∧ exec (.construct 3) u = .next v ∧ v.insts[3]? = some cb ∧
      3 < State.reset.cfg.nInst := by
  refine ⟨by simp [writesPackage], _, _, _, ctx demo 0, ctx (after [.construct 0, .nextu 0, .construct 3]) 3,
    next_of _ (by decide +kernel), ?_, next_of _ (by decide +kernel), next_of _ (by decide +kernel), ?_, ?_⟩
  all_goals decide +kernel

/-- A seed that fills the staging buffer. -/
theorem witness_LoadSeedStagesItsWords :
    ([1, 2, 3, 4] : List Word).length ≤ demo.cfg.sbDepth ∧ demo.sb.length = demo.cfg.sbDepth := by decide +kernel

theorem witness_UnsignRecoversTheUnsignedWord : (0x80000000 : Word) ≠ 0 := by decide

theorem witness_NormaliseRoundsToNearestEven : (1 ≤ 2 ^ 32) ∧ 2 ^ 32 ≤ 2 ^ 32 := by decide

/-! ## Configuration REF -/

/-- A matrix whose first 32 rows select the bits of word 0; the rest of its `32 * n` rows are zero. -/
def refMatrix (n : Nat) : Matrix :=
  (List.range 32).map (fun i => BitVec.twoPow 32 i :: List.replicate 18 0) ++
    List.replicate (32 * (n - 1)) (List.replicate 19 0)

/-- A configuration REF whose OPEN fields are made up for the tests: no jump exponents, tables of one
word that is not zero. -/
def refExample : Config :=
  refOf { t64 with stepM := refMatrix 19, outM := refMatrix 1, wExp := 0, vExp := 0, jsubM := refMatrix 19
                   jstrM := refMatrix 19, reservedLast := none, lMax := 1031
                   defTab := refLengths.map (fun l => eqsp 1 l :: List.replicate (l - 1) 0)
                   defPkgLin := 1 :: List.replicate 18 0 }

theorem refExample_legal : ConfigWf refExample where
  scalars := by decide +kernel
  tables := by decide +kernel
  seed := by decide +kernel
  shapes := by decide +kernel
  jumps := by decide +kernel

theorem witness_ReferenceConfigurationResets : ConfigWf refExample ∧ IsRef refExample :=
  ⟨refExample_legal, isRef_refOf _⟩

/-- The default lengths with the exponents of T64 (spec/95_test_vectors.md V-C5). -/
theorem test_ref_offsets :
    (subOffsets t64 (defaultLengths refExample) = [8, 8, 8]) ∧
    strOffsets t64 (defaultLengths refExample) = [32, 32, 32] := by decide +kernel

/-- The offsets under the exponents 250 and 150 (spec/93_implementation_defined.md G4). -/
theorem test_ref_offsets_g4 :
    refLengths.map (pow2Mod 250) = [931, 586, 908] ∧ refLengths.map (pow2Mod 400) = [929, 729, 162] := by
  decide +kernel

/-- The invariant holds after reset in this REF. -/
theorem refExample_reset_inv : StateInv (State.resetOf refExample) where
  config := refExample_legal
  components := ⟨by decide +kernel, rfl, by
    have : (State.resetOf refExample).len.all (fun l => decide (1 ≤ l.toNat ∧ l.toNat ≤ refExample.lMax)) = true := by
      decide +kernel
    exact fun l hl => of_decide_eq_true (List.all_eq_true.1 this l hl)⟩
  shadow := ⟨by decide +kernel, rfl, by
    have : (State.resetOf refExample).shLen.all (fun l => decide (1 ≤ l.toNat ∧ l.toNat ≤ refExample.lMax)) = true := by
      decide +kernel
    exact fun l hl => of_decide_eq_true (List.all_eq_true.1 this l hl)⟩
  package := by decide +kernel
  bank := ⟨by decide +kernel, fun c hc => (List.mem_replicate.1 hc).2 ▸ by decide +kernel⟩
  indices := fun c hc hv => by rw [(List.mem_replicate.1 hc).2] at hv; cases hv
  offsets := by decide +kernel
  staging := by decide +kernel
  existence := fun c hc hv => by rw [(List.mem_replicate.1 hc).2] at hv; cases hv
  memory := ⟨by decide +kernel, by
    have : (State.resetOf refExample).tab.all (fun c => cellActive 3 (State.resetOf refExample).len c.1) = true := by
      decide +kernel
    exact fun c hc => List.all_eq_true.1 this c hc, by
    have : (State.resetOf refExample).shTab.all
        (fun c => decide (c.1 / 65536 < refExample.ncMax ∧ c.1 % 65536 < refExample.lMax)) = true := by decide +kernel
    exact fun c hc => of_decide_eq_true (List.all_eq_true.1 this c hc)⟩
  status := by decide +kernel

/-- The lengths of T64 are pairwise coprime and their vector returns after 105 calls
(spec/95_test_vectors.md V-C3); the second state has the lengths of REF, with two indices at their last entry. -/
theorem witness_IndexVectorPeriodIsLcmOfLengths :
    (StateInv demo ∧ indicesOk demo [6, 4, 2] ∧ (demo.len.map BitVec.toNat).Pairwise Nat.Coprime ∧
      (demo.len.map BitVec.toNat).prod = 105 ∧ (fun b => advanceOne demo b)^[105] [6, 4, 2] = [6, 4, 2]) ∧
    StateInv (State.resetOf refExample) ∧ indicesOk (State.resetOf refExample) [1018, 0, 1030] ∧
      (State.resetOf refExample).len.map BitVec.toNat = refLengths :=
  ⟨⟨witness_Inv, by decide +kernel, by decide +kernel, by decide +kernel, by decide +kernel⟩,
    refExample_reset_inv, by decide +kernel, by decide +kernel⟩

end Sys2Proof.Tests
end

