-- ==== Sys2Proof/Proofs/LastError.lean ====
section
/-! LASTERR (spec/10_state.md R31): only a failing command writes it, and RDSTAT reads it back. -/

namespace Sys2Proof.Machine

/-- No successful command writes LASTERR. -/
theorem effect_lastErr {i : Instr} {s s' : State} {r : Response} (h : Effect i s r s') : s'.lastErr = s.lastErr := by
  cases h
  case sbpush => unfold pushStaging; split_ifs <;> rfl
  all_goals rfl

/-- R205: the low byte of the status word; SCNT and INST_EXISTS stand above it. -/
theorem statusWord_lastErr (s : State) : (statusWord s).extractLsb' 0 8 = s.lastErr := by
  refine BitVec.eq_of_getLsbD_eq fun b hb => ?_
  have h16 : b < 16 := by omega
  have h32 : b < 32 := by omega
  simp [statusWord, hb, h16, h32]

theorem exec_rdstat (s : State) : exec .rdstat s = .next (answered ⟨0, statusWord s, 0, 0⟩ s) := rfl

/-- What a command does to LASTERR, read off its response. -/
theorem lastErr_of_endedWith {i : Instr} {s t : State} {r : Response} (h : exec i s = .next t)
    (hr : endedWith s t r) :
    (r.st = 0 ∧ t.lastErr = s.lastErr) ∨ ∃ e, r.st = errorCode e ∧ t = refusedWith (errorCode e) s := by
  rcases next_resp h hr with ⟨e, rfl, ht, -⟩ | ⟨s', rfl, hf⟩
  · exact .inr ⟨e, rfl, ht⟩
  · exact .inl ⟨effect_st hf, (respond_lastErr r s').trans (effect_lastErr hf)⟩

end Sys2Proof.Machine

namespace Sys2Proof.Proofs
open Sys2Proof Sys2Proof.Machine

/-- Settles O29: a command that ends either completed, and no completed command writes LASTERR, or failed, and then
LASTERR and the response are all it changed. -/
theorem lasterrHoldsLastFailure : Obligations.LasterrHoldsLastFailure := by
  unfold Obligations.LasterrHoldsLastFailure
  refine ⟨fun _ => rfl, fun i s t r h hr => ?_, fun s => ⟨statusWord s, exec_rdstat s, statusWord_lastErr s⟩⟩
  rcases lastErr_of_endedWith h hr with ⟨h0, hkeep⟩ | ⟨e, hst, rfl⟩
  · exact ⟨fun _ => hkeep, fun hne => absurd h0 hne⟩
  · rw [hst]
    exact ⟨fun h0 => absurd h0 (errorCode_ne e), fun _ => ⟨rfl, errorCode_bounds e, rfl⟩⟩

end Sys2Proof.Proofs
end

