-- ==== Sys2Proof/Proofs/Reset.lean ====
section
/-! The reset values of spec/10_state.md R40 in every legal configuration: what the table memories read, what the
length and offset banks hold. -/

namespace Sys2Proof.Machine

/-! ## POW2MOD -/

theorem pow2Mod_eq (e l : Nat) : pow2Mod e l = 2 ^ e % l := by
  induction e with
  | zero => rfl
  | succ e ih => rw [pow2Mod, ih, ← Nat.add_mod, pow_succ, mul_two]

/-- An offset register holds the whole residue: lengths end at 65536, so a residue fits 16 bits. -/
theorem offsetOf_toNat (e : Nat) (l : Len) (hpos : 1 ≤ l.toNat) (htop : l.toNat ≤ 65536) :
    (offsetOf e l).toNat = 2 ^ e % l.toNat := by
  have hlt := pow2Mod_lt e l.toNat hpos
  rw [offsetOf, BitVec.toNat_ofNat, Nat.mod_eq_of_lt (by omega), pow2Mod_eq]

theorem idxAt_map_offsetOf (e : Nat) (len : List Len) (j : Nat) (hj : j < len.length) :
    idxAt (len.map (offsetOf e)) j = offsetOf e (lenAt len j) := by
  simp [idxAt, lenAt, hj]

/-! ## Reading the memories that reset builds -/

theorem memRead_of_unlisted (m : Memory) (x : Nat) (h : ∀ c ∈ m, c.1 ≠ x) : memRead m x = 0 := by
  induction m with
  | nil => rfl
  | cons c m ih => rw [memRead, if_neg (h c (by simp)), ih fun d hd => h d (by simp [hd])]

theorem memRead_append_left (m n : Memory) (x : Nat) (h : ∀ c ∈ n, c.1 ≠ x) : memRead (m ++ n) x = memRead m x := by
  induction m with
  | nil => exact memRead_of_unlisted n x h
  | cons c m ih => rw [List.cons_append, memRead, memRead, ih]

theorem memRead_append_right (m n : Memory) (x : Nat) (h : ∀ c ∈ m, c.1 ≠ x) : memRead (m ++ n) x = memRead n x := by
  induction m with
  | nil => rfl
  | cons c m ih => rw [List.cons_append, memRead, if_neg (h c (by simp)), ih fun d hd => h d (by simp [hd])]

/-- One table reads its words, and 0 beyond its end. -/
theorem memRead_tableCells (j : Nat) (ws : List Word) :
    ∀ k i : Nat, memRead (tableCells j k ws) (tabAddr j (k + i)) = ws.getD i 0 := by
  induction ws with
  | nil => intro k i; rfl
  | cons w ws ih =>
    intro k i
    cases i with
    | zero =>
      by_cases hw : w = 0
      · have hbelow : ∀ c ∈ tableCells j (k + 1) ws, tabAddr j k < c.1 := fun c hc => by
          obtain ⟨-, hle, -⟩ := mem_tableCells j ws (k + 1) c hc
          exact lt_of_lt_of_le (by unfold tabAddr; omega) hle
        rw [tableCells, if_pos hw, Nat.add_zero k, memRead_below _ _ hbelow, List.getD_cons_zero, hw]
      · rw [tableCells, if_neg hw, Nat.add_zero k, memRead, if_pos rfl, List.getD_cons_zero]
    | succ i =>
      have hne : tabAddr j k ≠ tabAddr j (k + 1 + i) := by unfold tabAddr; omega
      rw [show k + (i + 1) = k + 1 + i by omega, List.getD_cons_succ, ← ih (k + 1) i, tableCells]
      split_ifs
      · rfl
      · rw [memRead, if_neg hne]

/-- A cell of table `j` of at most 65536 words belongs to component `j`. -/
theorem mem_tableCells_component (j : Nat) (ws : List Word) (hws : ws.length ≤ 65536) (c : Nat × Word)
    (hc : c ∈ tableCells j 0 ws) : c.1 / 65536 = j := by
  obtain ⟨-, hlo, hhi⟩ := mem_tableCells j ws 0 c hc
  unfold tabAddr at hlo hhi
  omega

/-- The tables `j`, `j+1`, … read as they are listed: 0 beyond the end of a table and beyond the last table. -/
theorem memRead_tablesMemory (ts : List (List Word)) (h : ∀ t ∈ ts, t.length ≤ 65536) (k : Nat) (hk : k < 65536) :
    ∀ j i : Nat, memRead (tablesMemory j ts) (tabAddr (j + i) k) = (ts.getD i []).getD k 0 := by
  induction ts with
  | nil => intro j i; rfl
  | cons t ts ih =>
    intro j i
    have hts : ∀ u ∈ ts, u.length ≤ 65536 := fun u hu => h u (by simp [hu])
    cases i with
    | zero =>
      have hlater : ∀ c ∈ tablesMemory (j + 1) ts, c.1 ≠ tabAddr j k := fun c hc heq => by
        obtain ⟨i, u, hu, hcell⟩ := mem_tablesMemory ts (j + 1) c hc
        have := mem_tableCells_component _ u (hts u (List.mem_of_getElem? hu)) c hcell
        rw [heq, tabAddr_div j k hk] at this
        omega
      rw [tablesMemory, Nat.add_zero j, memRead_append_left _ _ _ hlater, List.getD_cons_zero,
        ← memRead_tableCells j t 0 k, Nat.zero_add]
    | succ i =>
      have hfirst : ∀ c ∈ tableCells j 0 t, c.1 ≠ tabAddr (j + (i + 1)) k := fun c hc heq => by
        have := mem_tableCells_component j t (h t (by simp)) c hc
        rw [heq, tabAddr_div _ k hk] at this
        omega
      rw [tablesMemory, memRead_append_right _ _ _ hfirst, List.getD_cons_succ, ← ih hts (j + 1) i,
        show j + (i + 1) = j + 1 + i by omega]

/-! ## The default data set of a legal configuration (R7, R8) -/

section
variable {c : Config} (hw : ConfigWf c)
include hw

theorem defLen_bounds {j : Nat} (hj : j < c.defNc) : 1 ≤ c.defLen.getD j 0 ∧ c.defLen.getD j 0 ≤ 65536 := by
  obtain ⟨-, -, -, -, -, -, -, hmax⟩ := hw.scalars
  obtain ⟨hlen, hbounds, -⟩ := hw.tables
  have hmem : c.defLen.getD j 0 ∈ c.defLen := by
    rw [List.getD_eq_getElem _ _ (hlen ▸ hj)]; exact List.getElem_mem _
  obtain ⟨h1, h2⟩ := hbounds _ hmem
  exact ⟨h1, h2.trans hmax⟩

theorem defTab_getD_length (j : Nat) : (c.defTab.getD j []).length = c.defLen.getD j 0 := by
  obtain ⟨-, -, htab, -⟩ := hw.tables
  rw [← htab, show (0 : Nat) = ([] : List Word).length from rfl, List.getD_map]

theorem defTab_getD_beyond {j : Nat} (hj : c.defNc ≤ j) : c.defTab.getD j [] = [] := by
  obtain ⟨hlen, -⟩ := hw.tables
  rw [← List.length_eq_zero_iff, defTab_getD_length hw, List.getD_eq_default _ _ (hlen ▸ hj)]

theorem defTab_fits : ∀ t ∈ c.defTab, t.length ≤ 65536 := fun t ht => by
  obtain ⟨-, -, -, -, -, -, -, hmax⟩ := hw.scalars
  obtain ⟨-, hbounds, htab, -⟩ := hw.tables
  exact (hbounds t.length (htab ▸ List.mem_map_of_mem ht)).2.trans hmax

/-- TAB and SH_TAB after reset. -/
theorem memRead_default (j : Nat) {k : Nat} (hk : k < 65536) :
    memRead (tablesMemory 0 c.defTab) (tabAddr j k) = (c.defTab.getD j []).getD k 0 := by
  have := memRead_tablesMemory c.defTab (defTab_fits hw) k hk 0 j
  rwa [Nat.zero_add] at this

theorem defaultLengths_length : (defaultLengths c).length = c.defNc := by
  obtain ⟨hlen, -⟩ := hw.tables
  rw [defaultLengths, List.length_map, hlen]

theorem defaultLengths_toNat {j : Nat} (hj : j < c.defNc) :
    (lenAt (defaultLengths c) j).toNat = c.defLen.getD j 0 := by
  obtain ⟨-, htop⟩ := defLen_bounds hw hj
  have hval : lenAt (defaultLengths c) j = BitVec.ofNat 17 (c.defLen.getD j 0) := by
    rw [lenAt, defaultLengths, show (0 : Len) = BitVec.ofNat 17 0 from rfl, List.getD_map]
  rw [hval, BitVec.toNat_ofNat, Nat.mod_eq_of_lt (by omega)]

/-- OFFSUB and OFFSTR after reset, with the exponent of their gap. -/
theorem defaultOffsets_toNat (e : Nat) {j : Nat} (hj : j < c.defNc) :
    (idxAt ((defaultLengths c).map (offsetOf e)) j).toNat = 2 ^ e % c.defLen.getD j 0 := by
  obtain ⟨hpos, htop⟩ := defLen_bounds hw hj
  rw [← defaultLengths_toNat hw hj] at hpos htop ⊢
  rw [idxAt_map_offsetOf e _ j (by rwa [defaultLengths_length hw]), offsetOf_toNat e _ hpos htop]

/-- PKG_NL after reset. -/
theorem defaultPackageIndex_toNat {j : Nat} (hj : j < c.defNc) :
    (idxAt (c.defPkgNl.map (BitVec.ofNat 16)) j).toNat = c.defPkgNl.getD j 0 := by
  obtain ⟨-, htop⟩ := defLen_bounds hw hj
  obtain ⟨-, -, -, -, hidx⟩ := hw.tables
  have hlt := hidx j hj
  have hval : idxAt (c.defPkgNl.map (BitVec.ofNat 16)) j = BitVec.ofNat 16 (c.defPkgNl.getD j 0) := by
    rw [idxAt, show (0 : Idx) = BitVec.ofNat 16 0 from rfl, List.getD_map]
  rw [hval, BitVec.toNat_ofNat, Nat.mod_eq_of_lt (by omega)]

/-! ## The shadow lengths after reset -/

theorem resetShadowLengths_length : (State.resetOf c).shLen.length = c.ncMax := by
  obtain ⟨-, -, -, -, -, ⟨-, hnc, -⟩, -⟩ := hw.scalars
  show (defaultLengths c ++ List.replicate (c.ncMax - c.defNc) 1).length = c.ncMax
  rw [List.length_append, List.length_replicate, defaultLengths_length hw]
  omega

theorem resetShadowLengths_active {j : Nat} (hj : j < c.defNc) :
    lenAt (State.resetOf c).shLen j = lenAt (State.resetOf c).len j :=
  List.getD_append _ _ _ _ (by rwa [defaultLengths_length hw])

theorem resetShadowLengths_padding {j : Nat} (hlo : c.defNc ≤ j) (hhi : j < c.ncMax) :
    lenAt (State.resetOf c).shLen j = 1 := by
  have hlen := defaultLengths_length hw
  show (defaultLengths c ++ List.replicate (c.ncMax - c.defNc) 1).getD j 0 = 1
  rw [List.getD_append_right _ _ _ _ (by omega), List.getD_replicate _ (by omega)]

theorem memRead_default_inactive {j k : Nat} (hk : k < 65536) (h : c.defNc ≤ j ∨ c.defLen.getD j 0 ≤ k) :
    memRead (tablesMemory 0 c.defTab) (tabAddr j k) = 0 := by
  rw [memRead_default hw j hk]
  rcases h with hj | hlen
  · rw [defTab_getD_beyond hw hj, List.getD_nil]
  · exact List.getD_eq_default _ _ (by rwa [defTab_getD_length hw])

end

/-- Every context after reset is not valid. -/
theorem resetOf_insts_invalid (c : Config) : ∀ x ∈ (State.resetOf c).insts, x.valid = false :=
  fun _ hx => (List.eq_of_mem_replicate hx) ▸ rfl

end Sys2Proof.Machine

namespace Sys2Proof.Proofs
open Sys2Proof Sys2Proof.Machine

/-- Settles O44, one row of R40 after another. -/
theorem resetLeavesTheDefaults : Obligations.ResetLeavesTheDefaults := by
  unfold Obligations.ResetLeavesTheDefaults
  intro c hw
  obtain ⟨-, -, -, hpkg, -⟩ := hw.tables
  refine ⟨rfl, ⟨by rw [State.resetOf, List.length_map, hpkg], fun j hj => defaultPackageIndex_toNat hw hj⟩,
    ⟨List.length_replicate, resetOf_insts_invalid c⟩, rfl, rfl, rfl, rfl, rfl,
    ⟨defaultLengths_length hw, resetShadowLengths_length hw⟩, fun j hj => ?activeComponent,
    fun j hlo hhi => ?padding, fun j k hk h => memRead_default_inactive hw hk h⟩
  case activeComponent =>
    obtain ⟨-, htop⟩ := defLen_bounds hw hj
    have htab := fun k (hk : k < c.defLen.getD j 0) => memRead_default hw j (hk.trans_le htop)
    exact ⟨defaultLengths_toNat hw hj, resetShadowLengths_active hw hj, defaultOffsets_toNat hw _ hj,
      defaultOffsets_toNat hw _ hj, fun k hk => ⟨htab k hk, htab k hk⟩⟩
  case padding => rw [resetShadowLengths_padding hw hlo hhi]; rfl

end Sys2Proof.Proofs
end

