-- ==== Sys2Proof/Proofs/Encoding.lean ====
section
/-! Illegal commands (spec/30_encoding.md R83 to R85, R90): the reserved fields as masks of the command word, what the
decoder does with each row of the opcode map and with every other opcode, and what the step makes of a rejection. -/

namespace Sys2Proof.Machine

/-! ## Fields as masks of the command word (R81) -/

theorem opField_toNat (c : Command) : (opField c).toNat = c.cw.toNat / 2 ^ 24 := by
  have h := c.cw.isLt
  rw [opField, BitVec.extractLsb'_toNat, Nat.shiftRight_eq_div_pow]
  omega

/-- A field is zero exactly when the word has no bit in common with the field's mask. -/
theorem extractLsb'_beq_zero {n : Nat} (x : BitVec n) (start len : Nat) :
    (x.extractLsb' start len == 0#len) = (x &&& ((BitVec.allOnes len).setWidth n <<< start) == 0#n) := by
  rw [Bool.eq_iff_iff, beq_iff_eq, beq_iff_eq, BitVec.eq_of_getLsbD_eq_iff, BitVec.eq_of_getLsbD_eq_iff]
  simp only [BitVec.getLsbD_extractLsb', BitVec.getLsbD_and, BitVec.getLsbD_shiftLeft, BitVec.getLsbD_setWidth,
    BitVec.getLsbD_allOnes, BitVec.getLsbD_zero]
  constructor
  · intro hfield b hb
    have hbit := hfield (b - start)
    grind
  · intro hmask b hb
    have hbit := hmask (start + b)
    have hbeyond := x.getLsbD_of_ge (start + b)
    grind

theorem iaField_beq_zero (c : Command) : (iaField c == 0#8) = (c.cw &&& 0x00FF0000#32 == 0#32) :=
  extractLsb'_beq_zero c.cw 16 8

theorem ixField_beq_zero (c : Command) : (ixField c == 0#16) = (c.cw &&& 0x0000FFFF#32 == 0#32) :=
  extractLsb'_beq_zero c.cw 0 16

theorem ixhField_beq_zero (c : Command) : (ixhField c == 0#8) = (c.cw &&& 0x0000FF00#32 == 0#32) :=
  extractLsb'_beq_zero c.cw 8 8

theorem ixrField_beq_zero (c : Command) : (ixrField c == 0#6) = (c.cw &&& 0x0000FC00#32 == 0#32) :=
  extractLsb'_beq_zero c.cw 10 6

theorem lvlField_beq_zero (c : Command) : (lvlField c == 0#2) = (c.cw &&& 0x00000300#32 == 0#32) :=
  extractLsb'_beq_zero c.cw 8 2

/-- The mask of `CW[23:0]` is the masks of `IA` and `IX` together. -/
theorem and_iaMask_ixMask_beq_zero (x : Word) :
    (x &&& 0x00FFFFFF#32 == 0#32) = (x &&& 0x00FF0000#32 == 0#32 && x &&& 0x0000FFFF#32 == 0#32) := by
  have hmask : 0x00FFFFFF#32 = 0x00FF0000#32 ||| 0x0000FFFF#32 := rfl
  rw [hmask, BitVec.and_or_distrib_left, Bool.eq_iff_iff]
  simp only [Bool.and_eq_true, beq_iff_eq, BitVec.or_eq_zero_iff]

theorem levelOfBits_bne_pkg (l : BitVec 2) : (levelOfBits l != .pkg) = (l != 0#2) := by
  revert l; decide

/-- The conditional reserved field of RDLIN and RDNL: `LVL` names a level above PKG, or `IA` is zero. -/
theorem levelOperandOk_fields (c : Command) : levelOperandOk (levelOfBits (lvlField c)) (iaField c) =
    (c.cw &&& 0x00000300#32 != 0#32 || c.cw &&& 0x00FF0000#32 == 0#32) := by
  rw [levelOperandOk, levelOfBits_bne_pkg, bne, lvlField_beq_zero, ← iaField_beq_zero]
  rfl

/-! ## The decoder on the opcode map (R83, R84) -/

@[simp] theorem acceptIf_true (c : Command) (i : Instr) : acceptIf true c i = .ok i := rfl

@[simp] theorem acceptIf_false (c : Command) (i : Instr) :
    acceptIf false c i = .error (.reservedField (opField c)) := rfl

/-- The fields that `row` of the opcode map reserves are all zero in `c`, `IA` of a readout at level PKG among them. -/
def reservedZero (row : Nat × Word × Word) (c : Command) : Bool :=
  c.cw &&& row.2.1 == 0 && c.dw &&& row.2.2 == 0 &&
    (row.1 != 0x50 && row.1 != 0x51 || (c.cw &&& 0x00000300 != 0 || c.cw &&& 0x00FF0000 == 0))

/-- On a row of the opcode map the decoder's test of the fields is the test of the row's masks. -/
theorem decode_of_row {row : Nat × Word × Word} (hrow : row ∈ reservedBits) {c : Command}
    (hop : c.cw.toNat / 2 ^ 24 = row.1) : ∃ i, decode c = acceptIf (reservedZero row c) c i := by
  have hdw : c.dw &&& 0xFFFFFFFF#32 = c.dw := BitVec.and_allOnes
  rw [← opField_toNat] at hop
  simp only [reservedBits, List.mem_cons, List.not_mem_nil, or_false] at hrow
  rcases hrow with rfl | rfl | rfl | rfl | rfl | rfl | rfl | rfl | rfl | rfl | rfl | rfl | rfl | rfl | rfl | rfl | rfl |
    rfl | rfl | rfl | rfl | rfl
  all_goals
    simp [decode, hop, reservedZero, hdw, and_iaMask_ixMask_beq_zero, iaField_beq_zero, ixField_beq_zero,
      ixhField_beq_zero, ixrField_beq_zero, levelOperandOk_fields]

/-- A command that R84 calls illegal stands in a row of the opcode map and fails its test. -/
theorem exists_row_of_reservedFieldSet {c : Command} (h : reservedFieldSet c) :
    ∃ row ∈ reservedBits, c.cw.toNat / 2 ^ 24 = row.1 ∧ reservedZero row c = false := by
  rcases h with ⟨row, hrow, hop, hbits⟩ | ⟨hop, hlvl, hia⟩
  · refine ⟨row, hrow, hop, ?_⟩
    rcases hbits with hcw | hdw
    · simp only [reservedZero, beq_eq_false_iff_ne.2 hcw, Bool.false_and]
    · simp only [reservedZero, beq_eq_false_iff_ne.2 hdw, Bool.false_and, Bool.and_false]
  · have hlevel : (c.cw &&& 0x00000300 != 0 || c.cw &&& 0x00FF0000 == 0) = false := by
      rw [bne_eq_false_iff_eq.2 hlvl, beq_eq_false_iff_ne.2 hia, Bool.or_false]
    rcases hop with hop | hop
    · exact ⟨(0x50, 0x0000FC00, 0xFFFFFFFF), by decide, hop, by simp only [reservedZero, hlevel]; simp⟩
    · exact ⟨(0x51, 0x0000FC00, 0xFFFFFFFF), by decide, hop, by simp only [reservedZero, hlevel]; simp⟩

/-- R84: the decoder rejects a command with a bit set in a reserved field, by that name. -/
theorem decode_of_reservedFieldSet {c : Command} (h : reservedFieldSet c) :
    decode c = .error (.reservedField (opField c)) := by
  obtain ⟨row, hrow, hop, hset⟩ := exists_row_of_reservedFieldSet h
  obtain ⟨i, hdec⟩ := decode_of_row hrow hop
  rw [hdec, hset, acceptIf_false]

/-- R85: the decoder rejects an undefined opcode by that name, whatever the other fields hold. -/
theorem decode_of_undefinedOpcode {c : Command} (h : undefinedOpcode (c.cw.toNat / 2 ^ 24) = true) :
    decode c = .error (.undefinedOpcode (opField c)) := by
  rw [← opField_toNat] at h
  unfold decode
  split
  case h_23 => rfl
  all_goals
    next hop =>
      rw [hop] at h
      exact absurd h (by decide)

/-! ## The step on a presented command -/

theorem step_of_decode_ok {s : State} {c : Command} {rest : List Command} {i : Instr} (hport : s.port = c :: rest)
    (hdec : decode c = .ok i) : step s = exec i { s with port := rest } := by
  simp only [step, takeCommand, hport, hdec]

/-- A rejected command, for either reason, ends with status 4. -/
theorem step_of_decode_error {s : State} {c : Command} {rest : List Command} {e : DecodeError}
    (hport : s.port = c :: rest) (hdec : decode c = .error e) :
    step s = .next (refusedWith 4 { s with port := rest }) := by
  simp only [step, takeCommand, hport, hdec]
  exact fail_eq .illegalCmd _

end Sys2Proof.Machine

namespace Sys2Proof.Proofs
open Sys2Proof Sys2Proof.Machine

/-- Settles O3: the decoder rejects the command, and the step answers a rejection with status 4. -/
theorem reservedFieldIsIllegal : Obligations.ReservedFieldIsIllegal := by
  unfold Obligations.ReservedFieldIsIllegal
  intro s c rest hport hset
  exact step_of_decode_error hport (decode_of_reservedFieldSet hset)

/-- Settles O4: the count is over the 256 values of `OP`; the decoder rejects each of those opcodes, and whatever it
answers, the step has a next state or runs the instruction. -/
theorem undefinedOpcodeIsIllegal : Obligations.UndefinedOpcodeIsIllegal := by
  unfold Obligations.UndefinedOpcodeIsIllegal
  refine ⟨rfl, fun s c rest hport hop => ?_, fun s c rest hport => ?_⟩
  · exact step_of_decode_error hport (decode_of_undefinedOpcode hop)
  · cases hdec : decode c with
    | ok i => exact .inl ⟨i, rfl, step_of_decode_ok hport hdec⟩
    | error e => exact .inr (step_of_decode_error hport hdec)

/-- Settles O6: the seven legal words are evaluated; the two illegal ones fall under R84 and R85, whatever `DW` is. -/
theorem workedEncodingsDecode : Obligations.WorkedEncodingsDecode := by
  unfold Obligations.WorkedEncodingsDecode
  refine ⟨rfl, rfl, rfl, rfl, rfl, rfl, rfl, fun dw => ?reserved, fun dw => ?undefined⟩
  case reserved =>
    have hset : reservedFieldSet ⟨0x10000001, dw⟩ :=
      .inl ⟨(0x10, 0x0000FFFF, 0xFFFFFFFF), by decide, by simp, .inl (by simp)⟩
    have hop : opField ⟨0x10000001, dw⟩ = 0x10 := by simp [opField]
    rw [decode_of_reservedFieldSet hset, hop]
  case undefined =>
    have hop : opField ⟨0xFF000000, dw⟩ = 0xFF := by simp [opField]
    have hundef : undefinedOpcode ((0xFF000000 : Word).toNat / 2 ^ 24) = true := by decide
    rw [decode_of_undefinedOpcode hundef, hop]

end Sys2Proof.Proofs
end

