-- ==== Sys2Proof/Proofs/Offsets.lean ====
section
/-! The jump offsets of the combiner (spec/41_combiner.md R134): each offset register holds the residue of the power of
two of its gap. -/

namespace Sys2Proof.Machine

/-- An entry of an offset bank, for either gap: `e` is the exponent of the gap. -/
theorem idxAt_map_offsetOf_toNat (e : Nat) {len : List Len} {j : Nat} (hj : j < len.length)
    (hpos : 1 ≤ (lenAt len j).toNat) (htop : (lenAt len j).toNat ≤ 65536) :
    (idxAt (len.map (offsetOf e)) j).toNat = 2 ^ e % (lenAt len j).toNat := by
  rw [idxAt_map_offsetOf e len j hj, offsetOf_toNat e _ hpos htop]

end Sys2Proof.Machine

namespace Sys2Proof.Proofs
open Sys2Proof Sys2Proof.Machine

/-- Settles O50: repeated doubling computes the residue (`pow2Mod_eq`), a residue by a length up to 65536 fits its
16-bit register, and the two banks differ in the exponent of their gap only. -/
theorem offsetsArePowersOfTwo : Obligations.OffsetsArePowersOfTwo := by
  unfold Obligations.OffsetsArePowersOfTwo
  refine ⟨pow2Mod_eq, ⟨rfl, rfl⟩, fun c len j hj hpos htop => ⟨?sub, ?str⟩⟩
  case sub => exact idxAt_map_offsetOf_toNat c.wExp hj hpos htop
  case str => exact idxAt_map_offsetOf_toNat (c.wExp + c.vExp) hj hpos htop

end Sys2Proof.Proofs
end

