-- ==== Sys2Proof/Proofs/Mixer.lean ====
section
/-! The mixer's UNSIGN and NORMALISE (spec/43_mixer.md R181, R182, R185). The integer algorithm of R182 is read in three
stages, each with the rational it stands for: rounding to a multiple of a power of two, doubling to a full significand,
packing. Rounding never passes a multiple of the rounding unit, and this keeps it inside the range of R185. -/

namespace Sys2Proof.Machine

/-! ## UNSIGN -/

theorem unsign_zero : unsign 0 = 2 ^ 32 := by decide

theorem unsign_of_ne_zero {z : Word} (hz : z ≠ 0) : unsign z = z.toNat := by
  have hpos : z.toNat ≠ 0 := fun h => hz (BitVec.eq_of_toNat_eq h)
  have hlt := z.isLt
  rw [unsign, BitVec.toInt_eq_toNat_cond]
  split_ifs <;> omega

theorem unsign_bounds (z : Word) : 1 ≤ unsign z ∧ unsign z ≤ 2 ^ 32 := by
  by_cases hz : z = 0
  · rw [hz, unsign_zero]
    omega
  · have hpos : z.toNat ≠ 0 := fun h => hz (BitVec.eq_of_toNat_eq h)
    rw [unsign_of_ne_zero hz]
    exact ⟨by omega, z.isLt.le⟩

/-! ## The product `u * NORMC` -/

/-- The rational that a significand and a scale stand for (R182). -/
def partsValue (x : Nat × Int) : ℚ := x.1 * (2 : ℚ) ^ (x.2 - 64)

theorem partsValue_natCast (q d : Nat) : partsValue (q, d) = (q * 2 ^ d : ℕ) / 2 ^ 64 := by
  rw [partsValue, zpow_sub₀ two_ne_zero, zpow_natCast]
  push_cast
  ring

theorem normC_eq : normC = (2 ^ 32 - 1 : ℕ) / 2 ^ 64 := by norm_num [normC]

theorem normC_pos : 0 < normC := by norm_num [normC]

theorem normNumerator_div (u : Nat) : (normNumerator u : ℚ) / 2 ^ 64 = u * normC := by
  rw [normC_eq, normNumerator]
  push_cast
  ring

theorem normNumerator_bounds {u : Nat} (h1 : 1 ≤ u) (h2 : u ≤ 2 ^ 32) :
    2 ^ 32 - 1 ≤ normNumerator u ∧ normNumerator u ≤ 2 ^ 64 - 2 ^ 32 := by
  unfold normNumerator; omega

/-! ## Rounding -/

/-- How many low bits rounding `n` to 53 bits drops. -/
def droppedBits (n : Nat) : Nat := Nat.log2 n + 1 - 53

/-- `n / 2^d` rounded to nearest, ties to even. -/
def roundedQuotient (n d : Nat) : Nat :=
  if 2 ^ (d - 1) < n % 2 ^ d ∨ (n % 2 ^ d = 2 ^ (d - 1) ∧ n / 2 ^ d % 2 = 1) then n / 2 ^ d + 1 else n / 2 ^ d

/-- Rounding answers the floor, or one more when the division leaves a remainder. -/
theorem roundedQuotient_cases (n d : Nat) :
    roundedQuotient n d = n / 2 ^ d ∨ roundedQuotient n d = n / 2 ^ d + 1 ∧ 0 < n % 2 ^ d := by
  have hhalf : 0 < 2 ^ (d - 1) := by positivity
  unfold roundedQuotient
  split_ifs with hup
  · exact .inr ⟨rfl, by omega⟩
  · exact .inl rfl

@[simp] theorem roundedQuotient_zero (n : Nat) : roundedQuotient n 0 = n := by
  rcases roundedQuotient_cases n 0 with h | ⟨-, h⟩
  · simpa using h
  · simp [Nat.mod_one] at h

/-- Rounding down does not pass a multiple of the unit. -/
theorem le_roundedQuotient {n d m : Nat} (h : m * 2 ^ d ≤ n) : m ≤ roundedQuotient n d := by
  have hfloor : m ≤ n / 2 ^ d := (Nat.le_div_iff_mul_le (by positivity)).2 h
  rcases roundedQuotient_cases n d with heq | ⟨heq, -⟩ <;> omega

/-- Rounding up does not pass a multiple of the unit: it happens only strictly below one. -/
theorem roundedQuotient_le {n d m : Nat} (h : n ≤ m * 2 ^ d) : roundedQuotient n d ≤ m := by
  rcases roundedQuotient_cases n d with heq | ⟨heq, hrem⟩
  · exact heq ▸ Nat.div_le_of_le_mul (mul_comm m _ ▸ h)
  · have hbelow : n / 2 ^ d * 2 ^ d < m * 2 ^ d := by
      have := Nat.div_add_mod' n (2 ^ d)
      omega
    exact heq ▸ Nat.lt_of_mul_lt_mul_right hbelow

theorem lt_two_pow_droppedBits (n : Nat) : n < 2 ^ 53 * 2 ^ droppedBits n := by
  rw [← pow_add]
  exact Nat.lt_log2_self.trans_le (Nat.pow_le_pow_right two_pos (by unfold droppedBits; omega))

theorem two_pow_droppedBits_le {n : Nat} (h : n ≠ 0) : 2 ^ droppedBits n ≤ n :=
  (Nat.pow_le_pow_right two_pos (by unfold droppedBits; omega)).trans (Nat.log2_self_le h)

theorem droppedBits_le {n k : Nat} (h : n < 2 ^ (53 + k)) : droppedBits n ≤ k := by
  by_cases h0 : n = 0
  · simp [h0, droppedBits]
  · have hlog := (Nat.log2_lt h0).2 h
    unfold droppedBits; omega

/-- The rounding of R182 without its exact case: dropping no bit rounds nothing. -/
theorem roundTo53_eq (n : Nat) :
    roundTo53 n = if roundedQuotient n (droppedBits n) = 2 ^ 53 then (2 ^ 52, (droppedBits n : Int) + 1)
      else (roundedQuotient n (droppedBits n), (droppedBits n : Int)) := by
  by_cases hp : Nat.log2 n + 1 ≤ 53
  · have hd : droppedBits n = 0 := by unfold droppedBits; omega
    have hn : n ≠ 2 ^ 53 := by
      have := lt_two_pow_droppedBits n
      rw [hd] at this
      omega
    rw [hd, roundedQuotient_zero, if_neg hn]
    simp [roundTo53, hp]
  · simp [roundTo53, hp, droppedBits, roundedQuotient, Nat.shiftRight_eq_div_pow]

theorem partsValue_roundTo53 (n : Nat) :
    partsValue (roundTo53 n) = (roundedQuotient n (droppedBits n) * 2 ^ droppedBits n : ℕ) / 2 ^ 64 := by
  rw [roundTo53_eq]
  split_ifs with hq
  · rw [hq, ← Nat.cast_succ, partsValue_natCast, pow_succ (2 : ℕ) (droppedBits n)]
    ring_nf
  · exact partsValue_natCast _ _

theorem roundTo53_bounds {n : Nat} (h0 : n ≠ 0) (h : n < 2 ^ 64) :
    1 ≤ (roundTo53 n).1 ∧ (roundTo53 n).1 < 2 ^ 53 ∧ 0 ≤ (roundTo53 n).2 ∧ (roundTo53 n).2 ≤ 12 := by
  have hlow : 1 ≤ roundedQuotient n (droppedBits n) :=
    le_roundedQuotient (by simpa using two_pow_droppedBits_le h0)
  have hhigh : roundedQuotient n (droppedBits n) ≤ 2 ^ 53 := roundedQuotient_le (lt_two_pow_droppedBits n).le
  have hd := droppedBits_le (k := 11) h
  rw [roundTo53_eq]
  split_ifs <;> dsimp only <;> omega

/-- Rounding keeps `n` below a bound of which it drops no set bit. -/
theorem partsValue_roundTo53_le {n m : Nat} (h : n ≤ m) (hm : 2 ^ droppedBits n ∣ m) :
    partsValue (roundTo53 n) ≤ m / 2 ^ 64 := by
  obtain ⟨k, rfl⟩ := hm
  rw [mul_comm] at h ⊢
  rw [partsValue_roundTo53]
  gcongr
  exact roundedQuotient_le h

/-- Rounding keeps `n` above a bound of which it drops no set bit. -/
theorem le_partsValue_roundTo53 {n m : Nat} (h : m ≤ n) (hm : 2 ^ droppedBits n ∣ m) :
    (m : ℚ) / 2 ^ 64 ≤ partsValue (roundTo53 n) := by
  obtain ⟨k, rfl⟩ := hm
  rw [mul_comm] at h ⊢
  rw [partsValue_roundTo53]
  gcongr
  exact le_roundedQuotient h

/-- Rounding keeps `n` above every number of at most 53 bits: it drops nothing, or the leading bit alone exceeds it. -/
theorem le_partsValue_roundTo53_of_lt {n m : Nat} (h : m ≤ n) (hm : m < 2 ^ 53) :
    (m : ℚ) / 2 ^ 64 ≤ partsValue (roundTo53 n) := by
  by_cases hn : n < 2 ^ 53
  · exact le_partsValue_roundTo53 h (by simp [Nat.le_zero.1 (droppedBits_le (k := 0) hn)])
  · have h0 : n ≠ 0 := by omega
    have hlead : m ≤ 2 ^ Nat.log2 n :=
      hm.le.trans (Nat.pow_le_pow_right two_pos ((Nat.le_log2 h0).2 (not_lt.1 hn)))
    calc (m : ℚ) / 2 ^ 64 ≤ (2 ^ Nat.log2 n : ℕ) / 2 ^ 64 := by gcongr
      _ ≤ partsValue (roundTo53 n) :=
        le_partsValue_roundTo53 (Nat.log2_self_le h0) (pow_dvd_pow 2 (by unfold droppedBits; omega))

/-! ## Doubling to a full significand -/

@[simp] theorem partsValue_scaleUp (fuel : Nat) (x : Nat × Int) : partsValue (scaleUp fuel x) = partsValue x := by
  induction fuel generalizing x with
  | zero => rfl
  | succ fuel ih =>
    obtain ⟨q, sh⟩ := x
    rw [scaleUp]
    split_ifs
    · have hdouble : (2 : ℚ) ^ (sh - 64) = 2 * 2 ^ (sh - 1 - 64) := by
        rw [← zpow_one_add₀ two_ne_zero]; congr 1; ring
      rw [ih, partsValue, partsValue, hdouble]
      push_cast
      ring
    · rfl

/-- Enough doublings end at 53 bits exactly, and each lowers the scale by one. -/
theorem scaleUp_bounds (fuel : Nat) (x : Nat × Int) (hq : x.1 < 2 ^ 53) (hfuel : 2 ^ 52 ≤ 2 ^ fuel * x.1) :
    (2 ^ 52 ≤ (scaleUp fuel x).1 ∧ (scaleUp fuel x).1 < 2 ^ 53) ∧
      x.2 - fuel ≤ (scaleUp fuel x).2 ∧ (scaleUp fuel x).2 ≤ x.2 := by
  induction fuel generalizing x with
  | zero => exact ⟨⟨by simpa [scaleUp] using hfuel, hq⟩, by simp [scaleUp], le_rfl⟩
  | succ fuel ih =>
    obtain ⟨q, sh⟩ := x
    dsimp only at hq hfuel
    rw [scaleUp]
    split_ifs with hsmall
    · obtain ⟨hsig, hlow, hhigh⟩ := ih (2 * q, sh - 1) (by omega) (by rwa [← mul_assoc, ← pow_succ])
      exact ⟨hsig, by push_cast; omega, by omega⟩
    · exact ⟨⟨by omega, hq⟩, by push_cast; omega, le_rfl⟩

/-! ## Packing -/

theorem packBinary64_toNat {f : Nat} {sh : Int} (hf : f < 2 ^ 52) (hlow : -1011 ≤ sh) (hhigh : sh ≤ 1036) :
    (packBinary64 (2 ^ 52 + f) sh).toNat = (sh + 1011).toNat * 2 ^ 52 + f := by
  have hbiased : 52 + sh - 64 + 1023 = sh + 1011 := by ring
  rw [packBinary64, BitVec.toNat_ofNat, Nat.add_sub_cancel_left, hbiased]
  exact Nat.mod_eq_of_lt (by omega)

/-- The fields of the pattern read back as the significand and the scale they were made of. -/
theorem binary64Value_packBinary64 {q : Nat} {sh : Int} (hfull : 2 ^ 52 ≤ q) (hq : q < 2 ^ 53) (hlow : -1011 ≤ sh)
    (hhigh : sh ≤ 1036) : binary64Value (packBinary64 q sh) = partsValue (q, sh) := by
  obtain ⟨f, rfl⟩ := Nat.exists_eq_add_of_le hfull
  have hnat := packBinary64_toNat (f := f) (by omega) hlow hhigh
  have hsign : (packBinary64 (2 ^ 52 + f) sh).getLsbD 63 = false := by
    rw [BitVec.getLsbD, hnat]
    exact Nat.testBit_lt_two_pow (by omega)
  have hfrac : (packBinary64 (2 ^ 52 + f) sh).toNat % 2 ^ 52 = f := by omega
  have hexp : (((packBinary64 (2 ^ 52 + f) sh).toNat / 2 ^ 52 % 2 ^ 11 : ℕ) : ℤ) - 1023 = (52 : ℕ) + (sh - 64) := by
    omega
  rw [binary64Value, hsign, hfrac, hexp, partsValue, zpow_add₀ two_ne_zero, zpow_natCast]
  push_cast
  field_simp
  norm_num

/-! ## NORMALISE -/

theorem normParts_bounds {u : Nat} (h1 : 1 ≤ u) (h2 : u ≤ 2 ^ 32) :
    (2 ^ 52 ≤ (normParts u).1 ∧ (normParts u).1 < 2 ^ 53) ∧ -52 ≤ (normParts u).2 ∧ (normParts u).2 ≤ 12 := by
  obtain ⟨hN1, hN2⟩ := normNumerator_bounds h1 h2
  obtain ⟨hq1, hq2, hsh1, hsh2⟩ := roundTo53_bounds (n := normNumerator u) (by omega) (by omega)
  obtain ⟨hsig, hlow, hhigh⟩ := scaleUp_bounds 52 (roundTo53 (normNumerator u)) hq2 (by omega)
  rw [normParts]
  exact ⟨hsig, by omega, hhigh.trans hsh2⟩

/-- The value of NORMALISE is the rounded product: doubling and packing are exact. -/
theorem binary64Value_normalise {u : Nat} (h1 : 1 ≤ u) (h2 : u ≤ 2 ^ 32) :
    binary64Value (normalise u) = partsValue (roundTo53 (normNumerator u)) := by
  obtain ⟨⟨hfull, hq⟩, hlow, hhigh⟩ := normParts_bounds h1 h2
  rw [normalise, binary64Value_packBinary64 hfull hq (by omega) (by omega), Prod.mk.eta, normParts, partsValue_scaleUp]

/-- Every rounding unit of the range divides its upper end, the product at `u = 2^32`. -/
theorem two_pow_droppedBits_dvd {n : Nat} (h : n < 2 ^ 64) : 2 ^ droppedBits n ∣ 2 ^ 64 - 2 ^ 32 :=
  (pow_dvd_pow 2 (droppedBits_le (k := 11) h)).trans (by norm_num)

/-- R185's range, before UNSIGN: the least product has 32 bits, and the greatest ends in 32 zeros, so rounding passes
neither. -/
theorem binary64Value_normalise_bounds {u : Nat} (h1 : 1 ≤ u) (h2 : u ≤ 2 ^ 32) :
    normC ≤ binary64Value (normalise u) ∧ binary64Value (normalise u) ≤ 1 - 1 / 2 ^ 32 := by
  obtain ⟨hlow, hhigh⟩ := normNumerator_bounds h1 h2
  rw [binary64Value_normalise h1 h2]
  constructor
  · rw [normC_eq]
    exact le_partsValue_roundTo53_of_lt hlow (by norm_num)
  · calc _ ≤ ((2 ^ 64 - 2 ^ 32 : ℕ) : ℚ) / 2 ^ 64 :=
          partsValue_roundTo53_le hhigh (two_pow_droppedBits_dvd (by omega))
      _ = 1 - 1 / 2 ^ 32 := by norm_num

/-- NORMALISE is exact when rounding drops no set bit of the product. -/
theorem binary64Value_normalise_of_dvd {u : Nat} (h1 : 1 ≤ u) (h2 : u ≤ 2 ^ 32)
    (hdvd : 2 ^ droppedBits (normNumerator u) ∣ normNumerator u) : binary64Value (normalise u) = u * normC := by
  rw [binary64Value_normalise h1 h2, ← normNumerator_div]
  exact le_antisymm (partsValue_roundTo53_le le_rfl hdvd) (le_partsValue_roundTo53 le_rfl hdvd)

/-- The least draw: a product of 32 bits. -/
theorem binary64Value_normalise_one : binary64Value (normalise 1) = normC := by
  have hd : droppedBits (normNumerator 1) = 0 := Nat.le_zero.1 (droppedBits_le (by norm_num [normNumerator]))
  rw [binary64Value_normalise_of_dvd le_rfl (by norm_num) (by simp [hd]), Nat.cast_one, one_mul]

/-- The greatest draw: a product that ends in 32 zeros. -/
theorem binary64Value_normalise_two_pow : binary64Value (normalise (2 ^ 32)) = 1 - 1 / 2 ^ 32 := by
  have hN : normNumerator (2 ^ 32) = 2 ^ 64 - 2 ^ 32 := by norm_num [normNumerator]
  have hdvd : 2 ^ droppedBits (normNumerator (2 ^ 32)) ∣ normNumerator (2 ^ 32) := by
    rw [hN]
    exact two_pow_droppedBits_dvd (by norm_num)
  rw [binary64Value_normalise_of_dvd (by norm_num) le_rfl hdvd, normC]
  norm_num

end Sys2Proof.Machine

namespace Sys2Proof.Proofs
open Sys2Proof Sys2Proof.Machine

/-- Settles O56: the zero word is evaluated, and the four values are unsigned readings of words that are not zero. -/
theorem unsignRecoversTheUnsignedWord : Obligations.UnsignRecoversTheUnsignedWord := by
  unfold Obligations.UnsignRecoversTheUnsignedWord
  exact ⟨fun z => unsign_of_ne_zero, unsign_zero, unsign_of_ne_zero (by decide), unsign_of_ne_zero (by decide),
    unsign_of_ne_zero (by decide), unsign_of_ne_zero (by decide)⟩

/-- Settles O57: UNSIGN answers a number from 1 to `2^32`, NORMALISE keeps those between its values at the two ends, and
the ends lie strictly inside (0,1). -/
theorem normalisedDrawIsInsideUnit : Obligations.NormalisedDrawIsInsideUnit := by
  unfold Obligations.NormalisedDrawIsInsideUnit
  have hrange (z : Word) := binary64Value_normalise_bounds (unsign_bounds z).1 (unsign_bounds z).2
  refine ⟨hrange, normC_pos, binary64Value_normalise_one, binary64Value_normalise_two_pow, fun z => ?_⟩
  obtain ⟨hlow, hhigh⟩ := hrange z
  exact ⟨normC_pos.trans_le hlow, hhigh.trans_lt (by norm_num)⟩

end Sys2Proof.Proofs
end

