-- ==== Sys2Proof/Proofs/Errors.lean ====
section
/-! Errors (spec/60_exceptions.md R220 to R228). Two layers: each shared operation refuses on its causes (R222 to R226),
and each command raises only the error kinds that the table of R221 gives it. -/

namespace Sys2Proof.Machine

/-! ## BAD_INSTANCE (R226) -/

theorem contextAt_of_le {s : State} {i : BitVec 8} (h : s.cfg.nInst ≤ i.toNat) : contextAt s i = none :=
  if_neg (Nat.not_lt.2 h)

theorem withContext_of_instanceRefused {s : State} {i : BitVec 8} (h : instanceRefused s i) (body : Context → Result) :
    withContext i s body = .next (refusedWith 5 s) :=
  withContext_of_refused s i body (not_valid_of_refused s i h)

theorem withLevelBank_of_instanceRefused {s : State} {i : BitVec 8} (h : instanceRefused s i) {lvl : Level}
    (hlvl : lvl ≠ .pkg) (body : Vec × List Idx → Result) : withLevelBank lvl i s body = .next (refusedWith 5 s) := by
  rcases withLevelBank_cases lvl i s body with ⟨hpkg, -⟩ | ⟨hpkg, -⟩ | ⟨-, -, hfail⟩ | ⟨c, -, -, hc, -⟩
  · exact absurd hpkg hlvl
  · exact absurd hpkg hlvl
  · exact hfail
  · exact absurd hc (not_valid_of_refused s i h c)

theorem execConstruct_of_le {s : State} {d : BitVec 8} (h : s.cfg.nInst ≤ d.toNat) :
    execConstruct d s = .next (refusedWith 5 s) := by
  rw [execConstruct, contextAt_of_le h]
  rfl

theorem execClone_of_le {s : State} {d : BitVec 8} (h : s.cfg.nInst ≤ d.toNat) (src : BitVec 8) :
    execClone d src s = .next (refusedWith 5 s) := by
  rw [execClone, contextAt_of_le h]
  rfl

theorem execClone_of_sourceRefused {s : State} {src : BitVec 8} (h : instanceRefused s src) (d : BitVec 8) :
    execClone d src s = .next (refusedWith 5 s) := by
  rw [execClone, (validContext_none s src).2 (not_valid_of_refused s src h)]
  cases contextAt s d <;> rfl

/-! ## Staged seeds: INVALID_SEED and INVALID_ARGUMENT (R222, R223) -/

theorem verifySeed_of_all_zero {c : Config} {x : Vec} (h : ∀ w ∈ x, w = 0) : verifySeed c x = false :=
  if_pos (by simpa using h)

theorem verifySeed_of_reservedLast {c : Config} {x : Vec} (h : c.reservedLast = some (x.getD (c.r - 1) 0)) :
    verifySeed c x = false := by
  simp [verifySeed, h]

theorem wordAt_stagedVector {s : State} {k : Nat} (hk : k < s.cfg.r) : wordAt (stagedVector s) k = wordAt s.sb k := by
  simp [wordAt, stagedVector, List.getD, hk]

theorem stagedVector_all_zero {s : State} (h : ∀ k, k < s.cfg.r → wordAt s.sb k = 0) : ∀ w ∈ stagedVector s, w = 0 := by
  intro w hw
  obtain ⟨k, hk, rfl⟩ := List.getElem_of_mem hw
  have hkr : k < s.cfg.r := hk.trans_le (List.length_take_le ..)
  rw [← List.getD_eq_getElem (stagedVector s) 0 hk]
  exact (wordAt_stagedVector hkr).trans (h k hkr)

/-- R106 on the staged words. With `R = 0` there is no final word, and the empty vector counts as all zero. -/
theorem verifySeed_stagedVector {s : State}
    (h : (∀ k, k < s.cfg.r → wordAt s.sb k = 0) ∨ s.cfg.reservedLast = some (wordAt s.sb (s.cfg.r - 1))) :
    verifySeed s.cfg (stagedVector s) = false := by
  rcases Nat.eq_zero_or_pos s.cfg.r with hr | hr
  · exact verifySeed_of_all_zero (stagedVector_all_zero fun k hk => by omega)
  · rcases h with hzero | hlast
    · exact verifySeed_of_all_zero (stagedVector_all_zero hzero)
    · exact verifySeed_of_reservedLast (hlast.trans (congrArg some (wordAt_stagedVector (by omega)).symm))

theorem exec_setpkgl (s : State) :
    exec .setpkgl s = withLinearSeed s fun x => finish { clearStaging s with pkgLin := x } := rfl

theorem exec_setpkgn (s : State) :
    exec .setpkgn s = withNonlinearSeed s fun a => finish { clearStaging s with pkgNl := a } := rfl

theorem withLinearSeed_of_length {s : State} (h : s.scnt ≠ s.cfg.r) (body : Vec → Result) :
    withLinearSeed s body = .next (refusedWith 2 s) := if_pos h

theorem withLinearSeed_of_invalid {s : State} (hlen : s.scnt = s.cfg.r)
    (hseed : verifySeed s.cfg (stagedVector s) = false) (body : Vec → Result) :
    withLinearSeed s body = .next (refusedWith 1 s) := by
  rw [withLinearSeed, if_neg (not_not.2 hlen), if_pos hseed]
  rfl

theorem withNonlinearSeed_of_refused {s : State}
    (h : s.scnt ≠ s.nc ∨ (s.scnt = s.nc ∧ ∃ j, j < s.nc ∧ (lenAt s.len j).toNat ≤ (wordAt s.sb j).toNat))
    (body : List Idx → Result) : withNonlinearSeed s body = .next (refusedWith 2 s) := by
  rcases withNonlinearSeed_cases s body with ⟨-, hfail⟩ | ⟨⟨hlen, hin⟩, -⟩
  · exact hfail
  · rcases h with hne | ⟨-, j, hj, hout⟩
    · exact absurd hlen hne
    · exact absurd (hin j hj) (Nat.not_lt.2 hout)

/-! ## Operands beyond a capacity or a range (R223 (c), (e)) -/

theorem execTbcnt_of_out_of_range {s : State} {n : Word} (h : n.toNat = 0 ∨ s.cfg.ncMax < n.toNat) :
    execTbcnt n s = .next (refusedWith 2 s) := if_neg (by omega)

theorem execTblen_of_out_of_range {s : State} {j : BitVec 8} {n : Word}
    (h : s.cfg.ncMax ≤ j.toNat ∨ n.toNat = 0 ∨ s.cfg.lMax < n.toNat) :
    execTblen j n s = .next (refusedWith 2 s) := if_neg (by omega)

theorem execTbwr_of_out_of_range {s : State} {j : BitVec 8} {k : BitVec 16} (w : Word)
    (h : s.cfg.ncMax ≤ j.toNat ∨ s.cfg.lMax ≤ k.toNat) : execTbwr j k w s = .next (refusedWith 2 s) :=
  if_neg (by omega)

/-- The register sets a readout may select: the package bank, or a level of a valid context (R201, R202). -/
def levelAccepted (s : State) (lvl : Level) (i : BitVec 8) : Prop :=
  (lvl = .pkg ∧ i = 0) ∨ (lvl ≠ .pkg ∧ ∃ c, isValidContext s i c)

theorem withLevelBank_of_accepted {s : State} {lvl : Level} {i : BitVec 8} (h : levelAccepted s lvl i)
    (body : Vec × List Idx → Result) : ∃ bank, withLevelBank lvl i s body = body bank := by
  rcases withLevelBank_cases lvl i s body with
    ⟨hpkg, hi, -⟩ | ⟨-, -, hbody⟩ | ⟨hlvl, hnone, -⟩ | ⟨-, bank, -, -, hbody, -⟩
  · rcases h with ⟨-, h0⟩ | ⟨hlvl, -⟩
    · exact absurd h0 hi
    · exact absurd hpkg hlvl
  · exact ⟨_, hbody⟩
  · rcases h with ⟨hpkg, -⟩ | ⟨-, c, hc⟩
    · exact absurd hpkg hlvl
    · exact absurd hc (hnone c)
  · exact ⟨bank, hbody⟩

theorem execRdlin_of_le {s : State} {lvl : Level} {i k : BitVec 8} (hk : s.cfg.r ≤ k.toNat)
    (h : levelAccepted s lvl i) : execRdlin lvl i k s = .next (refusedWith 2 s) := by
  obtain ⟨bank, hbank⟩ := withLevelBank_of_accepted h fun bank =>
    if k.toNat < s.cfg.r then finishWord (wordAt bank.1 k.toNat) s else fail .invalidArgument s
  exact hbank.trans (if_neg (Nat.not_lt.2 hk))

theorem execRdnl_of_le {s : State} {lvl : Level} {i j : BitVec 8} (hj : s.nc ≤ j.toNat)
    (h : levelAccepted s lvl i) : execRdnl lvl i j s = .next (refusedWith 2 s) := by
  obtain ⟨bank, hbank⟩ := withLevelBank_of_accepted h fun bank =>
    if j.toNat < s.nc then finishWord ((idxAt bank.2 j.toNat).setWidth 32) s else fail .invalidArgument s
  exact hbank.trans (if_neg (Nat.not_lt.2 hj))

theorem execRdtab_of_absent {s : State} {j : BitVec 8} {k : BitVec 16}
    (h : s.nc ≤ j.toNat ∨ (lenAt s.len j.toNat).toNat ≤ k.toNat) : execRdtab j k s = .next (refusedWith 2 s) := by
  rw [execRdtab, (tabCell_none s j.toNat k.toNat).2 h]
  rfl

theorem configItem_undefined_item {s : State} {t : BitVec 8} (h : 10 ≤ t.toNat) : configItem s 0 t = none := by
  obtain ⟨n, hn⟩ := Nat.exists_eq_add_of_le' h
  simp [configItem, hn]

theorem configItem_undefined_group {s : State} {g : BitVec 8} (h : 5 ≤ g.toNat) (t : BitVec 8) :
    configItem s g t = none := by
  obtain ⟨n, hn⟩ := Nat.exists_eq_add_of_le' h
  simp [configItem, hn]

/-- The selectors R204 leaves undefined. -/
theorem configItem_undefined {s : State} {g t : BitVec 8}
    (h : (g = 0 ∧ 10 ≤ t.toNat) ∨ ((g = 1 ∨ g = 2 ∨ g = 3) ∧ s.nc ≤ t.toNat) ∨ (g = 4 ∧ s.cfg.ncMax ≤ t.toNat) ∨
      5 ≤ g.toNat) : configItem s g t = none := by
  rcases h with ⟨rfl, ht⟩ | ⟨hg, ht⟩ | ⟨rfl, ht⟩ | hg
  · exact configItem_undefined_item ht
  · rcases hg with rfl | rfl | rfl <;> exact if_neg (Nat.not_lt.2 ht)
  · exact if_neg (Nat.not_lt.2 ht)
  · exact configItem_undefined_group hg t

theorem execRdcfg_of_undefined {s : State} {g t : BitVec 8} (h : configItem s g t = none) :
    execRdcfg g t s = .next (refusedWith 2 s) := by
  rw [execRdcfg, h]
  rfl

/-! ## ILLEGAL_STATE (R224) -/

theorem execReplace_locked {s : State} (h : s.instExists = true) : execReplace s = .next (refusedWith 3 s) := if_pos h

theorem execReplace_unlocked {s : State} (h : s.instExists ≠ true) : execReplace s = finish (installShadow s) :=
  if_neg h

/-! ## Which command raises which error (R221) -/

/-- The column "raised by" of R221, read by command; the 4 of RDLIN and RDNL is the ill-formed term of log 13. -/
def raisedCodes : Instr → List (BitVec 8)
  | .nextu _ | .nextw _ | .construct _ | .rststream _ | .rstsub _ | .nextsub _ | .clone _ _ => [5]
  | .setpkgl => [1, 2]
  | .setseedl _ => [1, 2, 5]
  | .setpkgn | .tbcnt _ | .tblen _ _ | .tbwr _ _ _ | .rdtab _ _ | .rdcfg _ _ => [2]
  | .setseedn _ => [2, 5]
  | .replace => [3]
  | .rdlin _ _ _ | .rdnl _ _ _ => [2, 4, 5]
  | .sbclr | .sbpush _ | .rdstat => []

/-- If `x`, run in state `s`, ends with a response, its status is 0 or one of `codes`. -/
def statusIn (s : State) (codes : List (BitVec 8)) (x : Result) : Prop :=
  ∀ t r, x = .next t → endedWith s t r → r.st = 0 ∨ r.st ∈ codes

section
variable {s : State} {codes : List (BitVec 8)}

theorem statusIn_respond {r : Response} (hr : r.st = 0) (s' : State) : statusIn s codes (.next (respond r s')) := by
  rintro t r' ⟨⟩ hend
  have : r = r' := (List.append_inj' hend rfl).2 |> List.singleton_inj.1
  exact .inl (this ▸ hr)

theorem statusIn_finish (s' : State) : statusIn s codes (finish s') := statusIn_respond rfl s'

theorem statusIn_finishWord (v : Word) (s' : State) : statusIn s codes (finishWord v s') := statusIn_respond rfl s'

theorem statusIn_fail {e : ErrorKind} (he : errorCode e ∈ codes := by simp [raisedCodes, errorCode]) :
    statusIn s codes (fail e s) := by
  rintro t r ⟨⟩ hend
  have : errorResponse (errorCode e) = r := (List.append_inj' hend rfl).2 |> List.singleton_inj.1
  exact .inr (this ▸ he)

theorem statusIn_fault (f : Fault) : statusIn s codes (.fault f) := nofun

theorem statusIn_ite {p : Prop} [Decidable p] {x y : Result} (hx : statusIn s codes x) (hy : statusIn s codes y) :
    statusIn s codes (if p then x else y) := by
  split_ifs
  · exact hx
  · exact hy

theorem statusIn_withContext (i : BitVec 8) {body : Context → Result} (hbody : ∀ c, statusIn s codes (body c))
    (h5 : 5 ∈ codes := by simp [raisedCodes]) : statusIn s codes (withContext i s body) := by
  rcases withContext_cases s i body with ⟨-, h⟩ | ⟨c, -, h⟩ <;> rw [h]
  · exact statusIn_fail h5
  · exact hbody c

theorem statusIn_withLinearSeed {body : Vec → Result} (hbody : ∀ x, statusIn s codes (body x))
    (h1 : 1 ∈ codes := by simp [raisedCodes]) (h2 : 2 ∈ codes := by simp [raisedCodes]) :
    statusIn s codes (withLinearSeed s body) :=
  statusIn_ite (statusIn_fail h2) (statusIn_ite (statusIn_fail h1) (hbody _))

theorem statusIn_withNonlinearSeed {body : List Idx → Result} (hbody : ∀ a, statusIn s codes (body a))
    (h2 : 2 ∈ codes := by simp [raisedCodes]) : statusIn s codes (withNonlinearSeed s body) :=
  statusIn_ite (statusIn_fail h2) (statusIn_ite (statusIn_fail h2) (hbody _))

theorem statusIn_withLevelBank (lvl : Level) (i : BitVec 8) {body : Vec × List Idx → Result}
    (hbody : ∀ bank, statusIn s codes (body bank)) (h4 : 4 ∈ codes := by simp [raisedCodes])
    (h5 : 5 ∈ codes := by simp [raisedCodes]) :
    statusIn s codes (withLevelBank lvl i s body) := by
  refine statusIn_ite (statusIn_fail h4) ?_
  cases levelBank lvl i s with
  | none => exact statusIn_fail h5
  | some bank => exact hbody bank

theorem statusIn_drawWith {resp : Word → Response} (hresp : ∀ z, (resp z).st = 0) (i : BitVec 8)
    (h5 : 5 ∈ codes := by simp [raisedCodes]) : statusIn s codes (drawWith resp i s) := by
  refine statusIn_withContext i (fun c => ?_) h5
  cases mix s c with
  | error f => exact statusIn_fault f
  | ok p => exact statusIn_respond (hresp p.1) _

end

/-- R221: a command ends with status 0 or with a code of its row. -/
theorem exec_statusIn (i : Instr) (s : State) : statusIn s (raisedCodes i) (exec i s) := by
  cases i with
  | nextu i => exact statusIn_drawWith (fun _ => rfl) i
  | nextw i => exact statusIn_drawWith (fun _ => rfl) i
  | construct i =>
    rw [exec, execConstruct]
    cases contextAt s i with
    | none => exact statusIn_fail
    | some c => exact statusIn_finish _
  | rststream i => exact statusIn_withContext i fun _ => statusIn_finish _
  | rstsub i => exact statusIn_withContext i fun _ => statusIn_finish _
  | nextsub i => exact statusIn_withContext i fun _ => statusIn_finish _
  | clone d src =>
    have hbad : statusIn s (raisedCodes (.clone d src)) (fail .badInstance s) := statusIn_fail
    rw [exec, execClone]
    cases contextAt s d with
    | none => exact hbad
    | some _ =>
      cases validContext s src with
      | none => exact hbad
      | some _ => exact statusIn_finish _
  | sbclr => exact statusIn_finish _
  | sbpush w => exact statusIn_finish _
  | setpkgl => exact statusIn_withLinearSeed fun _ => statusIn_finish _
  | setpkgn => exact statusIn_withNonlinearSeed fun _ => statusIn_finish _
  | setseedl i => exact statusIn_withContext i fun _ => statusIn_withLinearSeed fun _ => statusIn_finish _
  | setseedn i => exact statusIn_withContext i fun _ => statusIn_withNonlinearSeed fun _ => statusIn_finish _
  | tbcnt n => exact statusIn_ite (statusIn_finish _) statusIn_fail
  | tblen j n => exact statusIn_ite (statusIn_finish _) statusIn_fail
  | tbwr j k w => exact statusIn_ite (statusIn_finish _) statusIn_fail
  | replace => exact statusIn_ite statusIn_fail (statusIn_finish _)
  | rdlin lvl i k => exact statusIn_withLevelBank lvl i fun _ => statusIn_ite (statusIn_finishWord _ _) statusIn_fail
  | rdnl lvl i j => exact statusIn_withLevelBank lvl i fun _ => statusIn_ite (statusIn_finishWord _ _) statusIn_fail
  | rdtab j k =>
    rw [exec, execRdtab]
    cases tabCell s j.toNat k.toNat with
    | none => exact statusIn_fail
    | some w => exact statusIn_finishWord w s
  | rdcfg g t =>
    rw [exec, execRdcfg]
    cases configItem s g t with
    | none => exact statusIn_fail
    | some v => exact statusIn_finishWord v s
  | rdstat => exact statusIn_finishWord _ s

/-- A failure in the row of its command. -/
theorem st_mem_raisedCodes {i : Instr} {s t : State} {r : Response} (h : exec i s = .next t) (hr : endedWith s t r)
    (hst : r.st ≠ 0) : r.st ∈ raisedCodes i :=
  (exec_statusIn i s t r h hr).resolve_left hst

theorem one_mem_raisedCodes {i : Instr} (h : 1 ∈ raisedCodes i) : i = .setpkgl ∨ ∃ a, i = .setseedl a := by
  cases i <;> simp [raisedCodes] at h ⊢

theorem three_mem_raisedCodes {i : Instr} (h : 3 ∈ raisedCodes i) : i = .replace := by
  cases i <;> simp [raisedCodes] at h ⊢

end Sys2Proof.Machine

namespace Sys2Proof.Proofs
open Sys2Proof Sys2Proof.Machine

/-- Settles O23: every command that names a context looks it up before anything else. -/
theorem badInstanceFails : Obligations.BadInstanceFails := by
  unfold Obligations.BadInstanceFails
  refine fun s i d => ⟨fun h => ?_, fun h => ⟨execConstruct_of_le h, execClone_of_le h i⟩⟩
  have hctx := withContext_of_instanceRefused h
  exact ⟨hctx _, hctx _, hctx _, hctx _, hctx _, execClone_of_sourceRefused h d, hctx _, hctx _, fun lvl k hlvl =>
    ⟨withLevelBank_of_instanceRefused h hlvl _, withLevelBank_of_instanceRefused h hlvl _⟩⟩

/-- Settles O24: VERIFYSEED refuses the staged words, and status 1 stands in the rows of SETPKGL and SETSEEDL only. -/
theorem invalidSeedFails : Obligations.InvalidSeedFails := by
  unfold Obligations.InvalidSeedFails
  refine ⟨fun s hlen hcause => ?refused, fun i s t r h hr hst => ?only⟩
  case refused =>
    have hseed := withLinearSeed_of_invalid hlen (verifySeed_stagedVector hcause)
    exact ⟨(exec_setpkgl s).trans (hseed _), fun i c hc => (withContext_of_valid s i c _ hc).trans (hseed _)⟩
  case only => exact one_mem_raisedCodes (hst ▸ st_mem_raisedCodes h hr (by simp [hst]))

/-- Settles O25: one refusal lemma per check; the seed commands and the readouts reach theirs once the context is
accepted. -/
theorem invalidArgumentFails : Obligations.InvalidArgumentFails := by
  unfold Obligations.InvalidArgumentFails
  refine fun s => ⟨fun h => ?nonlinear, fun h => ?linear, fun n => execTbcnt_of_out_of_range,
    fun j n => execTblen_of_out_of_range, fun j k w => execTbwr_of_out_of_range w, fun k hk => ?rdlin,
    fun j hj => ?rdnl, fun j k => execRdtab_of_absent, fun g t h => execRdcfg_of_undefined (configItem_undefined h)⟩
  case nonlinear =>
    have hseed := withNonlinearSeed_of_refused h
    exact ⟨(exec_setpkgn s).trans (hseed _), fun i c hc => (withContext_of_valid s i c _ hc).trans (hseed _)⟩
  case linear =>
    have hseed := withLinearSeed_of_length h
    exact ⟨(exec_setpkgl s).trans (hseed _), fun i c hc => (withContext_of_valid s i c _ hc).trans (hseed _)⟩
  case rdlin =>
    exact ⟨execRdlin_of_le hk (.inl ⟨rfl, rfl⟩), fun _ _ c hc hlvl => execRdlin_of_le hk (.inr ⟨hlvl, c, hc⟩)⟩
  case rdnl =>
    exact ⟨execRdnl_of_le hj (.inl ⟨rfl, rfl⟩), fun _ _ c hc hlvl => execRdnl_of_le hj (.inr ⟨hlvl, c, hc⟩)⟩

/-- Settles O26: REPLACE tests INST_EXISTS first, completes when it is 0, and status 3 stands in no other row. -/
theorem illegalStateFails : Obligations.IllegalStateFails := by
  unfold Obligations.IllegalStateFails
  refine ⟨fun s => execReplace_locked, fun i s t r h hr hst => ?_⟩
  obtain rfl := three_mem_raisedCodes (hst ▸ st_mem_raisedCodes h hr (by simp [hst]))
  refine ⟨rfl, by_contra fun hfree => ?_⟩
  rw [exec, execReplace_unlocked hfree] at h
  have hcompleted : r.st = 0 ∨ r.st ∈ [] := statusIn_finish (installShadow s) t r h hr
  simp [hst] at hcompleted

/-- Settles O28: a command that answers a next state completed with status 0 or was refused as a whole. -/
theorem failedCommandChangesOnlyLasterr : Obligations.FailedCommandChangesOnlyLasterr := by
  unfold Obligations.FailedCommandChangesOnlyLasterr
  intro i s t r h hr hst
  rcases lastErr_of_endedWith h hr with ⟨h0, -⟩ | ⟨e, he, ht⟩
  · exact absurd h0 hst
  · exact he ▸ ht

end Sys2Proof.Proofs
end

