-- ==== Sys2Proof/Proofs/Codec.lean ====
section
/-! The encoder and the decoder undo each other (spec/30_encoding.md R81 to R84). A command is its four fields
(`commandOf_eq_iff`), so each row of the opcode map is compared field by field. -/

namespace Sys2Proof.Machine

/-! ## The fields of a command that the encoder built (R81) -/

@[simp] theorem commandOf_dw (op ia : BitVec 8) (ix : BitVec 16) (dw : Word) : (commandOf op ia ix dw).dw = dw := rfl

@[simp] theorem ixhField_commandOf (op ia g t : BitVec 8) (dw : Word) :
    ixhField (commandOf op ia (g ++ t) dw) = g := by
  ext b hb
  simp only [ixhField, commandOf, BitVec.getElem_extractLsb', BitVec.getLsbD_append]
  grind

@[simp] theorem ixlField_commandOf (op ia g t : BitVec 8) (dw : Word) :
    ixlField (commandOf op ia (g ++ t) dw) = t := by
  ext b hb
  simp only [ixlField, commandOf, BitVec.getElem_extractLsb', BitVec.getLsbD_append]
  grind

/-! The index field of the cursor readouts: `IXR = 0`, then `LVL`, then `IXL` (R83, R87). -/

@[simp] theorem ixrField_commandOf_readoutIx (op ia k : BitVec 8) (lvl : Level) (dw : Word) :
    ixrField (commandOf op ia (readoutIx lvl k) dw) = 0 := by
  ext b hb
  simp only [ixrField, commandOf, readoutIx, BitVec.getElem_extractLsb', BitVec.getLsbD_append]
  grind

@[simp] theorem lvlField_commandOf_readoutIx (op ia k : BitVec 8) (lvl : Level) (dw : Word) :
    lvlField (commandOf op ia (readoutIx lvl k) dw) = bitsOfLevel lvl := by
  ext b hb
  simp only [lvlField, commandOf, readoutIx, BitVec.getElem_extractLsb', BitVec.getLsbD_append]
  grind

@[simp] theorem ixlField_commandOf_readoutIx (op ia k : BitVec 8) (lvl : Level) (dw : Word) :
    ixlField (commandOf op ia (readoutIx lvl k) dw) = k :=
  ixlField_commandOf op ia (0#6 ++ bitsOfLevel lvl) k dw

@[simp] theorem levelOfBits_bitsOfLevel (lvl : Level) : levelOfBits (bitsOfLevel lvl) = lvl := by cases lvl <;> rfl

@[simp] theorem bitsOfLevel_levelOfBits (l : BitVec 2) : bitsOfLevel (levelOfBits l) = l := by revert l; decide

/-! ## A command is its fields -/

theorem commandOf_fields (c : Command) : commandOf (opField c) (iaField c) (ixField c) c.dw = c := by
  obtain ⟨cw, dw⟩ := c
  simp only [commandOf, opField, iaField, ixField, Command.mk.injEq, and_true]
  refine BitVec.eq_of_getLsbD_eq fun b hb => ?_
  simp only [BitVec.getLsbD_append, BitVec.getLsbD_extractLsb']
  grind

theorem commandOf_eq_iff (op ia : BitVec 8) (ix : BitVec 16) (dw : Word) (c : Command) :
    commandOf op ia ix dw = c ↔ op = opField c ∧ ia = iaField c ∧ ix = ixField c ∧ dw = c.dw := by
  constructor
  · rintro rfl
    simp [Laws.opField_commandOf, Laws.iaField_commandOf, Laws.ixField_commandOf]
  · rintro ⟨rfl, rfl, rfl, rfl⟩
    exact commandOf_fields c

theorem ixField_eq_append (c : Command) : ixField c = ixhField c ++ ixlField c := by
  refine BitVec.eq_of_getLsbD_eq fun b hb => ?_
  simp only [ixhField, ixlField, ixField, BitVec.getLsbD_append, BitVec.getLsbD_extractLsb']
  grind

theorem ixhField_eq_append (c : Command) : ixhField c = ixrField c ++ lvlField c := by
  refine BitVec.eq_of_getLsbD_eq fun b hb => ?_
  simp only [ixhField, ixrField, lvlField, BitVec.getLsbD_append, BitVec.getLsbD_extractLsb']
  grind

/-- With `IXR = 0` the index field is the one the encoder builds for its level and `IXL`. -/
theorem readoutIx_fields {c : Command} (h : ixrField c = 0) :
    readoutIx (levelOfBits (lvlField c)) (ixlField c) = ixField c := by
  rw [ixField_eq_append, ixhField_eq_append, h, readoutIx, bitsOfLevel_levelOfBits]
  rfl

/-! ## Decoding what the encoder built -/

/-- Each row: the encoder sets the opcode, so the decoder is at the same row; every reserved field is zero, and the
operand fields read back what was put in. -/
theorem decode_encode (i : Instr) (h : i.wf = true) : decode (encode i) = .ok i := by
  cases i with
  | rdlin lvl a k | rdnl lvl a k =>
    have hlevel : levelOperandOk lvl a = true := h
    simp [encode, decode, Instr.opcode, Laws.opField_commandOf, Laws.iaField_commandOf, hlevel]
  | _ =>
    simp [encode, decode, Instr.opcode, Laws.opField_commandOf, Laws.iaField_commandOf, Laws.ixField_commandOf]

/-! ## Encoding what the decoder accepted -/

theorem acceptIf_eq_ok_iff (p : Bool) (c : Command) (i j : Instr) : acceptIf p c i = .ok j ↔ p = true ∧ i = j := by
  cases p <;> simp

theorem opField_eq_ofNat {c : Command} {n : Nat} (h : (opField c).toNat = n) : opField c = BitVec.ofNat 8 n := by
  rw [← h, BitVec.ofNat_toNat, BitVec.setWidth_eq]

/-- `c` is the command of the well-formed instruction `i`. -/
def encodedAs (c : Command) (i : Instr) : Prop := i.wf = true ∧ encode i = c

/-- A well-formed instruction whose fields are those of `c`. -/
theorem encodedAs_of_fields {c : Command} {i : Instr} {ia : BitVec 8} {ix : BitVec 16} {dw : Word} (hwf : i.wf = true)
    (henc : encode i = commandOf i.opcode ia ix dw) (hop : i.opcode = opField c) (hia : ia = iaField c)
    (hix : ix = ixField c) (hdw : dw = c.dw) : encodedAs c i :=
  ⟨hwf, henc.trans ((commandOf_eq_iff ..).2 ⟨hop, hia, hix, hdw⟩)⟩

/-- At each row the decoder has tested that the fields the encoder leaves zero are zero. -/
theorem encodedAs_of_decode {c : Command} {i : Instr} (h : decode c = .ok i) : encodedAs c i := by
  unfold decode at h
  split at h
  case h_23 => cases h
  all_goals
    rename_i hop
    replace hop := opField_eq_ofNat hop
    simp only [acceptIf_eq_ok_iff, Except.ok.injEq, Bool.and_eq_true, beq_iff_eq] at h
  case h_16 =>
    subst h
    exact encodedAs_of_fields rfl rfl hop.symm rfl rfl rfl
  case h_7 | h_21 =>
    obtain ⟨⟨hz, hdw⟩, rfl⟩ := h
    exact encodedAs_of_fields rfl rfl hop.symm (by simp [hz]) (by simp [ixField_eq_append, hz]) hdw.symm
  case h_18 | h_19 =>
    obtain ⟨⟨⟨hixr, hdw⟩, hlevel⟩, rfl⟩ := h
    exact encodedAs_of_fields hlevel rfl hop.symm rfl (readoutIx_fields hixr) hdw.symm
  all_goals
    obtain ⟨hz, rfl⟩ := h
    exact encodedAs_of_fields rfl rfl hop.symm (by simp [hz]) (by simp [hz]) (by simp [hz])

end Sys2Proof.Machine

namespace Sys2Proof.Proofs
open Sys2Proof Sys2Proof.Machine

/-- Settles O1, row by row of the opcode map. -/
theorem decodeInvertsEncode : Obligations.DecodeInvertsEncode := decode_encode

/-- Settles O2: the decoder accepts a row only with its reserved fields zero, so the operands and the opcode are all of
the command. -/
theorem encodeInvertsDecode : Obligations.EncodeInvertsDecode := fun _ _ => encodedAs_of_decode

/-- Settles O5, from the equation of the step on an accepted command. -/
theorem stepRunsDecodedInstruction : Obligations.StepRunsDecodedInstruction := fun _ _ _ _ => step_of_decode_ok

/-- Settles O7: with an empty port there is no command to take. -/
theorem emptyPortWaits : Obligations.EmptyPortWaits := by
  unfold Obligations.EmptyPortWaits
  intro s hport
  simp only [step, takeCommand, hport]

end Sys2Proof.Proofs
end

