-- ==== Sys2Proof/Proofs/Backbone.lean ====
section
/-! The linear backbone (spec/40_backbone.md R100, R104, R105): MATVEC bit by bit, its linearity, the matrix product as
composition, and the jump operators as repeated stepping. -/

namespace Sys2Proof.Machine

/-! ## XOR sums -/

/-- Bits that are all 0 do not count. -/
theorem xorBits_of_le {f : Nat → Bool} {m n : Nat} (hmn : m ≤ n) (h : ∀ b, m ≤ b → f b = false) :
    xorBits f n = xorBits f m := by
  obtain ⟨k, rfl⟩ := Nat.exists_eq_add_of_le hmn
  rw [xorBits_add, xorBits_congr _ (fun _ => false) k fun b _ => h (m + b) (by omega), xorBits_false, Bool.false_xor]

theorem xorBits_and_left (p : Bool) (f : Nat → Bool) (n : Nat) :
    xorBits (fun b => p && f b) n = (p && xorBits f n) := by
  cases p
  · simpa using xorBits_false n
  · simp

/-- A double XOR sum in either order. -/
theorem xorBits_comm (f : Nat → Nat → Bool) (m n : Nat) :
    xorBits (fun i => xorBits (f i) n) m = xorBits (fun j => xorBits (fun i => f i j) m) n := by
  induction m with
  | zero => exact (xorBits_false n).symm
  | succ m ih => simp only [xorBits, ih, xorBits_xor]

/-! ## Bits of vectors -/

theorem vecBit_beyond (v : Vec) {c : Nat} (h : 32 * v.length ≤ c) : vecBit v c = false := by
  rw [vecBit, List.getD_eq_default _ _ (by omega)]
  exact BitVec.getLsbD_zero

@[simp] theorem zeroVec_length (n : Nat) : (zeroVec n).length = n := List.length_replicate

/-! ## MATVEC (R100) -/

/-- The XOR of the bits of `x` that `row` selects. -/
def selectedXor (row x : Vec) : Bool := xorBits (fun c => vecBit row c && vecBit x c) (32 * x.length)

/-- The parity of the AND counts the bits both vectors hold; the shorter one ends the sum. -/
theorem parity_vecAnd (row x : Vec) : parity (vecAnd row x) = selectedXor row x := by
  have hlen : (vecAnd row x).length = min row.length x.length := by simp [vecAnd]
  have hbeyond : ∀ b, 32 * (vecAnd row x).length ≤ b → vecBit (vecAnd row x) b = false := fun b => vecBit_beyond _
  rw [parity_eq_xorBits, ← xorBits_of_le (n := 32 * x.length) (by omega) hbeyond]
  exact xorBits_congr _ _ _ fun c _ => vecBit_vecAnd row x c

theorem vecBit_matvec (m : Matrix) (x : Vec) {i : Nat} (hi : i < 32 * (m.length / 32)) :
    vecBit (matvec m x) i = selectedXor (m.getD i []) x := by
  have hk : i / 32 < m.length / 32 := by omega
  have hb : i % 32 < 32 := by omega
  have hrow : 32 * (i / 32) + i % 32 = i := Nat.div_add_mod i 32
  rw [vecBit, matvec, List.getD_eq_getElem _ _ (by simpa using hk), List.getElem_map, List.getElem_range,
    wordOfBits_getLsbD, hrow, parity_vecAnd, decide_eq_true hb, Bool.true_and]

theorem selectedXor_vecXor (row : Vec) {x y : Vec} (h : x.length = y.length) :
    selectedXor row (vecXor x y) = (selectedXor row x ^^ selectedXor row y) := by
  rw [selectedXor, selectedXor, selectedXor, vecXor_length x y h, ← h, ← xorBits_xor]
  refine xorBits_congr _ _ _ fun c _ => ?_
  rw [vecBit_vecXor x y h, Bool.and_xor_distrib_left]

theorem selectedXor_zeroVec (row : Vec) (n : Nat) : selectedXor row (zeroVec n) = false := by
  rw [selectedXor, xorBits_congr _ (fun _ => false) _ fun c _ => by rw [vecBit_zeroVec, Bool.and_false], xorBits_false]

theorem matvec_vecXor (m : Matrix) {x y : Vec} (h : x.length = y.length) :
    matvec m (vecXor x y) = vecXor (matvec m x) (matvec m y) := by
  have hlen : (matvec m x).length = (matvec m y).length := by rw [matvec_length, matvec_length]
  refine vec_ext _ _ (by rw [vecXor_length _ _ hlen, matvec_length, matvec_length]) fun c hc => ?_
  rw [matvec_length] at hc
  rw [vecBit_vecXor _ _ hlen, vecBit_matvec m _ hc, vecBit_matvec m _ hc, vecBit_matvec m _ hc, selectedXor_vecXor _ h]

theorem matvec_zeroVec (m : Matrix) (n : Nat) : matvec m (zeroVec n) = zeroVec (m.length / 32) := by
  refine vec_ext _ _ (by rw [matvec_length, zeroVec_length]) fun c hc => ?_
  rw [matvec_length] at hc
  rw [vecBit_matvec m _ hc, selectedXor_zeroVec, vecBit_zeroVec]

/-! ## The matrix product (R12) -/

theorem selectRows_length {n : Nat} {c : Matrix} (hc : ∀ row ∈ c, row.length = n) (a : Vec) (t : Nat) :
    (selectRows n a t c).length = n := by
  induction c generalizing t with
  | nil => exact zeroVec_length n
  | cons row rest ih =>
    have hrest := ih (fun r hr => hc r (List.mem_cons_of_mem _ hr)) (t + 1)
    have hrow : row.length = n := hc row List.mem_cons_self
    rw [selectRows]
    split_ifs
    · rw [vecXor_length _ _ (hrow.trans hrest.symm), hrow]
    · exact hrest

/-- A bit of a row of the product: the XOR of that bit of the selected rows. -/
theorem vecBit_selectRows {n : Nat} {c : Matrix} (hc : ∀ row ∈ c, row.length = n) (a : Vec) (t i : Nat) :
    vecBit (selectRows n a t c) i = xorBits (fun k => vecBit a (t + k) && vecBit (c.getD k []) i) c.length := by
  induction c generalizing t with
  | nil => exact vecBit_zeroVec n i
  | cons row rest ih =>
    have hrest : ∀ r ∈ rest, r.length = n := fun r hr => hc r (List.mem_cons_of_mem _ hr)
    have hlen : row.length = (selectRows n a (t + 1) rest).length := by
      rw [selectRows_length hrest, hc row List.mem_cons_self]
    have htail : vecBit (selectRows n a (t + 1) rest) i =
        xorBits (fun k => vecBit a (t + (1 + k)) && vecBit ((row :: rest).getD (1 + k) []) i) rest.length := by
      rw [ih hrest]
      refine xorBits_congr _ _ _ fun k _ => ?_
      rw [Nat.add_comm 1 k, List.getD_cons_succ, Nat.add_assoc, Nat.add_comm 1 k]
    have hsum : xorBits (fun k => vecBit a (t + k) && vecBit ((row :: rest).getD k []) i) (row :: rest).length =
        (vecBit (selectRows n a (t + 1) rest) i ^^ (vecBit a t && vecBit row i)) := by
      rw [List.length_cons, Nat.add_comm, xorBits_add, htail]
      simp [xorBits]
    rw [hsum, selectRows]
    split_ifs with hbit
    · rw [vecBit_vecXor _ _ hlen, hbit, Bool.true_and, Bool.xor_comm]
    · rw [Bool.eq_false_of_not_eq_true hbit, Bool.false_and, Bool.xor_false]

theorem matMul_shape {n : Nat} {a c : Matrix} (hc : ∀ row ∈ c, row.length = n) :
    ∀ row ∈ matMul n a c, row.length = n := by
  intro row hrow
  obtain ⟨r, -, rfl⟩ := List.mem_map.1 hrow
  exact selectRows_length hc r 0

theorem matMul_getD {n : Nat} {a c : Matrix} {i : Nat} (hi : i < a.length) :
    (matMul n a c).getD i [] = selectRows n (a.getD i []) 0 c := by
  rw [matMul, List.getD_eq_getElem _ _ (by simpa using hi), List.getElem_map, List.getD_eq_getElem _ _ hi]

/-- The product acts as the composition. -/
theorem matvec_matMul {n k : Nat} (a : Matrix) {c : Matrix} (hlen : c.length = 32 * k)
    (hc : ∀ row ∈ c, row.length = n) (x : Vec) : matvec (matMul n a c) x = matvec a (matvec c x) := by
  refine vec_ext _ _ (by rw [matvec_length, matvec_length, matMul_length]) fun i hi => ?_
  have hik : i < 32 * (a.length / 32) := by rwa [matvec_length, matMul_length] at hi
  have hck : 32 * (matvec c x).length = c.length := by rw [matvec_length]; omega
  rw [vecBit_matvec _ _ (by rwa [matMul_length]), vecBit_matvec _ _ hik, matMul_getD (by omega)]
  calc selectedXor (selectRows n (a.getD i []) 0 c) x
      = xorBits (fun j => xorBits (fun t => vecBit (a.getD i []) t && (vecBit (c.getD t []) j && vecBit x j)) c.length)
          (32 * x.length) := by
        refine xorBits_congr _ _ _ fun j _ => ?_
        rw [vecBit_selectRows hc, Bool.and_comm, ← xorBits_and_left]
        refine xorBits_congr _ _ _ fun t _ => ?_
        rw [Nat.zero_add, Bool.and_comm, Bool.and_assoc]
    _ = xorBits (fun t => vecBit (a.getD i []) t && selectedXor (c.getD t []) x) c.length := by
        rw [xorBits_comm]
        exact xorBits_congr _ _ _ fun t _ => xorBits_and_left _ _ _
    _ = selectedXor (a.getD i []) (matvec c x) := by
        rw [selectedXor, hck]
        refine xorBits_congr _ _ _ fun t ht => ?_
        rw [vecBit_matvec c x (by omega)]

/-! ## POWSQ (R105) -/

theorem powSq_shape {n : Nat} {m : Matrix} (hm : ∀ row ∈ m, row.length = n) (e : Nat) :
    ∀ row ∈ powSq n m e, row.length = n := by
  induction e with
  | zero => exact hm
  | succ e ih => exact matMul_shape ih

/-- Squaring `e` times stands for `2^e` transitions. -/
theorem matvec_powSq {n : Nat} {m : Matrix} (hm : matrixShape (32 * n) n m) (e : Nat) (x : Vec) :
    matvec (powSq n m e) x = (fun y => matvec m y)^[2 ^ e] x := by
  obtain ⟨hlen, hrows⟩ := hm
  induction e generalizing x with
  | zero => rfl
  | succ e ih =>
    rw [powSq, matvec_matMul _ ((powSq_length n m e).trans hlen) (powSq_shape hrows e), ih, ih,
      ← Function.iterate_add_apply, pow_succ, mul_two]

/-! ## Jumps (R103, R104) -/

/-- The exponent of a gap. -/
def gapExp (c : Config) : Gap → Nat
  | .sub => c.wExp
  | .str => c.wExp + c.vExp

theorem jumpMatrix_eq {c : Config} (hw : ConfigWf c) (k : Gap) : jumpMatrix c k = powSq c.r c.stepM (gapExp c k) := by
  obtain ⟨hsub, hstr⟩ := hw.jumps
  cases k
  · exact hsub
  · exact hstr

theorem jump_eq_iterate {c : Config} (hw : ConfigWf c) (k : Gap) (x : Vec) :
    jump c k x = (fun y => matvec c.stepM y)^[2 ^ gapExp c k] x := by
  rw [jump, jumpMatrix_eq hw, matvec_powSq hw.shapes.1]

/-- Repeating `m` steps of `g` at a time, `k` times, where `f` stands for `m` steps on every value that keeps `P`. -/
theorem iterate_eq_iterate_mul {α : Type} {f g : α → α} {P : α → Prop} {m : Nat} (hP : ∀ x, P x → P (g x))
    (hfg : ∀ x, P x → f x = g^[m] x) (k : Nat) {x : α} (hx : P x) : f^[k] x = g^[m * k] x := by
  induction k with
  | zero => rfl
  | succ k ih =>
    have hkeep : P (g^[m * k] x) := Function.Iterate.rec P hx hP _
    rw [Function.iterate_succ_apply', ih, hfg _ hkeep, ← Function.iterate_add_apply, Nat.mul_succ, Nat.add_comm]

theorem jump_sub_iterate {c : Config} (hw : ConfigWf c) (x : Vec) :
    (fun y => jump c .sub y)^[2 ^ c.vExp] x = jump c .str x := by
  rw [jump_eq_iterate hw, gapExp, pow_add]
  exact iterate_eq_iterate_mul (P := fun _ => True) (fun _ _ => trivial) (fun y _ => jump_eq_iterate hw .sub y) _
    trivial

theorem iterate_matvec_length {m : Matrix} {n : Nat} (hm : m.length = 32 * n) (k : Nat) {x : Vec} (hx : x.length = n) :
    ((fun y => matvec m y)^[k] x).length = n := by
  cases k with
  | zero => exact hx
  | succ k => rw [Function.iterate_succ_apply', matvec_length]; omega

/-- An operator that maps no other vector to zero does not when repeated. -/
theorem eq_zeroVec_of_iterate {m : Matrix} {n : Nat} (hm : m.length = 32 * n)
    (hker : ∀ y : Vec, y.length = n → matvec m y = zeroVec n → y = zeroVec n) (k : Nat) {x : Vec} (hx : x.length = n)
    (h : (fun y => matvec m y)^[k] x = zeroVec n) : x = zeroVec n := by
  induction k with
  | zero => exact h
  | succ k ih =>
    rw [Function.iterate_succ_apply'] at h
    exact ih (hker _ (iterate_matvec_length hm k hx) h)

end Sys2Proof.Machine

namespace Sys2Proof.Proofs
open Sys2Proof Sys2Proof.Machine

/-- Settles O45: the parity of a row AND the vector is the XOR of the bits the row selects. -/
theorem matvecIsXorOfSelectedBits : Obligations.MatvecIsXorOfSelectedBits := by
  unfold Obligations.MatvecIsXorOfSelectedBits
  exact fun m x => ⟨matvec_length m x, fun i => vecBit_matvec m x⟩

/-- Settles O46, bit by bit. -/
theorem matvecIsLinear : Obligations.MatvecIsLinear := by
  unfold Obligations.MatvecIsLinear
  exact ⟨fun m x y => matvec_vecXor m, matvec_zeroVec⟩

/-- Settles O47: the jump ROM holds the squarings of `STEP_M`, and a product acts as the composition. -/
theorem jumpIsRepeatedStepping : Obligations.JumpIsRepeatedStepping := by
  unfold Obligations.JumpIsRepeatedStepping
  exact fun c x hw _ => ⟨jump_eq_iterate hw .sub x, jump_eq_iterate hw .str x⟩

/-- Settles O49: a jump repeats the step, and the step reaches zero from zero only. -/
theorem nonsingularStepKeepsJumpsNonzero : Obligations.NonsingularStepKeepsJumpsNonzero := by
  unfold Obligations.NonsingularStepKeepsJumpsNonzero
  intro c k x hw hker hx h
  rw [jump_eq_iterate hw] at h
  exact eq_zeroVec_of_iterate hw.shapes.1.1 hker _ hx h

end Sys2Proof.Proofs
end

