-- ==== Sys2Proof/Proofs/Combiner.lean ====
section
/-! The nonlinear combiner (spec/41_combiner.md R131, R133, R136): one component's advance is addition modulo its
length, so a jump is a repeated advance and the period of a vector is the least common multiple of the lengths. -/

namespace Sys2Proof.Machine

/-! ## One component (R131) -/

theorem advanceIndex_toNat {l : Len} {a : Idx} (ha : a.toNat < l.toNat) (hl : l.toNat ≤ 65536) :
    (advanceIndex l a).toNat = (a.toNat + 1) % l.toNat := by
  unfold advanceIndex
  split_ifs with hend
  · rw [show a.toNat + 1 = l.toNat by omega, Nat.mod_self]
    rfl
  · have hadd : (a + 1).toNat = (a.toNat + 1) % 2 ^ 16 := BitVec.toNat_add a 1#16
    rw [hadd, Nat.mod_eq_of_lt (by omega), Nat.mod_eq_of_lt (by omega)]

theorem advanceIndex_lt {l : Len} {a : Idx} (ha : a.toNat < l.toNat) (hl : l.toNat ≤ 65536) :
    (advanceIndex l a).toNat < l.toNat := by
  rw [advanceIndex_toNat ha hl]
  exact Nat.mod_lt _ (by omega)

theorem advanceIndex_iterate_toNat {l : Len} {a : Idx} (ha : a.toNat < l.toNat) (hl : l.toNat ≤ 65536) (n : Nat) :
    ((advanceIndex l)^[n] a).toNat = (a.toNat + n) % l.toNat := by
  induction n with
  | zero => exact (Nat.mod_eq_of_lt ha).symm
  | succ n ih =>
    have hlt : ((advanceIndex l)^[n] a).toNat < l.toNat := ih ▸ Nat.mod_lt _ (by omega)
    rw [Function.iterate_succ_apply', advanceIndex_toNat hlt hl, ih, Nat.mod_add_mod, Nat.add_assoc]

/-- An index returns to its start exactly at the multiples of its length. -/
theorem advanceIndex_iterate_eq_self_iff {l : Len} {a : Idx} (ha : a.toNat < l.toNat) (hl : l.toNat ≤ 65536) (n : Nat) :
    (advanceIndex l)^[n] a = a ↔ l.toNat ∣ n := by
  rw [← BitVec.toNat_inj, advanceIndex_iterate_toNat ha hl]
  constructor
  · intro h
    have hmod : a.toNat + n ≡ a.toNat + 0 [MOD l.toNat] := by
      rw [Nat.ModEq, h, Nat.add_zero, Nat.mod_eq_of_lt ha]
    exact (Nat.modEq_zero_iff_dvd).1 (Nat.ModEq.add_left_cancel' _ hmod)
  · rintro ⟨k, rfl⟩
    rw [Nat.add_mul_mod_self_left, Nat.mod_eq_of_lt ha]

/-- A jump by `2^e mod LEN` is `2^e` advances (R133, R134). -/
theorem jumpIndex_eq_iterate {l : Len} {a off : Idx} {e : Nat} (ha : a.toNat < l.toNat) (hl : l.toNat ≤ 65536)
    (hoff : off.toNat = 2 ^ e % l.toNat) : jumpIndex l off a = (advanceIndex l)^[2 ^ e] a := by
  have hlt : (a.toNat + 2 ^ e) % l.toNat < l.toNat := Nat.mod_lt _ (by omega)
  refine BitVec.eq_of_toNat_eq ?_
  rw [advanceIndex_iterate_toNat ha hl, jumpIndex, hoff, Nat.add_mod_mod, BitVec.toNat_ofNat,
    Nat.mod_eq_of_lt (by omega)]

/-! ## Index vectors -/

theorem idxAt_map_range (f : Nat → Idx) {n j : Nat} (hj : j < n) : idxAt ((List.range n).map f) j = f j := by
  simp [idxAt, hj]

/-- An index vector is its entries. -/
theorem map_idxAt_range {a : List Idx} {n : Nat} (ha : a.length = n) : (List.range n).map (idxAt a) = a := by
  refine List.ext_getElem (by simpa using ha.symm) fun j hj hj' => ?_
  rw [List.getElem_map, List.getElem_range, idxAt, List.getD_eq_getElem _ _ hj']

theorem map_range_eq_iff {f : Nat → Idx} {a : List Idx} {n : Nat} (ha : a.length = n) :
    (List.range n).map f = a ↔ ∀ j, j < n → f j = idxAt a j := by
  conv_lhs => rw [← map_idxAt_range ha]
  simp

/-! ## Lengths (R8, R39(a)) -/

theorem lenAt_mem {len : List Len} {j : Nat} (hj : j < len.length) : lenAt len j ∈ len := by
  rw [lenAt, List.getD_eq_getElem _ _ hj]
  exact List.getElem_mem _

theorem defNc_bounds {c : Config} (hw : ConfigWf c) : 1 ≤ c.defNc ∧ c.defNc ≤ c.ncMax := by
  obtain ⟨-, -, -, -, -, ⟨h1, h2, -⟩, -⟩ := hw.scalars
  exact ⟨h1, h2⟩

theorem lMax_bounds {c : Config} (hw : ConfigWf c) : 1 ≤ c.lMax ∧ c.lMax ≤ 65536 := by
  obtain ⟨-, -, -, -, -, -, hmax⟩ := hw.scalars
  exact hmax

/-- A length of a data set of a legal configuration. -/
theorem lengthsOk_bounds {c : Config} (hw : ConfigWf c) {n : Nat} {len : List Len} (h : lengthsOk n c.lMax len) {j : Nat}
    (hj : j < n) : 1 ≤ (lenAt len j).toNat ∧ (lenAt len j).toNat ≤ 65536 := by
  obtain ⟨hlen, hbounds⟩ := h
  obtain ⟨h1, h2⟩ := hbounds _ (lenAt_mem (hlen ▸ hj))
  exact ⟨h1, h2.trans (lMax_bounds hw).2⟩

section
variable {s : State} (hinv : StateInv s)
include hinv

theorem activeLength_bounds {j : Nat} (hj : j < s.nc) : 1 ≤ (lenAt s.len j).toNat ∧ (lenAt s.len j).toNat ≤ 65536 := by
  obtain ⟨-, hlens⟩ := hinv.components
  exact lengthsOk_bounds hinv.config hlens hj

theorem advanceOne_indicesOk {a : List Idx} (ha : indicesOk s a) : indicesOk s (advanceOne s a) := by
  refine ⟨by simp [advanceOne], fun j hj => ?_⟩
  rw [advanceOne, idxAt_map_range _ hj]
  exact advanceIndex_lt (ha.2 j hj) (activeLength_bounds hinv hj).2

omit hinv in
/-- Each component of a vector advances on its own. -/
theorem advanceOne_iterate {a : List Idx} (ha : indicesOk s a) (n : Nat) :
    (fun b => advanceOne s b)^[n] a =
      (List.range s.nc).map fun j => (advanceIndex (lenAt s.len j))^[n] (idxAt a j) := by
  induction n with
  | zero => exact (map_idxAt_range ha.1).symm
  | succ n ih =>
    rw [Function.iterate_succ_apply', ih, advanceOne]
    refine List.map_congr_left fun j hj => ?_
    rw [idxAt_map_range _ (List.mem_range.1 hj), Function.iterate_succ_apply']

theorem offsetBank_toNat (k : Gap) {j : Nat} (hj : j < s.nc) :
    (idxAt (offsetBank s k) j).toNat = 2 ^ gapExp s.cfg k % (lenAt s.len j).toNat := by
  obtain ⟨hsub, hstr⟩ := hinv.offsets.2 j hj
  cases k
  · exact hsub
  · exact hstr

/-- R136: a jump lands where the repeated advance lands. -/
theorem nlJump_eq_iterate (k : Gap) {a : List Idx} (ha : indicesOk s a) :
    nlJump s k a = (fun b => advanceOne s b)^[2 ^ gapExp s.cfg k] a := by
  rw [advanceOne_iterate ha, nlJump]
  refine List.map_congr_left fun j hj => ?_
  have hj := List.mem_range.1 hj
  exact jumpIndex_eq_iterate (ha.2 j hj) (activeLength_bounds hinv hj).2 (offsetBank_toNat hinv k hj)

theorem nlJump_indicesOk (k : Gap) {a : List Idx} (ha : indicesOk s a) : indicesOk s (nlJump s k a) := by
  rw [nlJump_eq_iterate hinv k ha]
  exact Function.Iterate.rec (indicesOk s) ha (fun _ => advanceOne_indicesOk hinv) _

theorem nlJump_sub_iterate {a : List Idx} (ha : indicesOk s a) :
    (fun b => nlJump s .sub b)^[2 ^ s.cfg.vExp] a = nlJump s .str a := by
  rw [nlJump_eq_iterate hinv .str ha, gapExp, pow_add]
  exact iterate_eq_iterate_mul (P := indicesOk s) (fun _ => advanceOne_indicesOk hinv)
    (fun _ => nlJump_eq_iterate hinv .sub) _ ha

/-! ## The period of a vector (R136) -/

/-- A vector returns to its start exactly at the common multiples of the lengths. -/
theorem advanceOne_iterate_eq_self_iff {a : List Idx} (ha : indicesOk s a) (n : Nat) :
    (fun b => advanceOne s b)^[n] a = a ↔ ∀ l ∈ s.len.map BitVec.toNat, l ∣ n := by
  obtain ⟨-, hlen, -⟩ := hinv.components
  have hcomponent : ∀ j, j < s.nc →
      ((advanceIndex (lenAt s.len j))^[n] (idxAt a j) = idxAt a j ↔ (lenAt s.len j).toNat ∣ n) := fun j hj =>
    advanceIndex_iterate_eq_self_iff (ha.2 j hj) (activeLength_bounds hinv hj).2 n
  rw [advanceOne_iterate ha, map_range_eq_iff ha.1, List.forall_mem_map, List.forall_mem_iff_getElem, ← hlen]
  refine forall₂_congr fun j hj => ?_
  rw [hcomponent j (hlen ▸ hj), lenAt, List.getD_eq_getElem _ _ hj]

end

theorem foldr_lcm_dvd_iff (ls : List Nat) (n : Nat) : ls.foldr Nat.lcm 1 ∣ n ↔ ∀ l ∈ ls, l ∣ n := by
  induction ls with
  | nil => simp
  | cons l ls ih => rw [List.foldr_cons, Nat.lcm_dvd_iff, ih, List.forall_mem_cons]

theorem foldr_lcm_of_coprime {ls : List Nat} (h : ls.Pairwise Nat.Coprime) : ls.foldr Nat.lcm 1 = ls.prod := by
  induction ls with
  | nil => rfl
  | cons l ls ih =>
    obtain ⟨hl, hls⟩ := List.pairwise_cons.1 h
    rw [List.foldr_cons, ih hls, List.prod_cons, (Nat.coprime_list_prod_right_iff.2 hl).lcm_eq_mul]

theorem refLengths_coprime : refLengths.Pairwise Nat.Coprime := by decide

end Sys2Proof.Machine

namespace Sys2Proof.Proofs
open Sys2Proof Sys2Proof.Machine

/-- Settles O48: a stream gap is `2^V_EXP` times as many steps as a substream gap. -/
theorem substreamGapsMakeOneStreamGap : Obligations.SubstreamGapsMakeOneStreamGap := by
  unfold Obligations.SubstreamGapsMakeOneStreamGap
  exact ⟨fun c x hw _ => jump_sub_iterate hw x, fun s a hinv => nlJump_sub_iterate hinv⟩

/-- Settles O51: an advance adds 1 modulo the length. -/
theorem advanceIsCyclic : Obligations.AdvanceIsCyclic := by
  unfold Obligations.AdvanceIsCyclic
  intro l a ha hl
  have hreturn := advanceIndex_iterate_eq_self_iff ha hl
  exact ⟨advanceIndex_iterate_toNat ha hl, (hreturn _).2 dvd_rfl,
    fun n hpos hlt hback => Nat.not_dvd_of_pos_of_lt hpos hlt ((hreturn n).1 hback)⟩

/-- Settles O52: the offsets are the residues of the two powers of two. -/
theorem indexJumpIsRepeatedAdvance : Obligations.IndexJumpIsRepeatedAdvance := by
  unfold Obligations.IndexJumpIsRepeatedAdvance
  exact fun s a hinv ha => ⟨nlJump_eq_iterate hinv .sub ha, nlJump_eq_iterate hinv .str ha⟩

/-- Settles O60: the common multiples of the lengths are the multiples of their least one, and that is the product of
coprime lengths. -/
theorem indexVectorPeriodIsLcmOfLengths : Obligations.IndexVectorPeriodIsLcmOfLengths := by
  unfold Obligations.IndexVectorPeriodIsLcmOfLengths
  intro s a n hinv ha
  have hlcm : (fun b => advanceOne s b)^[n] a = a ↔ (s.len.map BitVec.toNat).foldr Nat.lcm 1 ∣ n :=
    (advanceOne_iterate_eq_self_iff hinv ha n).trans (foldr_lcm_dvd_iff _ n).symm
  refine ⟨hlcm, fun hco => foldr_lcm_of_coprime hco ▸ hlcm, fun href => ?_⟩
  rw [href, foldr_lcm_of_coprime refLengths_coprime] at hlcm
  exact hlcm

end Sys2Proof.Proofs
end

