-- ==== Sys2Proof/Proofs/Draws.lean ====
section
/-! The generation commands (spec/43_mixer.md R180, R183, R184): what MIX answers when the cells and the buffer word it
reads exist, and the one fault for each that does not (log 8). -/

namespace Sys2Proof.Machine

/-! ## The table sum (R132) -/

theorem tabCell_of_lt {s : State} {j k : Nat} (hj : j < s.nc) (hk : k < (lenAt s.len j).toNat) :
    tabCell s j k = some (memRead s.tab (tabAddr j k)) := if_pos ⟨hj, hk⟩

theorem sumCells_of_lt {s : State} {a : List Idx} {n : Nat} (hn : n ≤ s.nc)
    (ha : ∀ j, j < s.nc → (idxAt a j).toNat < (lenAt s.len j).toNat) :
    sumCells s a n = some ((List.range n).map fun j => memRead s.tab (tabAddr j (idxAt a j).toNat)).sum := by
  induction n with
  | zero => rfl
  | succ n ih => simp [sumCells, ih (by omega), tabCell_of_lt hn (ha n hn), List.range_succ]

theorem currentValue_of_lt {s : State} {a : List Idx} (ha : ∀ j, j < s.nc → (idxAt a j).toNat < (lenAt s.len j).toNat) :
    currentValue s a = some ((List.range s.nc).map fun j => memRead s.tab (tabAddr j (idxAt a j).toNat)).sum :=
  sumCells_of_lt le_rfl ha

/-- One absent cell leaves no sum. -/
theorem sumCells_of_absent {s : State} {a : List Idx} {j : Nat} (ha : (lenAt s.len j).toNat ≤ (idxAt a j).toNat) :
    ∀ {n : Nat}, j < n → sumCells s a n = none
  | n + 1, hj => by
    rw [sumCells]
    rcases Nat.lt_succ_iff_lt_or_eq.1 hj with hlt | rfl
    · rw [sumCells_of_absent ha hlt]
    · rw [(tabCell_none s j _).2 (.inr ha)]
      cases sumCells s a j <;> rfl

/-- The sum depends on the cells only. -/
theorem sumCells_congr {s t : State} (h : ∀ j k, tabCell t j k = tabCell s j k) (a : List Idx) (n : Nat) :
    sumCells t a n = sumCells s a n := by
  induction n with
  | zero => rfl
  | succ n ih => rw [sumCells, sumCells, ih, h]

/-! ## The backbone word (R102) -/

theorem nextWord_of_lt {g : Config} {c : Context} (h : (refillBuffer g c).bufCur < (refillBuffer g c).buf.length) :
    nextWord g c = some (wordAt (refillBuffer g c).buf (refillBuffer g c).bufCur,
      { refillBuffer g c with bufCur := (refillBuffer g c).bufCur + 1 }) := by
  refine (nextWord_some ..).2 ⟨?_, rfl⟩
  rw [List.getElem?_eq_getElem h, wordAt, List.getD_eq_getElem _ _ h]

theorem nextWord_of_le {g : Config} {c : Context} (h : (refillBuffer g c).buf.length ≤ (refillBuffer g c).bufCur) :
    nextWord g c = none := by
  rw [nextWord, List.getElem?_eq_none h]

theorem refillBuffer_unexhausted {g : Config} {c : Context} (h : c.bufCur ≠ g.b) : refillBuffer g c = c := if_neg h

/-! ## MIX (R180) -/

theorem mix_of_absentCell {s : State} {c : Context} {j : Nat} (hj : j < s.nc)
    (ha : (lenAt s.len j).toNat ≤ (idxAt (advanceOne s c.curNl) j).toNat) : mix s c = .error .absentTableCell := by
  rw [mix, currentValue, sumCells_of_absent ha hj]

section
variable {s : State} {c : Context}
  (ha : ∀ j, j < s.nc → (idxAt (advanceOne s c.curNl) j).toNat < (lenAt s.len j).toNat)
include ha

theorem mix_of_absentWord (h : nextWord s.cfg { c with curNl := advanceOne s c.curNl } = none) :
    mix s c = .error .absentBufferWord := by
  rw [mix, currentValue_of_lt ha, h]

theorem mix_of_present {b : Word} {c' : Context}
    (h : nextWord s.cfg { c with curNl := advanceOne s c.curNl } = some (b, c')) :
    mix s c = .ok (((List.range s.nc).map fun j =>
      memRead s.tab (tabAddr j (idxAt (advanceOne s c.curNl) j).toNat)).sum ^^^ b, c') := by
  rw [mix, currentValue_of_lt ha, h]

end

/-! ## The draw -/

section
variable {s : State} {i : BitVec 8} {c : Context} (hc : isValidContext s i c)
include hc

theorem drawWith_of_mix_ok (resp : Word → Response) {z : Word} {c' : Context} (h : mix s c = .ok (z, c')) :
    drawWith resp i s = .next (respond (resp z) (setContext i c' s)) := by
  rw [drawWith, withContext_of_valid s i c _ hc, h]

theorem drawWith_of_mix_error (resp : Word → Response) {f : Fault} (h : mix s c = .error f) :
    drawWith resp i s = .fault f := by
  rw [drawWith, withContext_of_valid s i c _ hc, h]

end

theorem exec_nextu (i : BitVec 8) (s : State) : exec (.nextu i) s = drawWith nextuResponse i s := rfl

theorem exec_ne_refused (i : Instr) (s : State) (r : Refusal) : exec i s ≠ .refused r := by
  rcases exec_cases i s with ⟨e, he⟩ | ⟨-, f, he⟩ | ⟨r', s', he, -⟩ <;> rw [he]
  · exact nofun
  · exact nofun
  · exact nofun

theorem exec_ne_fault {i : Instr} (hi : isDraw i = false) (s : State) (f : Fault) : exec i s ≠ .fault f := by
  rcases exec_cases i s with ⟨e, he⟩ | ⟨hdraw, -⟩ | ⟨r', s', he, -⟩
  · rw [he]; exact nofun
  · rw [hi] at hdraw; cases hdraw
  · rw [he]; exact nofun

end Sys2Proof.Machine

namespace Sys2Proof.Proofs
open Sys2Proof Sys2Proof.Machine

/-- Settles O8: the context after the draw is the refilled one with the buffer cursor moved on. -/
theorem drawsComplete : Obligations.DrawsComplete := by
  unfold Obligations.DrawsComplete
  intro s i c hc a lin c' v b z ha hword
  have hc' : c' = { refillBuffer s.cfg { c with curNl := a } with
      bufCur := (refillBuffer s.cfg { c with curNl := a }).bufCur + 1 } := by
    unfold c' refillBuffer
    split_ifs <;> rfl
  have hnext : nextWord s.cfg { c with curNl := a } = some (b, c') := by
    unfold b
    rw [hc'] at hword ⊢
    exact nextWord_of_lt hword
  have hmix : mix s c = .ok (z, c') := mix_of_present ha hnext
  exact ⟨drawWith_of_mix_ok hc nextuResponse hmix, drawWith_of_mix_ok hc wordResponse hmix⟩

/-- Settles O39: MIX reads the table sum first and the buffer word second, and nothing else can stop a command. -/
theorem onlyDrawsOutsideTablesStop : Obligations.OnlyDrawsOutsideTablesStop := by
  unfold Obligations.OnlyDrawsOutsideTablesStop
  refine ⟨fun i s => ⟨exec_ne_refused i s, fun hi => exec_ne_fault hi s⟩, fun s i c hc => ⟨?cell, ?word⟩⟩
  case cell =>
    rintro ⟨j, hj, ha⟩
    have hmix := mix_of_absentCell hj ha
    exact ⟨drawWith_of_mix_error hc _ hmix, drawWith_of_mix_error hc _ hmix⟩
  case word =>
    intro ha hcur hbuf
    have hrefill := refillBuffer_unexhausted (c := { c with curNl := advanceOne s c.curNl }) hcur
    have hmix := mix_of_absentWord ha (nextWord_of_le (by rw [hrefill]; exact hbuf))
    exact ⟨drawWith_of_mix_error hc _ hmix, drawWith_of_mix_error hc _ hmix⟩

end Sys2Proof.Proofs
end

