-- ==== Sys2Proof/Proofs/Invariant.lean ====
section
/-! The invariant of spec/10_state.md R39. First what a context needs (`ContextOk`) and how the context operations keep
it; then one lemma per part of the state that a command writes; then one per way to complete (`Effect`). -/

namespace Sys2Proof.Machine

/-! ## Contexts -/

/-- What the invariant asks of one context: R39(c) always, R39(b) and R39(g) when it is valid. -/
structure ContextOk (s : State) (c : Context) : Prop where
  shape : contextShape s.cfg c
  indices : c.valid = true → contextIndices s c
  existence : c.valid = true → s.instExists = true

section
variable {s : State} {c : Context}

theorem StateInv.contextOk (h : StateInv s) (hc : c ∈ s.insts) : ContextOk s c :=
  ⟨h.bank.2 c hc, h.indices c hc, h.existence c hc⟩

theorem ContextOk.restartSubstream (h : ContextOk s c) : ContextOk s (restartSubstream s.cfg c) := by
  obtain ⟨hstr, hsub, -, hbuf, -⟩ := h.shape
  refine ⟨⟨hstr, hsub, hsub, hbuf, le_rfl⟩, fun hv => ?_, h.existence⟩
  obtain ⟨hstrNl, hsubNl, -⟩ := h.indices hv
  exact ⟨hstrNl, hsubNl, hsubNl⟩

theorem ContextOk.restartStream (h : ContextOk s c) : ContextOk s (restartStream s.cfg c) := by
  obtain ⟨hstr, -, hcur, hbuf⟩ := h.shape
  refine ContextOk.restartSubstream ⟨⟨hstr, hstr, hcur, hbuf⟩, fun hv => ?_, h.existence⟩
  obtain ⟨hstrNl, -, hcurNl⟩ := h.indices hv
  exact ⟨hstrNl, hstrNl, hcurNl⟩

theorem ContextOk.setStrLin (h : ContextOk s c) {x : Vec} (hx : x.length = s.cfg.r) :
    ContextOk s { c with strLin := x } := by
  obtain ⟨-, hrest⟩ := h.shape
  exact ⟨⟨hx, hrest⟩, h.indices, h.existence⟩

theorem ContextOk.setStrNl (h : ContextOk s c) {a : List Idx} (ha : indicesOk s a) :
    ContextOk s { c with strNl := a } :=
  ⟨h.shape, fun hv => ⟨ha, (h.indices hv).2⟩, h.existence⟩

end

section
variable {s : State} {c : Context} (hinv : StateInv s)
include hinv

theorem jump_length (k : Gap) (x : Vec) : (jump s.cfg k x).length = s.cfg.r := by
  rw [jump, matvec_length, jumpMatrix_eq hinv.config, powSq_length, hinv.config.shapes.1.1]
  omega

theorem ContextOk.advanceSubstream (h : ContextOk s c) : ContextOk s (advanceSubstream s c) := by
  obtain ⟨hstr, -, hrest⟩ := h.shape
  refine ⟨⟨hstr, jump_length hinv .sub c.subLin, hrest⟩, fun hv => ?_, h.existence⟩
  obtain ⟨hstrNl, hsubNl, hcurNl⟩ := h.indices hv
  exact ⟨hstrNl, nlJump_indicesOk hinv .sub hsubNl, hcurNl⟩

theorem ContextOk.refillBuffer (h : ContextOk s c) : ContextOk s (refillBuffer s.cfg c) := by
  obtain ⟨hstr, hsub, -, -, -⟩ := h.shape
  obtain ⟨⟨hstep, -⟩, hout, -⟩ := hinv.config.shapes
  unfold Machine.refillBuffer
  split_ifs
  · refine ⟨⟨hstr, hsub, ?_, ?_, Nat.zero_le _⟩, h.indices, h.existence⟩
    · rw [stepBackbone_curLin, matvec_length]; omega
    · rw [stepBackbone_buf, matvec_length]; omega
  · exact h

theorem ContextOk.advanceOne (h : ContextOk s c) : ContextOk s { c with curNl := advanceOne s c.curNl } := by
  refine ⟨h.shape, fun hv => ?_, h.existence⟩
  obtain ⟨hstrNl, hsubNl, hcurNl⟩ := h.indices hv
  exact ⟨hstrNl, hsubNl, advanceOne_indicesOk hinv hcurNl⟩

/-- R39(c): after a refill the buffer cursor stands before a word. -/
theorem ContextOk.refillBuffer_bufCur_lt (h : ContextOk s c) :
    (Machine.refillBuffer s.cfg c).bufCur < (Machine.refillBuffer s.cfg c).buf.length := by
  obtain ⟨-, -, -, hbuf, -⟩ := (h.refillBuffer hinv).shape
  obtain ⟨-, -, -, -, hcur⟩ := h.shape
  obtain ⟨-, ⟨hb, -⟩, -⟩ := hinv.config.scalars
  rw [hbuf, Machine.refillBuffer]
  split_ifs
  · exact hb
  · omega

theorem ContextOk.mix (h : ContextOk s c) {z : Word} {c' : Context} (hmix : mix s c = .ok (z, c')) :
    ContextOk s c' := by
  obtain ⟨_, _, -, hnext, -⟩ := (mix_ok s c c' z).1 hmix
  obtain ⟨-, rfl⟩ := (nextWord_some ..).1 hnext
  have hadv := h.advanceOne hinv
  have hlt := hadv.refillBuffer_bufCur_lt hinv
  obtain ⟨⟨hstr, hsub, hcur, hbuf, -⟩, hidx, hex⟩ := hadv.refillBuffer hinv
  exact ⟨⟨hstr, hsub, hcur, hbuf, hbuf ▸ hlt⟩, hidx, hex⟩

/-- A draw of a valid context finds its cells and its buffer word. -/
theorem ContextOk.mix_isOk (h : ContextOk s c) (hv : c.valid = true) : ∃ z c', Machine.mix s c = .ok (z, c') := by
  obtain ⟨-, -, hcurNl⟩ := (h.advanceOne hinv).indices hv
  exact ⟨_, _, mix_of_present hcurNl.2 (nextWord_of_lt ((h.advanceOne hinv).refillBuffer_bufCur_lt hinv))⟩

end

/-! ## One part of the state -/

section
variable {s : State} (h : StateInv s)
include h

theorem StateInv.respond (r : Response) : StateInv (respond r s) := { h with }

theorem StateInv.refusedWith (e : ErrorKind) : StateInv (refusedWith (errorCode e) s) :=
  { h with status := (errorCode_bounds e).2 }

theorem StateInv.setPort (cs : List Command) : StateInv { s with port := cs } := { h with }

theorem StateInv.clearStaging : StateInv (clearStaging s) :=
  { h with staging := ⟨h.staging.1, Nat.zero_le _⟩ }

theorem StateInv.pushStaging (w : Word) : StateInv (pushStaging w s) := by
  obtain ⟨hsb, -⟩ := h.staging
  unfold Machine.pushStaging
  split_ifs with hfull
  · exact { h with staging := ⟨hsb, le_rfl⟩ }
  · refine { h with staging := ⟨(List.length_set ..).trans hsb, ?_⟩ }
    show s.scnt + 1 ≤ s.cfg.sbDepth + 1
    omega

theorem StateInv.markInstExists : StateInv (markInstExists s) := { h with existence := fun _ _ _ => rfl }

theorem StateInv.setPackage {x : Vec} {a : List Idx} (hx : x.length = s.cfg.r) (ha : indicesOk s a) :
    StateInv { s with pkgLin := x, pkgNl := a } :=
  { h with package := ⟨hx, ha⟩ }

theorem StateInv.setContext {c : Context} (hc : ContextOk s c) (i : BitVec 8) : StateInv (setContext i c s) := by
  have hall : ∀ x ∈ s.insts.set i.toNat c, ContextOk s x := fun x hx => by
    rcases List.mem_or_eq_of_mem_set hx with hx | rfl
    · exact h.contextOk hx
    · exact hc
  exact { h with
    bank := ⟨(List.length_set ..).trans h.bank.1, fun x hx => (hall x hx).shape⟩
    indices := fun x hx => (hall x hx).indices
    existence := fun x hx => (hall x hx).existence }

theorem StateInv.setShNc {n : Nat} (h1 : 1 ≤ n) (h2 : n ≤ s.cfg.ncMax) : StateInv { s with shNc := n } :=
  { h with shadow := ⟨⟨h1, h2⟩, h.shadow.2⟩ }

theorem StateInv.setShLen (j : Nat) {l : Len} (h1 : 1 ≤ l.toNat) (h2 : l.toNat ≤ s.cfg.lMax) :
    StateInv { s with shLen := s.shLen.set j l } := by
  obtain ⟨hnc, hlen, hbounds⟩ := h.shadow
  refine { h with shadow := ⟨hnc, (List.length_set ..).trans hlen, fun x hx => ?_⟩ }
  rcases List.mem_or_eq_of_mem_set hx with hx | rfl
  · exact hbounds x hx
  · exact ⟨h1, h2⟩

theorem StateInv.writeShTab {j k : Nat} (hj : j < s.cfg.ncMax) (hk : k < s.cfg.lMax) (w : Word) :
    StateInv { s with shTab := memWrite s.shTab (tabAddr j k) w } := by
  have hmax := (lMax_bounds h.config).2
  obtain ⟨⟨htab, hsh⟩, hactive, hcells⟩ := h.memory
  refine { h with memory := ⟨⟨htab, memWrite_wf _ _ _ hsh⟩, hactive, fun c hc => ?_⟩ }
  rcases mem_memWrite _ _ _ _ hc with hc | rfl
  · exact hcells c hc
  · rw [tabAddr_div j k (by omega), tabAddr_mod j k (by omega)]
    exact ⟨hj, hk⟩

/-- R36 of the lengths REPLACE installs. -/
theorem StateInv.shadowLengths_ok : lengthsOk s.shNc s.cfg.lMax (shadowLengths s) := by
  obtain ⟨⟨-, hnc⟩, hlen, hbounds⟩ := h.shadow
  refine ⟨?_, fun l hl => hbounds l (List.mem_of_mem_take hl)⟩
  rw [shadowLengths, List.length_take]
  omega

theorem StateInv.shadowLength_bounds {j : Nat} (hj : j < s.shNc) :
    1 ≤ (lenAt (shadowLengths s) j).toNat ∧ (lenAt (shadowLengths s) j).toNat ≤ 65536 := by
  exact lengthsOk_bounds h.config h.shadowLengths_ok hj

/-- REPLACE before the first construction: no context is valid, so no index vector but the package's refers to the old
data set (R39(g)). -/
theorem StateInv.installShadow (hfree : s.instExists = false) : StateInv (installShadow s) := by
  obtain ⟨⟨-, hsh⟩, -, hcells⟩ := h.memory
  obtain ⟨hlen, -⟩ := h.shadowLengths_ok
  have hinvalid : ∀ c ∈ s.insts, ¬ c.valid = true := fun c hc hv => by
    rw [h.existence c hc hv] at hfree
    cases hfree
  have hoffset : ∀ (e j : Nat), j < s.shNc →
      (idxAt ((shadowLengths s).map (offsetOf e)) j).toNat = 2 ^ e % (lenAt (shadowLengths s) j).toNat := fun e j hj =>
    idxAt_map_offsetOf_toNat e (hlen ▸ hj) (h.shadowLength_bounds hj).1 (h.shadowLength_bounds hj).2
  exact { h with
    components := ⟨h.shadow.1, h.shadowLengths_ok⟩
    package := ⟨h.package.1, List.length_replicate, fun j hj => by
      have hzero : idxAt (List.replicate s.shNc 0) j = 0 := List.getD_replicate _ hj
      exact hzero ▸ (h.shadowLength_bounds hj).1⟩
    indices := fun c hc hv => absurd hv (hinvalid c hc)
    offsets := ⟨⟨(List.length_map _).trans hlen, (List.length_map _).trans hlen⟩,
      fun j hj => ⟨hoffset _ j hj, hoffset _ j hj⟩⟩
    memory := ⟨⟨memRestrict_wf _ _ _ hsh, hsh⟩, fun c hc => (mem_memRestrict _ _ _ _ hc).2, hcells⟩ }

/-! ## Staged seeds -/

theorem StateInv.stagedVector_length : (stagedVector s).length = s.cfg.r := by
  have hdepth : s.cfg.r ≤ s.cfg.sbDepth := le_max_left ..
  rw [stagedVector, List.length_take, h.staging.1]
  omega

theorem StateInv.stagedIndices_ok (hin : ∀ j, j < s.nc → (wordAt s.sb j).toNat < (lenAt s.len j).toNat) :
    indicesOk s (stagedIndices s) := by
  refine ⟨by simp [stagedIndices], fun j hj => ?_⟩
  have hlt := hin j hj
  have hmax := (activeLength_bounds h hj).2
  rw [stagedIndices, idxAt_map_range _ hj, BitVec.toNat_setWidth, Nat.mod_eq_of_lt (by omega)]
  exact hlt

/-! ## Every command -/

theorem StateInv.contextOk_of_valid {i : BitVec 8} {c : Context} (hc : isValidContext s i c) : ContextOk s c :=
  h.contextOk (List.mem_of_getElem? hc.2.1)

/-- The context CONSTRUCT leaves, in the state in which it is written. -/
theorem StateInv.constructedContext_ok {c : Context} (hc : c ∈ s.insts) :
    ContextOk (Machine.markInstExists (advancePackage s)) (constructedContext s c) := by
  obtain ⟨-, -, -, hbuf, -⟩ := h.bank.2 c hc
  obtain ⟨hlin, hnl⟩ := h.package
  exact ⟨⟨hlin, hlin, hlin, hbuf, le_rfl⟩, fun _ => ⟨hnl, hnl, hnl⟩, fun _ => rfl⟩

theorem StateInv.advancePackage : StateInv (advancePackage s) :=
  h.setPackage (jump_length h .str s.pkgLin) (nlJump_indicesOk h .str h.package.2)

/-- R39 under every way to complete a command. -/
theorem StateInv.effect {i : Instr} {r : Response} {t : State} (heff : Effect i s r t) : StateInv t := by
  cases heff with
  | nextu i s c z c' hc hmix => exact h.setContext ((h.contextOk_of_valid hc).mix h hmix) i
  | nextw i s c z c' hc hmix => exact h.setContext ((h.contextOk_of_valid hc).mix h hmix) i
  | construct i s c hc =>
    have hmem := List.mem_of_getElem? ((contextAt_some s i c).1 hc).2
    exact h.advancePackage.markInstExists.setContext (h.constructedContext_ok hmem) i
  | rststream i s c hc => exact h.setContext (h.contextOk_of_valid hc).restartStream i
  | rstsub i s c hc => exact h.setContext (h.contextOk_of_valid hc).restartSubstream i
  | nextsub i s c hc => exact h.setContext ((h.contextOk_of_valid hc).advanceSubstream h).restartSubstream i
  | cloneSelf => exact h
  | clone d src s old c _ _ hc =>
    have hok := h.contextOk_of_valid hc
    have hcopy : ContextOk s { c with valid := true } :=
      ⟨hok.shape, fun _ => hok.indices hc.2.2, fun _ => hok.existence hc.2.2⟩
    exact h.setContext hcopy d
  | sbclr => exact h.clearStaging
  | sbpush w => exact h.pushStaging w
  | setpkgl => exact h.clearStaging.setPackage h.stagedVector_length h.package.2
  | setpkgn s _ hin => exact h.clearStaging.setPackage h.package.1 (h.stagedIndices_ok hin)
  | setseedl i s c hc =>
    have hok : ContextOk s { c with strLin := stagedVector s } :=
      (h.contextOk_of_valid hc).setStrLin h.stagedVector_length
    exact h.clearStaging.setContext { hok.restartStream with } i
  | setseedn i s c hc _ hin =>
    have hok : ContextOk s { c with strNl := stagedIndices s } :=
      (h.contextOk_of_valid hc).setStrNl (h.stagedIndices_ok hin)
    exact h.clearStaging.setContext { hok.restartStream with } i
  | tbcnt n s h1 h2 => exact h.setShNc h1 h2
  | tblen j n s _ h1 h2 =>
    have hmax := (lMax_bounds h.config).2
    have hn : (n.setWidth 17).toNat = n.toNat := by
      rw [BitVec.toNat_setWidth, Nat.mod_eq_of_lt (by omega)]
    exact h.setShLen j.toNat (hn.symm ▸ h1) (hn.symm ▸ h2)
  | tbwr j k w s hj hk => exact h.writeShTab hj hk w
  | replace s hfree => exact h.installShadow hfree
  | readout => exact h

theorem StateInv.exec {i : Instr} {t : State} (hexec : exec i s = .next t) : StateInv t := by
  rcases next_cases hexec with ⟨e, rfl, -⟩ | ⟨r, s', rfl, heff⟩
  · exact h.refusedWith e
  · exact (h.effect heff).respond r

theorem StateInv.exec_next (i : Instr) : ∃ t, Machine.exec i s = .next t := by
  have hdraw (resp : Word → Response) (i : BitVec 8) : ∃ t, drawWith resp i s = .next t := by
    rcases drawWith_cases resp i s with ⟨-, hfail⟩ | ⟨c, f, hc, hmix, -⟩ | ⟨c, z, c', -, -, hnext⟩
    · exact ⟨_, hfail⟩
    · obtain ⟨z, c', hok⟩ := (h.contextOk_of_valid hc).mix_isOk h hc.2.2
      rw [hok] at hmix
      cases hmix
    · exact ⟨_, hnext⟩
  rcases exec_cases i s with ⟨e, hfail⟩ | ⟨hi, -⟩ | ⟨r, s', hnext, -⟩
  · exact ⟨_, hfail⟩
  · cases i with
    | nextu i => exact hdraw nextuResponse i
    | nextw i => exact hdraw wordResponse i
    | _ => cases hi
  · exact ⟨_, hnext⟩

end

/-! ## Every step -/

/-- Everything a step can do. -/
theorem step_cases (s : State) :
    (s.port = [] ∧ step s = .next s) ∨ ∃ c rest, s.port = c :: rest ∧
      ((∃ i, decode c = .ok i ∧ step s = exec i { s with port := rest }) ∨
        step s = .next (refusedWith 4 { s with port := rest })) := by
  cases hport : s.port with
  | nil => exact .inl ⟨rfl, by simp only [step, takeCommand, hport]⟩
  | cons c rest =>
    refine .inr ⟨c, rest, rfl, ?_⟩
    cases hdec : decode c with
    | ok i => exact .inl ⟨i, rfl, step_of_decode_ok hport hdec⟩
    | error e => exact .inr (step_of_decode_error hport hdec)

theorem StateInv.step {s t : State} (h : StateInv s) (hstep : step s = .next t) : StateInv t := by
  rcases step_cases s with ⟨-, hs⟩ | ⟨c, rest, -, ⟨i, -, hs⟩ | hs⟩ <;> rw [hs] at hstep
  · cases hstep; exact h
  · exact (h.setPort rest).exec hstep
  · cases hstep; exact (h.setPort rest).refusedWith .illegalCmd

theorem StateInv.safeStep {s : State} (h : StateInv s) : safeStep s := by
  rcases step_cases s with ⟨-, hs⟩ | ⟨c, rest, -, ⟨i, -, hs⟩ | hs⟩
  · exact ⟨_, hs⟩
  · obtain ⟨t, ht⟩ := (h.setPort rest).exec_next i
    exact ⟨t, hs.trans ht⟩
  · exact ⟨_, hs⟩

end Sys2Proof.Machine

namespace Sys2Proof.Proofs
open Sys2Proof Sys2Proof.Machine

/-- Settles O40: a command fails and writes LASTERR, or has one of the effects of `Effect`. -/
theorem stepKeepsInvariant : Obligations.StepKeepsInvariant := by
  unfold Obligations.StepKeepsInvariant
  exact fun s t h => h.step

/-- Settles O43: only a draw could stop, and in such a state the cells and the word it reads exist. -/
theorem invariantStepNeverStops : Obligations.InvariantStepNeverStops := by
  unfold Obligations.InvariantStepNeverStops
  exact fun s h => h.safeStep

end Sys2Proof.Proofs
end

