-- ==== Sys2Proof/Proofs/ResetInvariant.lean ====
section
/-! The reset state satisfies the invariant of spec/10_state.md R39 in every legal configuration; configurations T64 and
REF (spec/00_scope.md R9) are two of them. -/

namespace Sys2Proof.Machine

section
variable {c : Config} (hw : ConfigWf c)
include hw

theorem defaultLengths_ok : lengthsOk c.defNc c.lMax (defaultLengths c) := by
  obtain ⟨-, hbounds, -⟩ := hw.tables
  refine ⟨defaultLengths_length hw, fun l hl => ?_⟩
  obtain ⟨n, hn, rfl⟩ := List.mem_map.1 hl
  obtain ⟨h1, h2⟩ := hbounds n hn
  have := (lMax_bounds hw).2
  rw [BitVec.toNat_ofNat, Nat.mod_eq_of_lt (by omega)]
  exact ⟨h1, h2⟩

/-- The components above `DEF_NC` get the length 1. -/
theorem resetShadowLengths_ok : lengthsOk c.ncMax c.lMax (State.resetOf c).shLen := by
  refine ⟨resetShadowLengths_length hw, fun l hl => ?_⟩
  rcases List.mem_append.1 hl with hl | hl
  · exact (defaultLengths_ok hw).2 l hl
  · obtain rfl := List.eq_of_mem_replicate hl
    exact ⟨le_rfl, (lMax_bounds hw).1⟩

theorem resetPackage_ok : indicesOk (State.resetOf c) (State.resetOf c).pkgNl := by
  obtain ⟨-, -, -, hlen, hidx⟩ := hw.tables
  refine ⟨(List.length_map _).trans hlen, fun j hj => ?_⟩
  calc _ = c.defPkgNl.getD j 0 := defaultPackageIndex_toNat hw hj
    _ < c.defLen.getD j 0 := hidx j hj
    _ = _ := (defaultLengths_toNat hw hj).symm

omit hw in
theorem contextReset_shape (c : Config) : contextShape c (Context.reset c) :=
  ⟨List.length_replicate, List.length_replicate, List.length_replicate, List.length_replicate, Nat.zero_le _⟩

/-- The default memory lists only cells of the default data set. -/
theorem mem_defaultTables {x : Nat × Word} (hx : x ∈ tablesMemory 0 c.defTab) :
    x.1 / 65536 < c.defNc ∧ x.1 % 65536 < c.defLen.getD (x.1 / 65536) 0 := by
  obtain ⟨hlen, -, htab, -⟩ := hw.tables
  obtain ⟨j, t, ht, hcell⟩ := mem_tablesMemory c.defTab 0 x hx
  have hj : j < c.defTab.length := (List.getElem?_eq_some_iff.1 ht).1
  have htl : c.defLen.getD j 0 = t.length := by
    rw [← defTab_getD_length hw, List.getD_eq_getElem?_getD, ht, Option.getD_some]
  have hdiv : x.1 / 65536 = 0 + j :=
    mem_tableCells_component _ t (defTab_fits hw t (List.mem_of_getElem? ht)) x hcell
  rw [Nat.zero_add] at hdiv hcell
  obtain ⟨-, hlo, hhi⟩ := mem_tableCells j t 0 x hcell
  rw [hdiv, htl, ← hlen, ← htab, List.length_map]
  unfold tabAddr at hlo hhi
  exact ⟨hj, by omega⟩

theorem defaultTables_active {x : Nat × Word} (hx : x ∈ tablesMemory 0 c.defTab) :
    cellActive c.defNc (defaultLengths c) x.1 = true := by
  obtain ⟨hj, hk⟩ := mem_defaultTables hw hx
  rw [← defaultLengths_toNat hw hj] at hk
  exact Bool.and_eq_true_iff.2 ⟨decide_eq_true hj, decide_eq_true hk⟩

theorem defaultTables_inCapacity {x : Nat × Word} (hx : x ∈ tablesMemory 0 c.defTab) :
    x.1 / 65536 < c.ncMax ∧ x.1 % 65536 < c.lMax := by
  obtain ⟨hlen, hbounds, -⟩ := hw.tables
  obtain ⟨hj, hk⟩ := mem_defaultTables hw hx
  refine ⟨hj.trans_le (defNc_bounds hw).2, hk.trans_le (hbounds _ ?_).2⟩
  rw [List.getD_eq_getElem _ _ (hlen ▸ hj)]
  exact List.getElem_mem _

theorem resetOf_stateInv : StateInv (State.resetOf c) where
  config := hw
  components := ⟨defNc_bounds hw, defaultLengths_ok hw⟩
  shadow := ⟨defNc_bounds hw, resetShadowLengths_ok hw⟩
  package := ⟨hw.seed.1, resetPackage_ok hw⟩
  bank := ⟨List.length_replicate, fun _ hx => (List.eq_of_mem_replicate hx) ▸ contextReset_shape c⟩
  indices := fun x hx hv => by rw [resetOf_insts_invalid c x hx] at hv; cases hv
  offsets := by
    have hlen := (List.length_map (offsetOf c.wExp)).trans (defaultLengths_length hw)
    have hlen' := (List.length_map (offsetOf (c.wExp + c.vExp))).trans (defaultLengths_length hw)
    have hval (e j : Nat) (hj : j < c.defNc) := defaultLengths_toNat hw hj ▸ defaultOffsets_toNat hw e hj
    exact ⟨⟨hlen, hlen'⟩, fun j hj => ⟨hval _ j hj, hval _ j hj⟩⟩
  staging := ⟨List.length_replicate, Nat.zero_le _⟩
  existence := fun x hx hv => by rw [resetOf_insts_invalid c x hx] at hv; cases hv
  memory :=
    have hcanon := tablesMemory_wf c.defTab (defTab_fits hw) 0
    ⟨⟨hcanon, hcanon⟩, fun _ => defaultTables_active hw, fun _ => defaultTables_inCapacity hw⟩
  status := Nat.zero_le _

end

/-! ## Configuration T64 -/

/-- T64 is legal; its stream operator is checked against its substream operator, two squarings on. -/
theorem t64_legal : ConfigWf t64 where
  scalars := by decide
  tables := by decide
  seed := by decide
  shapes := by decide +kernel
  jumps := by
    have hsub : t64.jsubM = powSq t64.r t64.stepM t64.wExp := by decide +kernel
    have hstr : t64.jstrM = powSq t64.r t64.jsubM t64.vExp := by decide +kernel
    exact ⟨hsub, by rw [hstr, hsub, powSq_add]⟩

/-! ## Configuration REF -/

section
variable {c : Config} (hr : IsRef c)
include hr

theorem defaultLengths_of_isRef : defaultLengths c = [1019#17, 1021#17, 1031#17] := by
  obtain ⟨-, -, hlen⟩ := hr
  rw [defaultLengths, hlen]
  rfl

theorem resetShadowLengths_of_isRef : (State.resetOf c).shLen.take 3 = [1019#17, 1021#17, 1031#17] := by
  show (defaultLengths c ++ _).take 3 = _
  rw [defaultLengths_of_isRef hr]
  rfl

theorem defaultOffsets_of_isRef (e : Nat) :
    ((defaultLengths c).map (offsetOf e)).map BitVec.toNat = [2 ^ e % 1019, 2 ^ e % 1021, 2 ^ e % 1031] := by
  have h1 := offsetOf_toNat e 1019#17 (by decide) (by decide)
  have h2 := offsetOf_toNat e 1021#17 (by decide) (by decide)
  have h3 := offsetOf_toNat e 1031#17 (by decide) (by decide)
  rw [defaultLengths_of_isRef hr, List.map_map]
  exact congrArg₂ List.cons h1 (congrArg₂ List.cons h2 (congrArg₂ List.cons h3 rfl))

end

/-- The sizes of the registers of a context after reset. -/
theorem resetOf_context_lengths {c : Config} {x : Context} (hx : x ∈ (State.resetOf c).insts) :
    x.curLin.length = c.r ∧ x.curNl.length = c.defNc := by
  obtain rfl := List.eq_of_mem_replicate hx
  exact ⟨List.length_replicate, List.length_replicate⟩

end Sys2Proof.Machine

namespace Sys2Proof.Proofs
open Sys2Proof Sys2Proof.Machine

/-- Settles O41, field by field of the invariant. -/
theorem resetSatisfiesInvariant : Obligations.ResetSatisfiesInvariant := by
  unfold Obligations.ResetSatisfiesInvariant
  exact fun c => resetOf_stateInv

/-- Settles O42: T64 is a legal configuration. -/
theorem modelResetSatisfiesInvariant : Obligations.ModelResetSatisfiesInvariant := by
  unfold Obligations.ModelResetSatisfiesInvariant
  exact resetOf_stateInv t64_legal

/-- Settles O59: legality gives the capacities, and REF fixes the lengths, of which the offsets are residues. -/
theorem referenceConfigurationResets : Obligations.ReferenceConfigurationResets := by
  unfold Obligations.ReferenceConfigurationResets
  intro c hw hr
  obtain ⟨hncMax, hlMax⟩ := isRef_capacities c hw hr
  obtain ⟨hlin, hnl, -⟩ := (resetOf_stateInv hw).package
  have hdepth : c.r ≤ c.sbDepth := le_max_left ..
  have hctx := fun x (hx : x ∈ (State.resetOf c).insts) => resetOf_context_lengths hx
  have hoff := defaultOffsets_of_isRef hr
  have hlen := defaultLengths_of_isRef hr
  have hshadow := resetShadowLengths_of_isRef hr
  obtain ⟨hwords, hcount, -⟩ := hr
  unfold refWords at hwords
  refine ⟨⟨?_, hwords ▸ hdepth, hncMax, hlMax⟩, ⟨hlin.trans hwords, hnl.trans hcount, fun x hx => ?_⟩,
    ⟨hcount, hlen⟩, ⟨hcount, hshadow⟩, hoff _, hoff _⟩
  · rw [Config.s, hwords]
  · obtain ⟨h1, h2⟩ := hctx x hx
    exact ⟨h1.trans hwords, h2.trans hcount⟩

end Sys2Proof.Proofs
end

