-- ==== Sys2Proof/Proofs/Commands.lean ====
section
/-! What each command does when it completes (spec/41_combiner.md, spec/42_stream_manager.md,
spec/44_seed_and_readout.md): its meaning on operands it accepts, as a whole next state. -/

namespace Sys2Proof.Machine

/-! ## Operands a command accepts -/

theorem contextAt_of_lt {s : State} {i : BitVec 8} {c : Context} (hi : i.toNat < s.cfg.nInst)
    (hc : s.insts[i.toNat]? = some c) : contextAt s i = some c := (contextAt_some s i c).2 ⟨hi, hc⟩

theorem withLevelBank_pkg (s : State) (body : Vec × List Idx → Result) :
    withLevelBank .pkg 0 s body = body (s.pkgLin, s.pkgNl) := rfl

/-- The register set of a level of a context (R14). -/
def contextBank (c : Context) : Level → Vec × List Idx
  | .pkg => ([], [])
  | .str => (c.strLin, c.strNl)
  | .sub => (c.subLin, c.subNl)
  | .cur => (c.curLin, c.curNl)

theorem withLevelBank_of_valid {s : State} {lvl : Level} {i : BitVec 8} {c : Context} (hlvl : lvl ≠ .pkg)
    (hc : isValidContext s i c) (body : Vec × List Idx → Result) :
    withLevelBank lvl i s body = body (contextBank c lvl) := by
  have hvalid := (validContext_some s i c).2 hc
  cases lvl with
  | pkg => exact absurd rfl hlvl
  | str | sub | cur => simp [withLevelBank, levelOperandOk, levelBank, hvalid, contextBank]

/-- VERIFYSEED (R106) accepts a staged seed with a non-zero word and another final word than the reserved one. -/
theorem verifySeed_stagedVector_true {s : State} (hne : ∃ w ∈ stagedVector s, w ≠ 0)
    (hlast : s.cfg.reservedLast ≠ some (wordAt s.sb (s.cfg.r - 1))) : verifySeed s.cfg (stagedVector s) = true := by
  obtain ⟨w, hw, hw0⟩ := hne
  have hr : s.cfg.r - 1 < s.cfg.r := by
    have := List.length_pos_of_mem hw
    rw [stagedVector, List.length_take] at this
    omega
  rw [← wordAt_stagedVector hr] at hlast
  have hall : (stagedVector s).all (fun w => w == 0) = false := by
    rw [List.all_eq_false]
    exact ⟨w, hw, by simpa using hw0⟩
  rw [verifySeed, hall, if_neg Bool.false_ne_true, if_neg]
  simpa [wordAt] using hlast

theorem withLinearSeed_of_accepted {s : State} (hlen : s.scnt = s.cfg.r)
    (hseed : verifySeed s.cfg (stagedVector s) = true) (body : Vec → Result) :
    withLinearSeed s body = body (stagedVector s) := by
  rw [withLinearSeed, if_neg (not_not.2 hlen), hseed, if_neg nofun]

theorem withNonlinearSeed_of_accepted {s : State} (hlen : s.scnt = s.nc)
    (hin : ∀ j, j < s.nc → (wordAt s.sb j).toNat < (lenAt s.len j).toNat) (body : List Idx → Result) :
    withNonlinearSeed s body = body (stagedIndices s) := by
  rw [withNonlinearSeed, if_neg (not_not.2 hlen), (stagedOutOfRange_false s).2 hin, if_neg nofun]

theorem stagedIndices_eq (s : State) :
    stagedIndices s = (List.range s.nc).map fun j => BitVec.ofNat 16 (wordAt s.sb j).toNat := by
  simp only [stagedIndices, BitVec.ofNat_toNat]

/-! ## The stream manager (R161 to R165) -/

theorem exec_construct_of_lt {s : State} {i : BitVec 8} {c : Context} (hi : i.toNat < s.cfg.nInst)
    (hc : s.insts[i.toNat]? = some c) :
    exec (.construct i) s = finish (setContext i (constructedContext s c) (markInstExists (advancePackage s))) := by
  rw [exec, execConstruct, contextAt_of_lt hi hc]

section
variable {s : State} {i : BitVec 8} {c : Context} (hc : isValidContext s i c)
include hc

theorem exec_rststream_of_valid : exec (.rststream i) s = finish (setContext i (restartStream s.cfg c) s) :=
  withContext_of_valid s i c _ hc

theorem exec_rstsub_of_valid : exec (.rstsub i) s = finish (setContext i (restartSubstream s.cfg c) s) :=
  withContext_of_valid s i c _ hc

theorem exec_nextsub_of_valid :
    exec (.nextsub i) s = finish (setContext i (restartSubstream s.cfg (advanceSubstream s c)) s) :=
  withContext_of_valid s i c _ hc

theorem exec_clone_of_valid {d : BitVec 8} {old : Context} (hd : d.toNat < s.cfg.nInst)
    (hold : s.insts[d.toNat]? = some old) :
    exec (.clone d i) s = finish (if d = i then s else setContext d c s) := by
  have hcopy : ({ c with valid := true } : Context) = c := by
    obtain ⟨-, -, hv⟩ := hc
    rw [← hv]
  rw [exec, execClone, contextAt_of_lt hd hold, (validContext_some s i c).2 hc]
  dsimp only
  rw [hcopy]

end

/-! ## The seed commands (R195 to R200) -/

theorem pushStaging_of_lt {s : State} (w : Word) (h : s.scnt < s.cfg.sbDepth) :
    pushStaging w s = { s with sb := s.sb.set s.scnt w, scnt := s.scnt + 1 } := if_neg (Nat.not_le.2 h)

theorem pushStaging_of_le {s : State} (w : Word) (h : s.cfg.sbDepth ≤ s.scnt) :
    pushStaging w s = { s with scnt := s.cfg.sbDepth + 1 } := if_pos h

theorem exec_sbclr (s : State) : exec .sbclr s = finish (clearStaging s) := rfl

theorem exec_sbpush (w : Word) (s : State) : exec (.sbpush w) s = finish (pushStaging w s) := rfl

/-! ## The shadow data set (R137 to R140) -/

theorem exec_tbcnt_of_le {s : State} {n : Word} (h1 : 1 ≤ n.toNat) (h2 : n.toNat ≤ s.cfg.ncMax) :
    exec (.tbcnt n) s = finish { s with shNc := n.toNat } := if_pos ⟨h1, h2⟩

theorem exec_tblen_of_le {s : State} {j : BitVec 8} {n : Word} (hj : j.toNat < s.cfg.ncMax) (h1 : 1 ≤ n.toNat)
    (h2 : n.toNat ≤ s.cfg.lMax) :
    exec (.tblen j n) s = finish { s with shLen := s.shLen.set j.toNat (BitVec.ofNat 17 n.toNat) } := by
  rw [BitVec.ofNat_toNat]
  exact if_pos ⟨hj, h1, h2⟩

theorem exec_tbwr_of_lt {s : State} {j : BitVec 8} {k : BitVec 16} (hj : j.toNat < s.cfg.ncMax)
    (hk : k.toNat < s.cfg.lMax) (w : Word) :
    exec (.tbwr j k w) s = finish { s with shTab := memWrite s.shTab (tabAddr j.toNat k.toNat) w } := if_pos ⟨hj, hk⟩

theorem lenAt_take {len : List Len} {n j : Nat} (hj : j < n) : lenAt (len.take n) j = lenAt len j := by
  simp [lenAt, List.getD, hj]

theorem cellActive_tabAddr (nc : Nat) (len : List Len) {j k : Nat} (hk : k < 65536) :
    cellActive nc len (tabAddr j k) = true ↔ j < nc ∧ k < (lenAt len j).toNat := by
  rw [cellActive, tabAddr_div j k hk, tabAddr_mod j k hk, Bool.and_eq_true, decide_eq_true_iff, decide_eq_true_iff]
  rfl

/-! ## The readouts (R201 to R205) -/

theorem exec_rdlin (lvl : Level) (i k : BitVec 8) (s : State) : exec (.rdlin lvl i k) s = withLevelBank lvl i s
    fun bank => if k.toNat < s.cfg.r then finishWord (wordAt bank.1 k.toNat) s else fail .invalidArgument s := rfl

theorem exec_rdnl (lvl : Level) (i j : BitVec 8) (s : State) : exec (.rdnl lvl i j) s = withLevelBank lvl i s
    fun bank => if j.toNat < s.nc then finishWord ((idxAt bank.2 j.toNat).setWidth 32) s
      else fail .invalidArgument s := rfl

theorem exec_rdtab_of_lt {s : State} {j : BitVec 8} {k : BitVec 16} (hj : j.toNat < s.nc)
    (hk : k.toNat < (lenAt s.len j.toNat).toNat) :
    exec (.rdtab j k) s = finishWord (memRead s.tab (tabAddr j.toNat k.toNat)) s := by
  rw [exec, execRdtab, tabCell_of_lt hj hk]

theorem exec_rdcfg_of_item {s : State} {g t : BitVec 8} {v : Word} (h : configItem s g t = some v) :
    exec (.rdcfg g t) s = finishWord v s := by
  rw [exec, execRdcfg, h]

/-- RDCFG group 0 (R204): item number and value. -/
def scalarItems (s : State) : List (Nat × Nat) :=
  [(0, s.cfg.r), (1, s.cfg.b), (2, s.nc), (3, s.cfg.wExp), (4, s.cfg.vExp), (5, s.cfg.nInst), (6, s.cfg.ncMax),
   (7, s.cfg.lMax), (8, max s.cfg.r s.cfg.ncMax), (9, s.shNc)]

theorem configItem_scalar {s : State} {t : BitVec 8} {n v : Nat} (h : (n, v) ∈ scalarItems s) (ht : t.toNat = n) :
    configItem s 0 t = some (BitVec.ofNat 32 v) := by
  simp only [scalarItems, List.mem_cons, List.not_mem_nil, or_false, Prod.mk.injEq] at h
  rcases h with ⟨rfl, rfl⟩ | ⟨rfl, rfl⟩ | ⟨rfl, rfl⟩ | ⟨rfl, rfl⟩ | ⟨rfl, rfl⟩ | ⟨rfl, rfl⟩ | ⟨rfl, rfl⟩ | ⟨rfl, rfl⟩ |
    ⟨rfl, rfl⟩ | ⟨rfl, rfl⟩
  all_goals simp [configItem, ht, Config.sbDepth]

/-- RDCFG groups 1 to 4 (R204): a register of the data set or of the shadow, zero-extended. -/
theorem configItem_lengths {s : State} {t : BitVec 8} (ht : t.toNat < s.nc) :
    configItem s 1 t = some (BitVec.ofNat 32 (lenAt s.len t.toNat).toNat) ∧
    configItem s 2 t = some (BitVec.ofNat 32 (idxAt s.offSub t.toNat).toNat) ∧
    configItem s 3 t = some (BitVec.ofNat 32 (idxAt s.offStr t.toNat).toNat) := by
  simp only [BitVec.ofNat_toNat]
  exact ⟨if_pos ht, if_pos ht, if_pos ht⟩

theorem configItem_shadowLength {s : State} {t : BitVec 8} (ht : t.toNat < s.cfg.ncMax) :
    configItem s 4 t = some (BitVec.ofNat 32 (lenAt s.shLen t.toNat).toNat) := by
  rw [BitVec.ofNat_toNat]
  exact if_pos ht

theorem bitWord_getLsbD (p : Bool) (b : Nat) : (bitWord p).getLsbD b = (decide (b = 0) && p) := by
  cases p <;> simp [bitWord, BitVec.getLsbD_one]

/-- R205 bit by bit: `SCNT` from bit 16, `INST_EXISTS` at bit 8, `LASTERR` below. -/
theorem statusWord_getLsbD (s : State) {b : Nat} (hb : b < 32) :
    (statusWord s).getLsbD b =
      (decide (16 ≤ b) && s.scnt.testBit (b - 16) || decide (b = 8) && s.instExists || s.lastErr.getLsbD b) := by
  simp only [statusWord, BitVec.getLsbD_or, BitVec.getLsbD_shiftLeft, BitVec.getLsbD_setWidth, BitVec.getLsbD_ofNat,
    bitWord_getLsbD]
  grind

theorem lastErr_getLsbD_of_le (s : State) {b : Nat} (hb : 8 ≤ b) : s.lastErr.getLsbD b = false :=
  BitVec.getLsbD_of_ge _ _ hb

theorem statusWord_instExists (s : State) : (statusWord s).getLsbD 8 = s.instExists := by
  rw [statusWord_getLsbD s (by omega), lastErr_getLsbD_of_le s le_rfl]
  simp

theorem statusWord_unused (s : State) : (statusWord s).extractLsb' 9 7 = 0 := by
  refine BitVec.eq_of_getLsbD_eq fun b hb => ?_
  have hscnt : ¬ 16 ≤ 9 + b := by omega
  have hflag : ¬ 9 + b = 8 := by omega
  rw [BitVec.getLsbD_extractLsb', statusWord_getLsbD s (by omega), lastErr_getLsbD_of_le s (by omega)]
  simp [hscnt, hflag]

theorem statusWord_scnt {s : State} (h : s.scnt < 2 ^ 16) : ((statusWord s).extractLsb' 16 16).toNat = s.scnt := by
  have hfield : (statusWord s).extractLsb' 16 16 = BitVec.ofNat 16 s.scnt := by
    refine BitVec.eq_of_getLsbD_eq fun b hb => ?_
    have hflag : ¬ 16 + b = 8 := by omega
    rw [BitVec.getLsbD_extractLsb', statusWord_getLsbD s (by omega), lastErr_getLsbD_of_le s (by omega),
      BitVec.getLsbD_ofNat]
    simp [hflag]
  rw [hfield, BitVec.toNat_ofNat, Nat.mod_eq_of_lt h]

end Sys2Proof.Machine

namespace Sys2Proof.Proofs
open Sys2Proof Sys2Proof.Machine

/-- Settles O9: any context below `N_INST` is accepted. -/
theorem constructCompletes : Obligations.ConstructCompletes := by
  unfold Obligations.ConstructCompletes
  exact fun s i c hi hc => exec_construct_of_lt hi hc

/-- Settles O10, on the context both commands accept. -/
theorem restartCommandsComplete : Obligations.RestartCommandsComplete := by
  unfold Obligations.RestartCommandsComplete
  exact fun s i c hc => ⟨exec_rststream_of_valid hc, exec_rstsub_of_valid hc⟩

/-- Settles O11: the jump comes first, and the restart copies its result. -/
theorem nextsubCompletes : Obligations.NextsubCompletes := by
  unfold Obligations.NextsubCompletes
  exact fun s i c hc => exec_nextsub_of_valid hc

/-- Settles O12: a source that CLONE accepts is valid, so its copy is the source itself. -/
theorem cloneCompletes : Obligations.CloneCompletes := by
  unfold Obligations.CloneCompletes
  intro s d src old c hd hold hc
  rw [exec_clone_of_valid hc hd hold]
  exact ⟨fun hne => by rw [if_neg hne]; rfl, fun heq => by rw [if_pos heq]; rfl⟩

/-- Settles O13, with SBPUSH below and at the depth of the buffer. -/
theorem stagingCommandsComplete : Obligations.StagingCommandsComplete := by
  unfold Obligations.StagingCommandsComplete
  refine fun s w => ⟨exec_sbclr s, fun h => ?_, fun h => ?_⟩ <;> rw [exec_sbpush]
  · rw [pushStaging_of_lt w h]; rfl
  · rw [pushStaging_of_le w h]; rfl

/-- Settles O14: VERIFYSEED accepts the staged words. -/
theorem linearSeedCommandsComplete : Obligations.LinearSeedCommandsComplete := by
  unfold Obligations.LinearSeedCommandsComplete
  intro s hlen hne hlast
  have hseed := withLinearSeed_of_accepted hlen (verifySeed_stagedVector_true hne hlast)
  exact ⟨(exec_setpkgl s).trans (hseed _), fun i c hc => (withContext_of_valid s i c _ hc).trans (hseed _)⟩

/-- Settles O15: no staged entry is out of range. -/
theorem nonlinearSeedCommandsComplete : Obligations.NonlinearSeedCommandsComplete := by
  unfold Obligations.NonlinearSeedCommandsComplete
  intro s hlen hin
  have hseed := withNonlinearSeed_of_accepted hlen hin
  simp only [← stagedIndices_eq s]
  exact ⟨(exec_setpkgn s).trans (hseed _), fun i c hc => (withContext_of_valid s i c _ hc).trans (hseed _)⟩

/-- Settles O16: the operands pass the capacity checks. -/
theorem shadowRegisterWritesComplete : Obligations.ShadowRegisterWritesComplete := by
  unfold Obligations.ShadowRegisterWritesComplete
  exact fun s n l j => ⟨fun h => exec_tbcnt_of_le h.1 h.2, exec_tblen_of_le⟩

/-- Settles O17, from the laws of a memory write. -/
theorem shadowTableWriteCompletes : Obligations.ShadowTableWriteCompletes := by
  unfold Obligations.ShadowTableWriteCompletes
  intro s j k w hwf hj hk
  exact ⟨_, exec_tbwr_of_lt hj hk w, memWrite_wf _ _ _ hwf, memRead_memWrite_self _ _ _ hwf,
    fun a => memRead_memWrite_other _ _ _ _ hwf⟩

/-- Settles O18: the bulk copy keeps the cells of the new data set, and the offsets are those of its lengths. -/
theorem replaceCompletes : Obligations.ReplaceCompletes := by
  unfold Obligations.ReplaceCompletes
  intro s hfree hnc hlens
  have hlen : (shadowLengths s).length = s.shNc := by rw [shadowLengths, List.length_take]; omega
  have hat : ∀ j, j < s.shNc → lenAt (shadowLengths s) j = lenAt s.shLen j := fun j => lenAt_take
  have hbounds : ∀ j, j < s.shNc → 1 ≤ (lenAt s.shLen j).toNat ∧ (lenAt s.shLen j).toNat ≤ 65536 := fun j hj =>
    hlens _ (lenAt_mem (by omega))
  have hoff : ∀ e j, j < s.shNc →
      (idxAt ((shadowLengths s).map (offsetOf e)) j).toNat = 2 ^ e % (lenAt s.shLen j).toNat := fun e j hj => by
    obtain ⟨h1, h2⟩ := hbounds j hj
    rw [← hat j hj] at h1 h2 ⊢
    exact idxAt_map_offsetOf_toNat e (hlen.symm ▸ hj) h1 h2
  refine ⟨_, _, _, execReplace_unlocked (by simp [hfree]), fun j k hj hk => ?_, (List.length_map _).trans hlen,
    (List.length_map _).trans hlen, fun j hj => ⟨hoff _ j hj, hoff _ j hj⟩⟩
  have hk16 : k < 65536 := hk.trans_le (hbounds j hj).2
  rw [installShadow_tab, memRead_memRestrict, if_pos]
  exact (cellActive_tabAddr _ _ hk16).2 ⟨hj, by rwa [hat j hj]⟩

/-- Settles O19: the package bank at level PKG, and a level of a valid context at the three others. -/
theorem cursorReadoutCompletes : Obligations.CursorReadoutCompletes := by
  unfold Obligations.CursorReadoutCompletes
  intro s k
  simp only [BitVec.ofNat_toNat]
  refine ⟨fun hk => (exec_rdlin ..).trans ((withLevelBank_pkg s _).trans (if_pos hk)),
    fun hk => (exec_rdnl ..).trans ((withLevelBank_pkg s _).trans (if_pos hk)),
    fun i c hc => ⟨fun hk => ?_, fun hk => ?_⟩⟩
  · have hread (lvl : Level) (hlvl : lvl ≠ .pkg) :=
      (exec_rdlin lvl i k s).trans ((withLevelBank_of_valid hlvl hc _).trans (if_pos hk))
    exact ⟨hread .str nofun, hread .sub nofun, hread .cur nofun⟩
  · have hread (lvl : Level) (hlvl : lvl ≠ .pkg) :=
      (exec_rdnl lvl i k s).trans ((withLevelBank_of_valid hlvl hc _).trans (if_pos hk))
    exact ⟨hread .str nofun, hread .sub nofun, hread .cur nofun⟩

/-- Settles O20: the cell exists. -/
theorem tableReadoutCompletes : Obligations.TableReadoutCompletes := by
  unfold Obligations.TableReadoutCompletes
  exact fun s j k => exec_rdtab_of_lt

/-- Settles O21, one selector lemma per kind of item. -/
theorem configReadoutCompletes : Obligations.ConfigReadoutCompletes := by
  unfold Obligations.ConfigReadoutCompletes
  refine fun s t => ⟨fun n v h ht => exec_rdcfg_of_item (configItem_scalar h ht), fun ht => ?_,
    fun ht => exec_rdcfg_of_item (configItem_shadowLength ht)⟩
  obtain ⟨h1, h2, h3⟩ := configItem_lengths ht
  exact ⟨exec_rdcfg_of_item h1, exec_rdcfg_of_item h2, exec_rdcfg_of_item h3⟩

/-- Settles O22, from the bits of the status word. -/
theorem statusReadoutCompletes : Obligations.StatusReadoutCompletes := by
  unfold Obligations.StatusReadoutCompletes
  exact fun s h => ⟨statusWord s, exec_rdstat s, statusWord_lastErr s, statusWord_instExists s, statusWord_unused s,
    statusWord_scnt h⟩

end Sys2Proof.Proofs
end

