-- ==== Sys2Proof/Proofs/Frames.lean ====
section
/-! Rules about every command: what each part of the state can have become when a command has completed
(spec/10_state.md R20 to R37, R39(f), R39(h); spec/60_exceptions.md R232). One lemma per part, read off the cases of
`Effect`; a command that failed changed LASTERR and the responses only. -/

namespace Sys2Proof.Machine

/-- SBPUSH writes the staging buffer and its count only. -/
theorem pushStaging_frame (w : Word) (s : State) : ∃ v n, pushStaging w s = { s with sb := v, scnt := n } := by
  unfold pushStaging
  split_ifs
  · exact ⟨_, _, rfl⟩
  · exact ⟨_, _, rfl⟩

section
variable {i : Instr} {s s' : State} {r : Response} (h : Effect i s r s')
include h

theorem effect_cfg : s'.cfg = s.cfg := by
  cases h
  case sbpush w => obtain ⟨v, n, hs⟩ := pushStaging_frame w s; rw [hs]
  all_goals rfl

theorem effect_port : s'.port = s.port := by
  cases h
  case sbpush w => obtain ⟨v, n, hs⟩ := pushStaging_frame w s; rw [hs]
  all_goals rfl

/-- The active data set moves under REPLACE alone, and REPLACE needs INST_EXISTS = 0. -/
theorem effect_dataSet (hex : s.instExists = true) :
    s'.nc = s.nc ∧ s'.len = s.len ∧ s'.tab = s.tab ∧ s'.offSub = s.offSub ∧ s'.offStr = s.offStr := by
  cases h
  case replace hfree => rw [hex] at hfree; cases hfree
  case sbpush w => obtain ⟨v, n, hs⟩ := pushStaging_frame w s; rw [hs]; exact ⟨rfl, rfl, rfl, rfl, rfl⟩
  all_goals exact ⟨rfl, rfl, rfl, rfl, rfl⟩

theorem effect_instExists : s'.instExists = true ↔ s.instExists = true ∨ ∃ a, i = .construct a := by
  cases h
  case construct a c hc => simp
  case sbpush w => obtain ⟨v, n, hs⟩ := pushStaging_frame w s; simp [hs]
  case readout v hi =>
    have : ∀ a, i ≠ .construct a := fun a ha => by rw [ha] at hi; cases hi
    simp [this]
  all_goals simp

theorem effect_pkgLin (hne : s'.pkgLin ≠ s.pkgLin) : (∃ a, i = .construct a) ∨ i = .setpkgl := by
  cases h
  case construct a c hc => exact .inl ⟨a, rfl⟩
  case setpkgl => exact .inr rfl
  case sbpush w => obtain ⟨v, n, hs⟩ := pushStaging_frame w s; rw [hs] at hne; exact absurd rfl hne
  all_goals exact absurd rfl hne

theorem effect_pkgNl (hne : s'.pkgNl ≠ s.pkgNl) : (∃ a, i = .construct a) ∨ i = .setpkgn ∨ i = .replace := by
  cases h
  case construct a c hc => exact .inl ⟨a, rfl⟩
  case setpkgn => exact .inr (.inl rfl)
  case replace => exact .inr (.inr rfl)
  case sbpush w => obtain ⟨v, n, hs⟩ := pushStaging_frame w s; rw [hs] at hne; exact absurd rfl hne
  all_goals exact absurd rfl hne

theorem effect_data (hread : isReadout i = false) (hdraw : isDraw i = false) : r.rz = 0 ∧ r.ru = 0 ∧ r.rf = 0 := by
  cases h
  case nextu => cases hdraw
  case nextw => cases hdraw
  case readout hi => rw [hread] at hi; cases hi
  all_goals exact ⟨rfl, rfl, rfl⟩

theorem effect_of_readout (hread : isReadout i = true) : s' = s := by
  cases h
  case readout => rfl
  all_goals cases hread

end

theorem exec_cfg {i : Instr} {s t : State} (h : exec i s = .next t) : t.cfg = s.cfg := by
  rcases next_cases h with ⟨e, rfl, -⟩ | ⟨r, s', rfl, heff⟩
  · rfl
  · exact (effect_cfg heff :)

theorem exec_port {i : Instr} {s t : State} (h : exec i s = .next t) : t.port = s.port := by
  rcases next_cases h with ⟨e, rfl, -⟩ | ⟨r, s', rfl, heff⟩
  · rfl
  · exact (effect_port heff :)

/-! ## Contexts -/

/-- A command may write one context, the one `writtenInstance` names; the flag VALID it leaves there. -/
theorem effect_insts {i : Instr} {s s' : State} {r : Response} (h : Effect i s r s') :
    s'.insts = s.insts ∨ ∃ a old c, writtenInstance i = some a ∧ s.insts[a.toNat]? = some old ∧
    s'.insts = s.insts.set a.toNat c ∧ (old.valid = true → c.valid = true) ∧
    (old.valid = false → c.valid = true → i = .construct a ∨ ∃ src, i = .clone a src) := by
  cases h
  case nextu a c z c' hc hmix | nextw a c z c' hc hmix =>
    obtain ⟨hvalid, -⟩ := mix_frame s c c' z hmix
    obtain ⟨-, hat, hv⟩ := hc
    exact .inr ⟨a, c, c', rfl, hat, rfl, fun _ => hvalid.trans hv, fun h0 => by rw [hv] at h0; cases h0⟩
  case construct a c hc =>
    exact .inr ⟨a, c, _, rfl, ((contextAt_some s a c).1 hc).2, rfl, fun _ => rfl, fun _ _ => .inl rfl⟩
  case rststream a c hc | rstsub a c hc | nextsub a c hc | setseedl a c hc _ _ | setseedn a c hc _ _ =>
    obtain ⟨-, hat, hv⟩ := hc
    exact .inr ⟨a, c, _, rfl, hat, rfl, fun _ => hv, fun h0 => by rw [hv] at h0; cases h0⟩
  case clone d src old c _ hold hc =>
    exact .inr ⟨d, old, _, rfl, ((contextAt_some s d old).1 hold).2, rfl, fun _ => rfl, fun _ _ => .inr ⟨src, rfl⟩⟩
  case sbpush w => obtain ⟨v, n, hs⟩ := pushStaging_frame w s; rw [hs]; exact .inl rfl
  all_goals exact .inl rfl

/-- `n` is not the context the command names for writing. -/
theorem getElem?_of_not_written {i : Instr} {s t : State} (h : exec i s = .next t) {n : Nat}
    (hn : ∀ a, writtenInstance i = some a → a.toNat ≠ n) : t.insts[n]? = s.insts[n]? := by
  rcases next_cases h with ⟨e, rfl, -⟩ | ⟨r, s', rfl, heff⟩
  · rfl
  · rcases effect_insts heff with hsame | ⟨a, -, c, ha, -, hset, -⟩
    · rw [respond_insts, hsame]
    · rw [respond_insts, hset, List.getElem?_set_ne (hn a ha)]

/-- What a completed command leaves of the flag VALID of context `n`. -/
theorem valid_of_effect {i : Instr} {s s' : State} {r : Response} (h : Effect i s r s') {n : Nat} {c : Context}
    (hc : s.insts[n]? = some c) : ∃ c', s'.insts[n]? = some c' ∧ (c.valid = true → c'.valid = true) ∧
      (c.valid = false → c'.valid = true →
        ∃ a : BitVec 8, a.toNat = n ∧ (i = .construct a ∨ ∃ src, i = .clone a src)) := by
  have hflag : ∀ p : Prop, c.valid = false → c.valid = true → p := fun _ h0 h1 => absurd (h0.symm.trans h1) nofun
  rcases effect_insts h with hsame | ⟨a, old, c', -, hold, hset, hkeep, hnew⟩
  · exact ⟨c, hsame ▸ hc, id, hflag _⟩
  · by_cases hn : a.toNat = n
    · subst hn
      obtain rfl : old = c := Option.some.inj (hold.symm.trans hc)
      have hlt : a.toNat < s.insts.length := (List.getElem?_eq_some_iff.1 hc).1
      exact ⟨c', by rw [hset, List.getElem?_set_self hlt], hkeep, fun h0 h1 => ⟨a, rfl, hnew h0 h1⟩⟩
    · exact ⟨c, by rw [hset, List.getElem?_set_ne hn, hc], id, hflag _⟩

end Sys2Proof.Machine

namespace Sys2Proof.Proofs
open Sys2Proof Sys2Proof.Machine

/-- Settles O27: a failure answers its code, an effect answers its response once. -/
theorem everyCommandAnswersOnce : Obligations.EveryCommandAnswersOnce := by
  unfold Obligations.EveryCommandAnswersOnce
  intro i s t h
  rcases next_cases h with ⟨e, rfl, -⟩ | ⟨r, s', rfl, heff⟩
  · exact ⟨_, rfl, (errorCode_bounds e).2, fun _ => ⟨rfl, rfl, rfl⟩⟩
  · have hst := effect_st heff
    exact ⟨r, by rw [endedWith, respond_out, effect_out heff], by rw [hst]; decide, fun hne => absurd hst hne⟩

/-- Settles O32: only REPLACE changes the data set, and it fails while INST_EXISTS is set. -/
theorem dataSetLockedWhileInstanceExists : Obligations.DataSetLockedWhileInstanceExists := by
  unfold Obligations.DataSetLockedWhileInstanceExists
  intro i s t h hex
  rcases next_cases h with ⟨e, rfl, -⟩ | ⟨r, s', rfl, heff⟩
  · exact ⟨rfl, rfl, rfl, rfl, rfl⟩
  · exact (effect_dataSet heff hex :)

/-- Settles O33: a CONSTRUCT that failed has a status that is not 0. -/
theorem instExistsIsSetByConstructAlone : Obligations.InstExistsIsSetByConstructAlone := by
  unfold Obligations.InstExistsIsSetByConstructAlone
  refine ⟨fun _ => rfl, fun i s t r h hr => ?_⟩
  rcases next_resp h hr with ⟨e, rfl, rfl, -⟩ | ⟨s', rfl, heff⟩
  · exact ⟨.inl, fun h => h.resolve_right fun hcon => errorCode_ne e hcon.2⟩
  · rw [respond_instExists, effect_instExists heff]
    simp [effect_st heff]

/-- Settles O34: a context that a command wrote was valid before, or the command is CONSTRUCT or CLONE. -/
theorem validIsNeverCleared : Obligations.ValidIsNeverCleared := by
  unfold Obligations.ValidIsNeverCleared
  intro i s t r h hr n c hc
  rcases next_resp h hr with ⟨e, rfl, rfl, -⟩ | ⟨s', rfl, heff⟩
  · exact ⟨c, hc, id, fun h0 h1 => by rw [h0] at h1; cases h1⟩
  · obtain ⟨c', hc', hkeep, hnew⟩ := valid_of_effect heff hc
    exact ⟨c', hc', hkeep, fun h0 h1 => ⟨effect_st heff, hnew h0 h1⟩⟩

/-- Settles O35: the one context a command writes is the one `writtenInstance` names. -/
theorem otherContextsAreNotWritten : Obligations.OtherContextsAreNotWritten := by
  unfold Obligations.OtherContextsAreNotWritten
  exact fun i s t h n => getElem?_of_not_written h

/-- Settles O37, one half of the package bank after the other. -/
theorem packageOriginWriters : Obligations.PackageOriginWriters := by
  unfold Obligations.PackageOriginWriters
  intro i s t h
  rcases next_cases h with ⟨e, rfl, -⟩ | ⟨r, s', rfl, heff⟩
  · exact ⟨fun hne => absurd rfl hne, fun hne => absurd rfl hne⟩
  · exact ⟨(effect_pkgLin heff :), (effect_pkgNl heff :)⟩

/-- Settles O38: a step waits, takes one command and runs it, or takes one and rejects it. -/
theorem configurationIsConstant : Obligations.ConfigurationIsConstant := by
  unfold Obligations.ConfigurationIsConstant
  intro s t h
  rcases step_cases s with ⟨hport, hs⟩ | ⟨c, rest, hport, ⟨i, -, hs⟩ | hs⟩ <;> rw [hs] at h
  · cases h
    exact ⟨rfl, by rw [hport, List.tail_nil]⟩
  · rw [hport, List.tail_cons]
    exact ⟨(exec_cfg h :), (exec_port h :)⟩
  · cases h
    exact ⟨rfl, by rw [hport, List.tail_cons]; rfl⟩

end Sys2Proof.Proofs
end

