-- ==== Sys2Proof/Proofs/Rerun.lean ====
section
/-! What a command does not read (spec/20_memory.md R65, spec/60_exceptions.md R229, R232): run in a state with other
contexts, another LASTERR and other earlier responses, it does the same. Three statements follow: contexts a command
does not name do not matter to it, a failed command fails again, a readout reads the same again. -/

namespace Sys2Proof.Machine

/-- `s` with the contexts changed by `f`, LASTERR `l` and the responses `o`. -/
def disturbed (f : List Context → List Context) (l : BitVec 8) (o : List Response) (s : State) : State :=
  { s with insts := f s.insts, lastErr := l, out := o }

/-- `f` leaves context `a` alone, for reading and for writing. -/
structure Spares (f : List Context → List Context) (a : BitVec 8) : Prop where
  get : ∀ cs : List Context, (f cs)[a.toNat]? = cs[a.toNat]?
  set : ∀ (cs : List Context) (x : Context), f (cs.set a.toNat x) = (f cs).set a.toNat x

theorem spares_id (a : BitVec 8) : Spares id a := ⟨fun _ => rfl, fun _ _ => rfl⟩

theorem spares_set {n : Nat} {a : BitVec 8} (h : a.toNat ≠ n) (c : Context) : Spares (fun cs => cs.set n c) a :=
  ⟨fun _ => List.getElem?_set_ne h.symm, fun _ _ => List.set_comm _ _ h⟩

/-- A run in `s` and one in the disturbed state do the same: fail alike, stop alike, or complete with one response and
next states that differ as `s` and the disturbed state do. -/
inductive SameRun (f : List Context → List Context) (l : BitVec 8) (o : List Response) (s : State) :
    Result → Result → Prop
  | fail (e : ErrorKind) : SameRun f l o s (fail e s) (fail e (disturbed f l o s))
  | fault (k : Fault) : SameRun f l o s (.fault k) (.fault k)
  | done (r : Response) (s' : State) : s'.out = s.out → s'.lastErr = s.lastErr → r.st = 0 →
      SameRun f l o s (.next (respond r s')) (.next (respond r (disturbed f l o s')))

/-- MIX reads the configuration and the data set, besides its context. -/
theorem mix_disturbed (f : List Context → List Context) (l : BitVec 8) (o : List Response) (s : State) (c : Context) :
    mix (disturbed f l o s) c = mix s c := by
  have hsum : currentValue (disturbed f l o s) (advanceOne s c.curNl) = currentValue s (advanceOne s c.curNl) :=
    sumCells_congr (s := s) (t := disturbed f l o s) (fun _ _ => rfl) _ _
  unfold mix
  rw [← hsum]
  rfl

section
variable {f : List Context → List Context} {l : BitVec 8} {o : List Response} {s : State} {a : BitVec 8}

theorem contextAt_disturbed (ha : Spares f a) : contextAt (disturbed f l o s) a = contextAt s a := by
  unfold contextAt
  rw [← ha.get s.insts]
  rfl

theorem validContext_disturbed (ha : Spares f a) : validContext (disturbed f l o s) a = validContext s a := by
  unfold validContext
  rw [contextAt_disturbed ha]

theorem disturbed_setContext (ha : Spares f a) (x : Context) (s : State) :
    disturbed f l o (setContext a x s) = setContext a x (disturbed f l o s) := by
  rw [disturbed, setContext_insts, ha.set]
  rfl

theorem pushStaging_disturbed (w : Word) : pushStaging w (disturbed f l o s) = disturbed f l o (pushStaging w s) := by
  by_cases hfull : s.cfg.sbDepth ≤ s.scnt
  · rw [pushStaging_of_le w hfull]
    exact pushStaging_of_le w hfull
  · rw [pushStaging_of_lt w (Nat.not_le.1 hfull)]
    exact pushStaging_of_lt w (Nat.not_le.1 hfull)

/-! ## The shared operations -/

namespace SameRun

theorem finish {s' : State} (hout : s'.out = s.out) (herr : s'.lastErr = s.lastErr) :
    SameRun f l o s (finish s') (Machine.finish (disturbed f l o s')) := done okResponse s' hout herr rfl

theorem word (v : Word) : SameRun f l o s (finishWord v s) (finishWord v (disturbed f l o s)) :=
  done (wordResponse v) s rfl rfl rfl

/-- A context is written, in a state that has given no other response. -/
theorem setContext (ha : Spares f a) (x : Context) {r : Response} (hr : r.st = 0) {s' : State} (hout : s'.out = s.out)
    (herr : s'.lastErr = s.lastErr) : SameRun f l o s (.next (respond r (setContext a x s')))
      (.next (respond r (Machine.setContext a x (disturbed f l o s')))) := by
  rw [← disturbed_setContext ha]
  exact done r _ hout herr hr

theorem ite {p : Prop} [Decidable p] {x y x' y' : Result} (hx : SameRun f l o s x x') (hy : SameRun f l o s y y') :
    SameRun f l o s (if p then x else y) (if p then x' else y') := by
  split_ifs
  · exact hx
  · exact hy

theorem withContext (ha : Spares f a) {body body' : Context → Result} (h : ∀ c, SameRun f l o s (body c) (body' c)) :
    SameRun f l o s (withContext a s body) (withContext a (disturbed f l o s) body') := by
  unfold Machine.withContext
  rw [validContext_disturbed ha]
  cases validContext s a with
  | none => exact fail _
  | some c => exact h c

theorem withLinearSeed {body body' : Vec → Result} (h : ∀ x, SameRun f l o s (body x) (body' x)) :
    SameRun f l o s (withLinearSeed s body) (withLinearSeed (disturbed f l o s) body') :=
  ite (fail _) (ite (fail _) (h _))

theorem withNonlinearSeed {body body' : List Idx → Result} (h : ∀ x, SameRun f l o s (body x) (body' x)) :
    SameRun f l o s (withNonlinearSeed s body) (withNonlinearSeed (disturbed f l o s) body') :=
  ite (fail _) (ite (fail _) (h _))

theorem withLevelBank {lvl : Level} (ha : lvl ≠ .pkg → Spares f a) {body body' : Vec × List Idx → Result}
    (h : ∀ bank, SameRun f l o s (body bank) (body' bank)) :
    SameRun f l o s (withLevelBank lvl a s body) (withLevelBank lvl a (disturbed f l o s) body') := by
  have hbank : levelBank lvl a (disturbed f l o s) = levelBank lvl a s := by
    cases lvl with
    | pkg => rfl
    | str | sub | cur => rw [levelBank, levelBank, validContext_disturbed (ha nofun)]
  unfold Machine.withLevelBank
  rw [hbank]
  refine ite (fail _) ?_
  cases levelBank lvl a s with
  | none => exact fail _
  | some bank => exact h bank

theorem drawWith (ha : Spares f a) {resp : Word → Response} (hresp : ∀ z, (resp z).st = 0) :
    SameRun f l o s (drawWith resp a s) (drawWith resp a (disturbed f l o s)) := by
  refine withContext ha fun c => ?_
  rw [mix_disturbed]
  cases mix s c with
  | error k => exact fault k
  | ok p => exact setContext ha p.2 (hresp p.1) rfl rfl

end SameRun

end

/-! ## Every command -/

/-- The contexts a command names. -/
def names (i : Instr) (a : BitVec 8) : Prop := writtenInstance i = some a ∨ readInstance i = some a

/-- A command reads the contexts it names and no other, LASTERR only if it is RDSTAT, and no earlier response. -/
theorem exec_sameRun {f : List Context → List Context} {l : BitVec 8} (o : List Response) {i : Instr} {s : State}
    (hf : ∀ a, names i a → Spares f a) (hl : i = .rdstat → l = s.lastErr) :
    SameRun f l o s (exec i s) (exec i (disturbed f l o s)) := by
  cases i with
  | nextu a => exact SameRun.drawWith (hf a (.inl rfl)) fun _ => rfl
  | nextw a => exact SameRun.drawWith (hf a (.inl rfl)) fun _ => rfl
  | construct a =>
    have ha := hf a (.inl rfl)
    rw [exec, exec, execConstruct, execConstruct, contextAt_disturbed ha]
    cases contextAt s a with
    | none => exact .fail _
    | some c => exact SameRun.setContext ha _ rfl rfl rfl
  | rststream a | rstsub a | nextsub a =>
    have ha := hf a (.inl rfl)
    exact SameRun.withContext ha fun c => SameRun.setContext ha _ rfl rfl rfl
  | clone d src =>
    have hd := hf d (.inl rfl)
    rw [exec, exec, execClone, execClone, contextAt_disturbed hd, validContext_disturbed (hf src (.inr rfl))]
    cases contextAt s d with
    | none => exact .fail _
    | some old =>
      cases validContext s src with
      | none => exact .fail _
      | some c =>
        dsimp only
        split_ifs
        · exact .finish rfl rfl
        · exact SameRun.setContext hd _ rfl rfl rfl
  | sbclr => exact .finish (s' := clearStaging s) rfl rfl
  | sbpush w =>
    obtain ⟨v, n, hpush⟩ := pushStaging_frame w s
    rw [exec_sbpush, exec_sbpush, pushStaging_disturbed]
    exact .finish (by rw [hpush]) (by rw [hpush])
  | setpkgl =>
    rw [exec_setpkgl, exec_setpkgl]
    exact SameRun.withLinearSeed fun x => .finish (s' := { clearStaging s with pkgLin := x }) rfl rfl
  | setpkgn =>
    rw [exec_setpkgn, exec_setpkgn]
    exact SameRun.withNonlinearSeed fun x => .finish (s' := { clearStaging s with pkgNl := x }) rfl rfl
  | setseedl a =>
    have ha := hf a (.inl rfl)
    exact SameRun.withContext ha fun c => SameRun.withLinearSeed fun x =>
      SameRun.setContext ha _ rfl (s' := clearStaging s) rfl rfl
  | setseedn a =>
    have ha := hf a (.inl rfl)
    exact SameRun.withContext ha fun c => SameRun.withNonlinearSeed fun x =>
      SameRun.setContext ha _ rfl (s' := clearStaging s) rfl rfl
  | tbcnt n => exact .ite (.finish (s' := { s with shNc := n.toNat }) rfl rfl) (.fail _)
  | tblen j n => exact .ite (.finish (s' := { s with shLen := s.shLen.set j.toNat (n.setWidth 17) }) rfl rfl) (.fail _)
  | tbwr j k w =>
    exact .ite (.finish (s' := { s with shTab := memWrite s.shTab (tabAddr j.toNat k.toNat) w }) rfl rfl) (.fail _)
  | replace => exact .ite (.fail _) (.finish (s' := installShadow s) rfl rfl)
  | rdlin lvl a k =>
    refine SameRun.withLevelBank (fun hlvl => hf a (.inr ?_)) fun bank => .ite (.word _) (.fail _)
    cases lvl with
    | pkg => exact absurd rfl hlvl
    | str | sub | cur => rfl
  | rdnl lvl a j =>
    refine SameRun.withLevelBank (fun hlvl => hf a (.inr ?_)) fun bank => .ite (.word _) (.fail _)
    cases lvl with
    | pkg => exact absurd rfl hlvl
    | str | sub | cur => rfl
  | rdtab j k =>
    have hcell : tabCell (disturbed f l o s) j.toNat k.toNat = tabCell s j.toNat k.toNat := rfl
    rw [exec, exec, execRdtab, execRdtab, hcell]
    cases tabCell s j.toNat k.toNat with
    | none => exact .fail _
    | some w => exact .word w
  | rdcfg g t =>
    have hitem : configItem (disturbed f l o s) g t = configItem s g t := rfl
    rw [exec, exec, execRdcfg, execRdcfg, hitem]
    cases configItem s g t with
    | none => exact .fail _
    | some v => exact .word v
  | rdstat =>
    have hword : statusWord (disturbed f l o s) = statusWord s := by rw [hl rfl]; rfl
    show SameRun f l o s (finishWord (statusWord s) s)
      (finishWord (statusWord (disturbed f l o s)) (disturbed f l o s))
    rw [hword]
    exact .word _

/-- What the run in the disturbed state does when the run in `s` has a next state. -/
theorem SameRun.of_next {f : List Context → List Context} {l : BitVec 8} {o : List Response} {s t : State} {y : Result}
    (h : SameRun f l o s (.next t) y) :
    (∃ e, t = refusedWith (errorCode e) s ∧ y = .next (refusedWith (errorCode e) (disturbed f l o s))) ∨
    ∃ r s', t = respond r s' ∧ s'.out = s.out ∧ s'.lastErr = s.lastErr ∧ r.st = 0 ∧
      y = .next (respond r (disturbed f l o s')) := by
  generalize hx : Host.Outcome.next t = x at h
  cases h with
  | fail e => cases hx; exact .inl ⟨e, rfl, rfl⟩
  | fault k => cases hx
  | done r s' hout herr hr => cases hx; exact .inr ⟨r, s', rfl, hout, herr, hr, rfl⟩

theorem respond_inj {r r' : Response} {s s' : State} (h : respond r s = respond r' s') (hout : s'.out = s.out) :
    r = r' ∧ s = s' := by
  cases s
  cases s'
  simp_all [respond]

/-- A readout that succeeded reads the same in the state it left: only RDSTAT reads LASTERR, which it did not change. -/
theorem exec_answered_of_readout {i : Instr} {s : State} {r : Response} (h : exec i s = .next (answered r s))
    (hst : r.st = 0) : exec i (answered r s) = .next (answered r (answered r s)) := by
  have hrun := exec_sameRun (f := id) (s.out ++ [r]) (i := i) (s := s) (fun a _ => spares_id a) fun _ => rfl
  rw [h] at hrun
  rcases hrun.of_next with ⟨e, ht, -⟩ | ⟨r', s', ht, hout, -, -, hy⟩
  · have hr : r = ⟨errorCode e, 0, 0, 0⟩ := by simpa [answered, refusedWith] using congrArg State.out ht
    rw [hr] at hst
    exact absurd hst (errorCode_ne e)
  · obtain ⟨rfl, rfl⟩ := respond_inj ht hout
    exact hy

/-- A command that failed fails alike in the state it left: only RDSTAT reads LASTERR, and it does not fail. -/
theorem exec_refusedWith_of_fail {i : Instr} {s : State} {e : ErrorKind} (h : exec i s = fail e s) :
    exec i (refusedWith (errorCode e) s) = .next (refusedWith (errorCode e) (refusedWith (errorCode e) s)) := by
  have hi : i ≠ .rdstat := fun hi => by
    rw [hi, exec_rdstat, fail_eq, Host.Outcome.next.injEq] at h
    have hr : (⟨0, statusWord s, 0, 0⟩ : Response) = ⟨errorCode e, 0, 0, 0⟩ := by
      simpa [answered, refusedWith] using congrArg State.out h
    exact errorCode_ne e (congrArg Response.st hr).symm
  have hrun := exec_sameRun (f := id) (l := errorCode e) (s.out ++ [⟨errorCode e, 0, 0, 0⟩]) (i := i) (s := s)
    (fun a _ => spares_id a) fun hrd => absurd hrd hi
  rw [h, fail_eq] at hrun
  rcases hrun.of_next with ⟨e', ht, hy⟩ | ⟨r, s', ht, hout, -, hr, -⟩
  · have hcode : errorCode e = errorCode e' := congrArg State.lastErr ht
    rw [← hcode] at hy
    exact hy
  · obtain ⟨rfl, -⟩ := respond_inj (r := errorResponse (errorCode e)) (s := { s with lastErr := errorCode e }) ht hout
    exact absurd hr (errorCode_ne e)

end Sys2Proof.Machine

namespace Sys2Proof.Proofs
open Sys2Proof Sys2Proof.Machine

/-- Settles O30: a failed command left LASTERR and a response, and neither makes it succeed. -/
theorem failedCommandFailsAgain : Obligations.FailedCommandFailsAgain := by
  unfold Obligations.FailedCommandFailsAgain
  intro i s t r h hr hst
  rcases next_resp h hr with ⟨e, rfl, rfl, hfail⟩ | ⟨s', -, heff⟩
  · exact exec_refusedWith_of_fail hfail
  · exact absurd (effect_st heff) hst

/-- Settles O31: a readout that succeeded left a response; the commands that return data are the readouts and the
draws. -/
theorem readoutIsPure : Obligations.ReadoutIsPure := by
  unfold Obligations.ReadoutIsPure
  refine ⟨fun i s t r hi h hr hst => ?_, fun i s t r hread hdraw h hr => ?_⟩
  · rcases next_resp h hr with ⟨e, rfl, -, -⟩ | ⟨s', rfl, heff⟩
    · exact absurd hst (errorCode_ne e)
    · obtain rfl := effect_of_readout heff hi
      exact ⟨rfl, exec_answered_of_readout h hst⟩
  · rcases next_resp h hr with ⟨e, rfl, -, -⟩ | ⟨s', -, heff⟩
    · exact ⟨rfl, rfl, rfl⟩
    · exact effect_data heff hread hdraw

/-- Settles O36: replacing a context that the command does not name disturbs nothing it reads. -/
theorem otherContextsAreNotRead : Obligations.OtherContextsAreNotRead := by
  unfold Obligations.OtherContextsAreNotRead
  intro i s t n c hn h
  have hrun := exec_sameRun s.out (i := i) (s := s) (fun a ha => spares_set (hn a ha) c) fun _ => rfl
  rw [h] at hrun
  rcases hrun.of_next with ⟨e, rfl, hy⟩ | ⟨r, s', rfl, hout, herr, -, hy⟩
  · exact hy
  · have hnext : disturbed (fun cs => cs.set n c) s.lastErr s.out s' = { s' with insts := s'.insts.set n c } := by
      rw [← hout, ← herr]
      rfl
    rw [hnext] at hy
    exact hy

end Sys2Proof.Proofs
end

