-- ==== Sys2Proof/Proofs/Streams.lean ====
section
/-! Runs of several commands (spec/42_stream_manager.md R163, R167; spec/30_encoding.md R89): the spacing of successive
streams, the repetition of a substream after RSTSUB, the pseudo-command LOADSEED. -/

namespace Sys2Proof.Machine

theorem runInstrs_cons_next {i : Instr} {is : List Instr} {s u : State} :
    runInstrs (i :: is) s = .next u ↔ ∃ t, exec i s = .next t ∧ runInstrs is t = .next u := by
  rw [runInstrs]
  cases exec i s <;> simp

/-! ## Successive streams (R167) -/

/-- What CONSTRUCT leaves in a context that exists, and in the package bank. -/
theorem construct_next {s t : State} {a : BitVec 8} {c : Context} (ha : a.toNat < s.cfg.nInst)
    (h : exec (.construct a) s = .next t) (hc : t.insts[a.toNat]? = some c) :
    (c.strLin = s.pkgLin ∧ c.strNl = s.pkgNl) ∧
      (t.pkgLin = jump s.cfg .str s.pkgLin ∧ t.pkgNl = nlJump s .str s.pkgNl) ∧ nlJump t .str = nlJump s .str := by
  cases hold : s.insts[a.toNat]? with
  | none =>
    have hnone : contextAt s a = none := (if_pos ha).trans hold
    rw [exec, execConstruct, hnone] at h
    cases h
    rw [raiseError_insts, hold] at hc
    cases hc
  | some old =>
    rw [exec_construct_of_lt ha hold] at h
    cases h
    have hlt : a.toNat < s.insts.length := (List.getElem?_eq_some_iff.1 hold).1
    have hset : constructedContext s old = c := by
      rw [respond_insts, setContext_insts] at hc
      exact Option.some.inj ((List.getElem?_set_self hlt).symm.trans hc)
    subst hset
    exact ⟨⟨rfl, rfl⟩, ⟨rfl, rfl⟩, rfl⟩

theorem package_of_not_writes {i : Instr} {s t : State} (hi : writesPackage i = false) (h : exec i s = .next t) :
    t.pkgLin = s.pkgLin ∧ t.pkgNl = s.pkgNl := by
  rcases next_cases h with ⟨e, rfl, -⟩ | ⟨r, s', rfl, heff⟩
  · exact ⟨rfl, rfl⟩
  · refine ⟨by_contra fun hne => ?_, by_contra fun hne => ?_⟩
    · rcases effect_pkgLin heff hne with ⟨a, rfl⟩ | rfl <;> cases hi
    · rcases effect_pkgNl heff hne with ⟨a, rfl⟩ | rfl | rfl <;> cases hi

theorem runInstrs_package {is : List Instr} {s t : State} (his : ∀ i ∈ is, writesPackage i = false)
    (h : runInstrs is s = .next t) : t.pkgLin = s.pkgLin ∧ t.pkgNl = s.pkgNl := by
  induction is generalizing s with
  | nil => cases h; exact ⟨rfl, rfl⟩
  | cons i is ih =>
    obtain ⟨u, hu, ht⟩ := runInstrs_cons_next.1 h
    obtain ⟨hlin, hnl⟩ := ih (fun j hj => his j (List.mem_cons_of_mem _ hj)) ht
    obtain ⟨hlin', hnl'⟩ := package_of_not_writes (his i List.mem_cons_self) hu
    exact ⟨hlin.trans hlin', hnl.trans hnl'⟩

theorem runInstrs_cfg {is : List Instr} {s t : State} (h : runInstrs is s = .next t) : t.cfg = s.cfg := by
  induction is generalizing s with
  | nil => cases h; rfl
  | cons i is ih =>
    obtain ⟨u, hu, ht⟩ := runInstrs_cons_next.1 h
    exact (ih ht).trans (exec_cfg hu)

/-! ## Equal draws (R163)

The draws of a context depend on its live cursor, on its buffer cursor, and on its buffer only while that is not
exhausted. -/

/-- The registers that fix the draws of a context. -/
structure SameCursor (g : Config) (c d : Context) : Prop where
  curLin : d.curLin = c.curLin
  curNl : d.curNl = c.curNl
  bufCur : d.bufCur = c.bufCur
  buf : c.bufCur = g.b ∨ d.buf = c.buf

/-- After a refill the two buffers are the same. -/
theorem SameCursor.refillBuffer {g : Config} {c d : Context} (h : SameCursor g c d) :
    SameCursor g (refillBuffer g c) (refillBuffer g d) ∧ (refillBuffer g d).buf = (refillBuffer g c).buf := by
  unfold Machine.refillBuffer
  rw [h.bufCur]
  split_ifs with hb
  · have hbuf : (stepBackbone g d).buf = (stepBackbone g c).buf := by simp [h.curLin]
    exact ⟨⟨by simp [h.curLin], h.curNl, rfl, .inr hbuf⟩, hbuf⟩
  · exact ⟨h, h.buf.resolve_left hb⟩

theorem SameCursor.nextWord {g : Config} {c d d' : Context} {w : Word} (h : SameCursor g c d)
    (hd : nextWord g d = some (w, d')) : ∃ c', nextWord g c = some (w, c') ∧ SameCursor g c' d' := by
  obtain ⟨hrefill, hbuf⟩ := h.refillBuffer
  obtain ⟨hw, rfl⟩ := (nextWord_some ..).1 hd
  rw [hbuf, hrefill.bufCur] at hw
  exact ⟨_, (nextWord_some ..).2 ⟨hw, rfl⟩, hrefill.curLin, hrefill.curNl, congrArg (· + 1) hrefill.bufCur, .inr hbuf⟩

/-- Two states with one configuration and one data set. -/
structure SameTables (s t : State) : Prop where
  cfg : t.cfg = s.cfg
  nc : t.nc = s.nc
  len : t.len = s.len
  tab : t.tab = s.tab

theorem SameTables.advanceOne {s t : State} (h : SameTables s t) : advanceOne t = advanceOne s := by
  funext a
  rw [Machine.advanceOne, Machine.advanceOne, h.nc, h.len]

theorem SameTables.currentValue {s t : State} (h : SameTables s t) (a : List Idx) :
    currentValue t a = currentValue s a := by
  rw [Machine.currentValue, Machine.currentValue, h.nc]
  exact sumCells_congr (fun j k => by rw [tabCell, tabCell, h.nc, h.len, h.tab]) a s.nc

theorem SameTables.mix {s t : State} (h : SameTables s t) {c d d' : Context} (hcd : SameCursor s.cfg c d) {z : Word}
    (hd : mix t d = .ok (z, d')) : ∃ c', mix s c = .ok (z, c') ∧ SameCursor s.cfg c' d' := by
  obtain ⟨v, b, hv, hb, rfl⟩ := (mix_ok t d d' z).1 hd
  rw [h.cfg, h.advanceOne, hcd.curNl] at hb
  rw [h.advanceOne, h.currentValue, hcd.curNl] at hv
  have hadv : SameCursor s.cfg { c with curNl := Machine.advanceOne s c.curNl }
      { d with curNl := Machine.advanceOne s c.curNl } := ⟨hcd.curLin, rfl, hcd.bufCur, hcd.buf⟩
  obtain ⟨c', hc', hsame⟩ := hadv.nextWord hb
  exact ⟨c', (mix_ok s c c' _).2 ⟨v, b, hv, hc', rfl⟩, hsame⟩

/-! ## Runs of NEXTU -/

theorem isValidContext_written {s : State} {i : BitVec 8} {c c' : Context} (hc : isValidContext s i c)
    (hv : c'.valid = true) (r : Response) : isValidContext (respond r (setContext i c' s)) i c' := by
  obtain ⟨hi, hat, -⟩ := hc
  exact ⟨hi, List.getElem?_set_self (List.getElem?_eq_some_iff.1 hat).1, hv⟩

/-- A NEXTU of a valid context that has a next state. -/
theorem nextu_next {s t : State} {i : BitVec 8} {c : Context} (hc : isValidContext s i c)
    (h : exec (.nextu i) s = .next t) :
    ∃ z c', mix s c = .ok (z, c') ∧ t = respond (nextuResponse z) (setContext i c' s) := by
  rw [exec_nextu] at h
  cases hmix : mix s c with
  | error f => rw [drawWith_of_mix_error hc _ hmix] at h; cases h
  | ok p =>
    rw [drawWith_of_mix_ok hc _ hmix] at h
    cases h
    exact ⟨_, _, rfl, rfl⟩

/-- What draws leave alone: the data set, and of their context the substream origin. -/
theorem draws_frame {s t : State} {i : BitVec 8} {c : Context} {n : Nat} (hc : isValidContext s i c)
    (h : runInstrs (List.replicate n (.nextu i)) s = .next t) :
    SameTables s t ∧ ∃ d, isValidContext t i d ∧ d.subLin = c.subLin ∧ d.subNl = c.subNl := by
  induction n generalizing s c with
  | zero => cases h; exact ⟨⟨rfl, rfl, rfl, rfl⟩, c, hc, rfl, rfl⟩
  | succ n ih =>
    obtain ⟨u, hu, ht⟩ := runInstrs_cons_next.1 h
    obtain ⟨z, c', hmix, rfl⟩ := nextu_next hc hu
    obtain ⟨hvalid, -, -, hlin, hnl, -⟩ := mix_frame s c c' z hmix
    obtain ⟨⟨h1, h2, h3, h4⟩, d, hd, hlin', hnl'⟩ := ih (isValidContext_written hc (hvalid.trans hc.2.2) _) ht
    exact ⟨⟨h1, h2, h3, h4⟩, d, hd, hlin'.trans hlin, hnl'.trans hnl⟩

/-- From equal cursors over one data set the same draws follow, with the same responses. -/
theorem draws_repeat {s t u : State} {i : BitVec 8} {c d : Context} {m : Nat} (hst : SameTables s t)
    (hc : isValidContext s i c) (hd : isValidContext t i d) (hcd : SameCursor s.cfg c d)
    (h : runInstrs (List.replicate m (.nextu i)) t = .next u) :
    ∃ (v : State) (rs : List Response), runInstrs (List.replicate m (.nextu i)) s = .next v ∧
      v.out = s.out ++ rs ∧ u.out = t.out ++ rs := by
  induction m generalizing s t c d with
  | zero => cases h; exact ⟨s, [], rfl, (List.append_nil _).symm, (List.append_nil _).symm⟩
  | succ m ih =>
    obtain ⟨t', ht', hu⟩ := runInstrs_cons_next.1 h
    obtain ⟨z, d', hmix, rfl⟩ := nextu_next hd ht'
    obtain ⟨c', hmix', hcd'⟩ := hst.mix hcd hmix
    have hs' : exec (.nextu i) s = .next (respond (nextuResponse z) (setContext i c' s)) :=
      drawWith_of_mix_ok hc nextuResponse hmix'
    have hcv := (mix_frame s c c' z hmix').1.trans hc.2.2
    have hdv := (mix_frame t d d' z hmix).1.trans hd.2.2
    have hst' : SameTables (respond (nextuResponse z) (setContext i c' s))
        (respond (nextuResponse z) (setContext i d' t)) := ⟨hst.cfg, hst.nc, hst.len, hst.tab⟩
    obtain ⟨v, rs, hv, hvout, huout⟩ :=
      ih hst' (isValidContext_written hc hcv _) (isValidContext_written hd hdv _) hcd' hu
    refine ⟨v, nextuResponse z :: rs, runInstrs_cons_next.2 ⟨_, hs', hv⟩, ?_, ?_⟩
    · rw [hvout, respond_out, List.append_assoc]; rfl
    · rw [huout, respond_out, List.append_assoc]; rfl

/-! ## LOADSEED (R89) -/

theorem take_succ_set {α : Type} (xs : List α) {n : Nat} (hn : n < xs.length) (x : α) :
    (xs.set n x).take (n + 1) = xs.take n ++ [x] := by
  rw [List.take_succ_eq_append_getElem (by simpa using hn), List.getElem_set_self, List.take_set_of_le le_rfl]

/-- `s` after words were staged: the buffer, how many, and one response a word. -/
def staged (s : State) (sb : Vec) (n : Nat) : State :=
  { s with sb := sb, scnt := s.scnt + n, out := s.out ++ List.replicate n okResponse }

theorem staged_staged (s : State) (sb sb' : Vec) (n : Nat) : staged (staged s sb 1) sb' n = staged s sb' (n + 1) := by
  simp [staged, List.replicate_succ, Nat.add_comm 1 n, Nat.add_assoc]

theorem exec_sbpush_of_lt {s : State} (w : Word) (h : s.scnt < s.cfg.sbDepth) :
    exec (.sbpush w) s = .next (staged s (s.sb.set s.scnt w) 1) := by
  rw [exec_sbpush, pushStaging_of_lt w h]
  rfl

/-- Words that fit are appended to those already staged. -/
theorem runInstrs_sbpush (ws : List Word) : ∀ s : State, s.scnt + ws.length ≤ s.cfg.sbDepth →
    s.sb.length = s.cfg.sbDepth → ∃ sb : Vec, runInstrs (ws.map .sbpush) s = .next (staged s sb ws.length) ∧
      sb.take (s.scnt + ws.length) = s.sb.take s.scnt ++ ws := by
  induction ws with
  | nil => exact fun s _ _ => ⟨s.sb, by simp [runInstrs, staged], by simp⟩
  | cons w ws ih =>
    intro s hfit hlen
    rw [List.length_cons] at hfit
    have hfit' : s.scnt + 1 + ws.length ≤ s.cfg.sbDepth := by omega
    obtain ⟨sb, hrun, htake⟩ :=
      ih (staged s (s.sb.set s.scnt w) 1) hfit' ((List.length_set ..).trans hlen)
    rw [staged_staged] at hrun
    refine ⟨sb, runInstrs_cons_next.2 ⟨_, exec_sbpush_of_lt w (by omega), hrun⟩, ?_⟩
    calc sb.take (s.scnt + (ws.length + 1)) = sb.take (s.scnt + 1 + ws.length) := by congr 1; omega
      _ = (s.sb.set s.scnt w).take (s.scnt + 1) ++ ws := htake
      _ = s.sb.take s.scnt ++ w :: ws := by rw [take_succ_set _ (by omega), List.append_assoc]; rfl

end Sys2Proof.Machine

namespace Sys2Proof.Proofs
open Sys2Proof Sys2Proof.Machine

/-- Settles O53: after RSTSUB the context has the cursor it had at the start, and the buffer is exhausted. -/
theorem restartRepeatsTheSubstream : Obligations.RestartRepeatsTheSubstream := by
  unfold Obligations.RestartRepeatsTheSubstream
  intro s t u i c n m hc hlin hnl hcur ht hu
  obtain ⟨hst, d, hd, hdlin, hdnl⟩ := draws_frame hc ht
  obtain ⟨t', ht', hu⟩ := runInstrs_cons_next.1 hu
  rw [exec_rstsub_of_valid hd] at ht'
  cases ht'
  have hdv : (restartSubstream t.cfg d).valid = true := hd.2.2
  have hcursor : SameCursor s.cfg c (restartSubstream t.cfg d) :=
    ⟨hdlin.trans hlin.symm, hdnl.trans hnl.symm, (congrArg Config.b hst.cfg).trans hcur.symm, .inl hcur⟩
  obtain ⟨v, rs, hv, hvout, huout⟩ := draws_repeat (t := respond okResponse (setContext i (restartSubstream t.cfg d) t))
    ⟨hst.cfg, hst.nc, hst.len, hst.tab⟩ hc (isValidContext_written hd hdv _) hcursor hu
  exact ⟨v, rs, hv, hvout, by rw [huout, respond_out, List.append_assoc]; rfl⟩

/-- Settles O54: the second construction takes the package origin that the first one advanced. -/
theorem successiveStreamsAreOneGapApart : Obligations.SuccessiveStreamsAreOneGapApart := by
  unfold Obligations.SuccessiveStreamsAreOneGapApart
  intro s t u v a b between ca cb ht hca ha hbetween hu hv hcb hb
  obtain ⟨⟨hlin, hnl⟩, ⟨hpkgLin, hpkgNl⟩, hjump⟩ := construct_next ha ht hca
  obtain ⟨hulin, hunl⟩ := runInstrs_package hbetween hu
  have hcfg : u.cfg = s.cfg := (runInstrs_cfg hu).trans (exec_cfg ht)
  obtain ⟨⟨hblin, hbnl⟩, -⟩ := construct_next (hcfg ▸ hb) hv hcb
  exact ⟨by rw [hblin, hulin, hpkgLin, hlin], by rw [hbnl, hunl, hpkgNl, hjump, hnl]⟩

/-- Settles O55: SBCLR empties the staging buffer, and each SBPUSH finds room. -/
theorem loadSeedStagesItsWords : Obligations.LoadSeedStagesItsWords := by
  unfold Obligations.LoadSeedStagesItsWords
  intro s ws hfit hlen
  obtain ⟨sb, hrun, htake⟩ := runInstrs_sbpush ws (respond okResponse (clearStaging s))
    (by rwa [respond_scnt, clearStaging_scnt, Nat.zero_add]) hlen
  refine ⟨_, runInstrs_cons_next.2 ⟨_, exec_sbclr s, hrun⟩, Nat.zero_add _, ?_, ?_⟩
  · rwa [respond_scnt, clearStaging_scnt, Nat.zero_add, List.take_zero, List.nil_append] at htake
  · simp [staged, respond, clearStaging, okResponse, List.replicate_succ]

end Sys2Proof.Proofs
end

