-- ==== Sys2Proof/Proofs/Rounding.lean ====
section
/-! NORMALISE rounds once, to nearest, ties to even (spec/43_mixer.md R182). The error is made in the integer quotient;
a product of at most 53 bits is exact, and a longer one already has a full significand. -/

namespace Sys2Proof.Machine

/-- The rounded quotient is within half a unit of the dividend, and even at exactly half a unit. -/
theorem roundedQuotient_nearest (n d : Nat) :
    2 * |((roundedQuotient n d * 2 ^ d : ℕ) : ℤ) - n| ≤ (2 ^ d : ℕ) ∧
      (2 * |((roundedQuotient n d * 2 ^ d : ℕ) : ℤ) - n| = (2 ^ d : ℕ) → roundedQuotient n d % 2 = 0) := by
  cases d with
  | zero => simp
  | succ d =>
    have hunit : 2 ^ (d + 1) = 2 * 2 ^ d := Nat.pow_succ'
    have hsplit := Nat.div_add_mod' n (2 ^ (d + 1))
    have hrem : n % 2 ^ (d + 1) < 2 ^ (d + 1) := Nat.mod_lt _ (by positivity)
    rw [roundedQuotient, Nat.add_sub_cancel]
    split_ifs with hup
    · rw [Nat.add_mul, Nat.one_mul, abs_of_nonneg (by omega)]
      omega
    · rw [abs_of_nonpos (by omega)]
      omega

/-- The same for the rationals the rounding stands for. -/
theorem partsValue_roundTo53_nearest (n : Nat) :
    2 * |partsValue (roundTo53 n) - n / 2 ^ 64| ≤ 2 ^ droppedBits n / 2 ^ 64 ∧
      (2 * |partsValue (roundTo53 n) - n / 2 ^ 64| = 2 ^ droppedBits n / 2 ^ 64 →
        roundedQuotient n (droppedBits n) % 2 = 0) := by
  obtain ⟨hle, heven⟩ := roundedQuotient_nearest n (droppedBits n)
  have herror : 2 * |partsValue (roundTo53 n) - n / 2 ^ 64| =
      ((2 * |((roundedQuotient n (droppedBits n) * 2 ^ droppedBits n : ℕ) : ℤ) - n| : ℤ) : ℚ) / 2 ^ 64 := by
    rw [partsValue_roundTo53, ← sub_div, abs_div, abs_of_pos (by positivity : (0 : ℚ) < 2 ^ 64), ← mul_div_assoc]
    push_cast
    rfl
  have hunit : (2 : ℚ) ^ droppedBits n = ((2 ^ droppedBits n : ℕ) : ℤ) := by push_cast; rfl
  rw [herror, hunit]
  refine ⟨?_, fun heq => heven ?_⟩
  · gcongr
  · exact_mod_cast (div_left_inj' (by positivity)).1 heq

theorem two_pow_52_le_roundedQuotient {n : Nat} (hd : droppedBits n ≠ 0) :
    2 ^ 52 ≤ roundedQuotient n (droppedBits n) := by
  have hn : n ≠ 0 := fun h => hd (by simp [h, droppedBits])
  refine le_roundedQuotient ?_
  rw [← pow_add]
  exact (Nat.pow_le_pow_right two_pos (by unfold droppedBits at hd ⊢; omega)).trans (Nat.log2_self_le hn)

theorem scaleUp_of_full (fuel : Nat) {x : Nat × Int} (h : 2 ^ 52 ≤ x.1) : scaleUp fuel x = x := by
  cases fuel with
  | zero => rfl
  | succ fuel => exact if_neg (Nat.not_lt.2 h)

/-- A product that loses bits: the significand is the rounded quotient, or half of it when that is `2^53`. -/
theorem normParts_of_dropped {u : Nat} (hd : droppedBits (normNumerator u) ≠ 0) :
    normParts u = roundTo53 (normNumerator u) := by
  have hfull := two_pow_52_le_roundedQuotient hd
  refine scaleUp_of_full 52 ?_
  rw [roundTo53_eq]
  split_ifs
  · exact le_rfl
  · exact hfull

/-- A product of at most 53 bits is exact. -/
theorem partsValue_roundTo53_exact {n : Nat} (hd : droppedBits n = 0) : partsValue (roundTo53 n) = n / 2 ^ 64 := by
  rw [partsValue_roundTo53, hd, roundedQuotient_zero, pow_zero, mul_one]

theorem partsValue_normParts (u : Nat) : partsValue (normParts u) = partsValue (roundTo53 (normNumerator u)) := by
  rw [normParts, partsValue_scaleUp]

/-- R182 on the significand and the scale. -/
theorem normParts_nearest (u : Nat) :
    2 * |partsValue (normParts u) - u * normC| ≤ (2 : ℚ) ^ ((normParts u).2 - 64) ∧
      (2 * |partsValue (normParts u) - u * normC| = (2 : ℚ) ^ ((normParts u).2 - 64) → (normParts u).1 % 2 = 0) := by
  rw [partsValue_normParts, ← normNumerator_div]
  by_cases hd : droppedBits (normNumerator u) = 0
  · have hunit : (0 : ℚ) < 2 ^ ((normParts u).2 - 64) := by positivity
    rw [partsValue_roundTo53_exact hd, sub_self, abs_zero, mul_zero]
    exact ⟨hunit.le, fun h => absurd h hunit.ne⟩
  · obtain ⟨hle, heven⟩ := partsValue_roundTo53_nearest (normNumerator u)
    have hunit (d : Nat) : (2 : ℚ) ^ ((d : ℤ) - 64) = 2 ^ d / 2 ^ 64 := by
      rw [zpow_sub₀ two_ne_zero, zpow_natCast]; rfl
    rw [normParts_of_dropped hd]
    generalize partsValue (roundTo53 (normNumerator u)) = v at hle heven ⊢
    rw [roundTo53_eq]
    split_ifs with hcarry
    · refine ⟨hle.trans ?_, fun _ => Nat.pow_mod 2 52 2⟩
      rw [← hunit]
      exact zpow_le_zpow_right₀ one_le_two (by simp)
    · rw [hunit]
      exact ⟨hle, heven⟩

end Sys2Proof.Machine

namespace Sys2Proof.Proofs
open Sys2Proof Sys2Proof.Machine

/-- Settles O58, with the significand and the scale that NORMALISE packs. -/
theorem normaliseRoundsToNearestEven : Obligations.NormaliseRoundsToNearestEven := by
  unfold Obligations.NormaliseRoundsToNearestEven
  intro u h1 h2
  obtain ⟨⟨hfull, hq⟩, hlow, hhigh⟩ := normParts_bounds h1 h2
  obtain ⟨hnear, heven⟩ := normParts_nearest u
  have hvalue := (binary64Value_normalise h1 h2).trans (partsValue_normParts u).symm
  rw [partsValue] at hnear heven hvalue
  exact ⟨(normParts u).1, (normParts u).2 - 64, hfull, hq, hvalue, hnear, heven⟩

end Sys2Proof.Proofs
end
